-- ==== Sys2Proof/Word.lean ====
section
/-! DEFINITION. The word types of the LCE: bytes of `SRC`, `OUT` and `KT`, 32-bit registers and command
words (10_state.md R21), 64-bit vector and key registers (R23, R48). -/

namespace Sys2Proof

/-- One byte of a memory or of the key table. -/
abbrev Byte := BitVec 8

/-- A 32-bit register or a command word (10_state.md R21). -/
abbrev Word := BitVec 32

/-- A 64-bit vector or key register (10_state.md R23, R48). -/
abbrev DWord := BitVec 64

end Sys2Proof
end

