-- ==== Sys2Proof/Config.lean ====
section
/-! DEFINITION. What this hardware fixes: the parameters of 00_scope.md R8 that a rule reads, and the
free value of a byte of memory that nothing has written. -/

namespace Sys2Proof

/-- `MAX_LEN`, the largest legal `SRC_LEN` and `OUT_LEN` (00_scope.md R8, 10_state.md R28). -/
def Config.maxLen : Nat := 2 ^ 31 - 1

/-- `UNARY_MAX`, the longest unary prefix of a delta code (00_scope.md R8, 46_delta_pixel.md R255). -/
def Config.unaryMax : Nat := 8

/-- `MT_N`, words of the Mersenne state (00_scope.md R8). -/
def Config.mtN : Nat := 624

/-- `MT_M`, the middle offset (00_scope.md R8). -/
def Config.mtM : Nat := 397

/-- `MT_MATRIX_A` (00_scope.md R8). -/
def Config.mtMatrixA : Word := 0x9908B0DF

/-- `MT_UPPER` (00_scope.md R8). -/
def Config.mtUpper : Word := 0x80000000

/-- `MT_LOWER` (00_scope.md R8). -/
def Config.mtLower : Word := 0x7FFFFFFF

/-- `MT_INIT_MULT` (00_scope.md R8). -/
def Config.mtInitMult : Word := 1812433253

/-- The two byte memories (20_memory.md R70). -/
inductive Space where
  | src
  | out
deriving DecidableEq, Repr

/-- What a byte of `SRC` or `OUT` that nothing has written since power-up reads as: a free value for each
address, since the spec says `any value` and not to assume zero (10_state.md R53,
93_implementation_defined.md U7); notes/assumptions/2.md. -/
opaque Config.powerUp : Space → Nat → Byte

end Sys2Proof
end

