-- ==== Sys2Proof/Machine/Bits.lean ====
section
/-! DEFINITION. Bit fields and byte order: unsigned slices (00_scope.md R9) and the little-endian reading of
consecutive bytes (20_memory.md R74). -/

namespace Sys2Proof

/-- The unsigned slice `w[lo+n-1 : lo]` (00_scope.md R9). -/
def field (w lo n : Nat) : Nat := (w >>> lo) % 2 ^ n

/-- Consecutive bytes as a little-endian unsigned number: the first byte in bits 7:0 (20_memory.md R74). -/
def leValue : List Byte → Nat
  | [] => 0
  | b :: bs => b.toNat + 256 * leValue bs

/-- The low `8n` bits of `v` as `n` bytes, low byte first (20_memory.md R74). -/
def leBytes : Nat → Nat → List Byte
  | 0, _ => []
  | n + 1, v => BitVec.ofNat 8 v :: leBytes n (v / 256)

end Sys2Proof
end

