-- ==== Sys2Proof/Machine/Memory.lean ====
section
/-! DEFINITION. A byte memory (`SRC` or `OUT`, 20_memory.md R70): the bytes written since power-up, listed
with addresses strictly rising. An address that is not listed holds its power-up byte, a free value
(notes/assumptions/2.md). -/

namespace Sys2Proof

/-- The written bytes of one address space, addresses strictly rising. -/
abbrev Memory := List Host.Cell

/-- The byte written at an address, where one was. -/
def Memory.listed : Memory → Nat → Option Byte
  | [], _ => none
  | (a', b) :: m, a => if a = a' then some b else Memory.listed m a

/-- One byte (`SRC[a]`, `OUT[a]`; 00_scope.md R10): the byte written there, or the power-up byte. -/
def Memory.read (sp : Space) (m : Memory) (a : Nat) : Byte := (m.listed a).getD (Config.powerUp sp a)

/-- Store one byte: the address's entry, new or replaced, at its place in the order. -/
def Memory.write : Memory → Nat → Byte → Memory
  | [], a, b => [(a, b)]
  | (a', b') :: m, a, b =>
    if a < a' then (a, b) :: (a', b') :: m
    else if a = a' then (a, b) :: m
    else (a', b') :: Memory.write m a b

/-- `n` bytes from index `a` up, in increasing index order (20_memory.md R77). -/
def Memory.readBytes (sp : Space) (m : Memory) : Nat → Nat → List Byte
  | _, 0 => []
  | a, n + 1 => m.read sp a :: Memory.readBytes sp m (a + 1) n

/-- Store bytes at indices `a`, `a+1`, .., in increasing index order (20_memory.md R77). -/
def Memory.writeBytes : Memory → Nat → List Byte → Memory
  | m, _, [] => m
  | m, a, b :: bs => Memory.writeBytes (m.write a b) (a + 1) bs

/-- `MemRead(a, n)` (00_scope.md R10). -/
def Memory.readLE (sp : Space) (m : Memory) (a n : Nat) : Nat := leValue (m.readBytes sp a n)

/-- `MemWrite(a, n, v)` (00_scope.md R10). -/
def Memory.writeLE (m : Memory) (a n v : Nat) : Memory := m.writeBytes a (leBytes n v)

/-- Zero-initialisation: 0 into indices `0..n-1` (20_memory.md R84). -/
def Memory.zeroFill (m : Memory) (n : Nat) : Memory :=
  (List.range n).map (fun a => (a, 0)) ++ m.filter (fun c => n ≤ c.1)

/-- The copy loop on `OUT`: `len` bytes one at a time in strictly increasing order, so that a byte written
here can be read later in the same call (42_overlapcopy.md R170, R171). -/
def Memory.copyUp : Memory → (src dst len : Nat) → Memory
  | m, _, _, 0 => m
  | m, src, dst, len + 1 => Memory.copyUp (m.write dst (m.read .out src)) (src + 1) (dst + 1) len

/-- Bytes placed from index 0 up in a memory nothing else has written. -/
def Memory.ofBytes (bs : List Byte) : Memory := Memory.writeBytes [] 0 bs

/-- Addresses at or above `lo`, strictly rising, inside the 32-bit index space. -/
def Memory.wfFrom : Nat → Memory → Bool
  | _, [] => true
  | lo, (a, _) :: m => decide (lo ≤ a) && decide (a < 2 ^ 32) && Memory.wfFrom (a + 1) m

/-- The canonical form of a memory: one entry for each written address, addresses strictly rising. -/
def Memory.wf (m : Memory) : Bool := Memory.wfFrom 0 m

end Sys2Proof
end

