-- ==== Sys2Proof/Syntax.lean ====
section
/-! DEFINITION. The instructions of the LCE, one constructor per row of spec/opcode_table.json: 13 host
commands, 5 prefix-controlled and 6 byte-controlled tokens, delta elements and alpha pairs, and 4 lane
micro-operations (00_scope.md R2, 30_encoding.md R100). The families that one command interprets have
types of their own, so that each decode loop only ever meets tokens of its family. -/

namespace Sys2Proof

/-- Bit order of the cursor (`CUR_MODE.ORDER`, `FMTv.ORDER`): 10_state.md R33. -/
inductive BitOrder where
  | msb
  | lsb
deriving DecidableEq, Repr

/-- The legal refill widths, 1, 2 or 4 bytes (41_bitcursor.md R150). -/
inductive RefillWidth where
  | w1
  | w2
  | w4
deriving DecidableEq, Repr

/-- Bytes per refill (41_bitcursor.md R150). -/
def RefillWidth.bytes : RefillWidth → Nat
  | .w1 => 1
  | .w2 => 2
  | .w4 => 4

/-- `FMTv.FAMILY` (10_state.md R38): which token family a slot decodes. -/
inductive Family where
  | pfx
  | byt
  | delta
deriving DecidableEq, Repr

/-- A legal format descriptor together with its tag table: the fields of `FMTv` and `TAGTABv`
(10_state.md R38, R39). -/
structure Format where
  family : Family
  order : BitOrder
  refill : RefillWidth
  offw : Nat
  cntw : Nat
  lenbias : Nat
  signBit : Bool
  escEn : Bool
  term : Byte
  tagtab : Word
deriving DecidableEq, Repr

/-- The four kinds a tag-table entry names (10_state.md R39). -/
inductive PfxKind where
  | lit
  | run2
  | run3
  | copy
deriving DecidableEq, Repr

/-- How a token carried its count: in the inline field, or in the 16-bit explicit count that the escape
code announces (30_encoding.md R105, R108). -/
inductive CountForm where
  | inline
  | explicit
deriving DecidableEq, Repr

/-- Predictor select of a delta element (30_encoding.md R111). -/
inductive Predictor where
  | left
  | up
  | upLeft
  | ref
deriving DecidableEq, Repr

/-- Lane width of a micro-operation: 8, 16, 32 or 64 bits (30_encoding.md R112). -/
inductive LaneWidth where
  | l8
  | l16
  | l32
  | l64
deriving DecidableEq, Repr

/-- Bits per lane (48_lane_transform.md R311). -/
def LaneWidth.bits : LaneWidth → Nat
  | .l8 => 8
  | .l16 => 16
  | .l32 => 32
  | .l64 => 64

/-- `KEYGEN`'s target, `ARG[0]` (47_stream_cipher.md R300). -/
inductive KeyTarget where
  | kt
  | kr
deriving DecidableEq, Repr

/-- A fetched prefix-controlled token; a copy's length is already `count + LENBIAS` or the explicit count
(30_encoding.md R106). -/
inductive PfxToken where
  | lit (value : Byte)
  | run2 (value : Byte)
  | run3 (value : Byte)
  | copy (offset length : BitVec 16) (form : CountForm)
  | term
deriving DecidableEq, Repr

/-- A fetched byte-controlled token; the payload of a literal run is still in the stream (44_token_byte.md
R210, R214). -/
inductive BytToken where
  | term
  | litrun (count : BitVec 16) (form : CountForm)
  | fillb (count : BitVec 16) (form : CountForm) (value : Byte)
  | fillw (count : BitVec 16) (form : CountForm) (u0 u1 : Byte)
  | copys (length : BitVec 16) (form : CountForm) (offset : Byte)
  | copyl (length : BitVec 16) (form : CountForm) (offset : BitVec 16)
deriving DecidableEq, Repr

/-- A fetched delta element: the selector and the signed delta (46_delta_pixel.md R255). -/
structure DeltaElem where
  sel : Predictor
  delta : Int
deriving DecidableEq, Repr

/-- A fetched alpha pair (30_encoding.md R114). -/
structure AlphaPair where
  runm1 : Byte
  value : Byte
deriving DecidableEq, Repr

/-- A lane micro-operation (30_encoding.md R112); `stop` is END. -/
inductive LaneOp where
  | stop
  | add (w : LaneWidth) (dst src : Fin 8)
  | sub (w : LaneWidth) (dst src : Fin 8)
  | xor (w : LaneWidth) (dst src : Fin 8)
deriving DecidableEq, Repr

/-- The instructions of spec/opcode_table.json, one constructor per row. -/
inductive Instr where
  | nop
  | clear
  | sreset
  | bcinit (order : BitOrder) (refill : RefillWidth)
  | bcpeek (n : BitVec 6)
  | bctake (n : BitVec 6)
  | bcalign
  | ocopy
  | decode (v : Fin 4)
  | probe
  | keygen (target : KeyTarget)
  | cipher
  | lane
  | pfxLit (value : Byte)
  | pfxRun2 (value : Byte)
  | pfxRun3 (value : Byte)
  | pfxCopy (offset length : BitVec 16) (form : CountForm)
  | pfxTerm
  | bytTerm
  | bytLitrun (count : BitVec 16) (form : CountForm)
  | bytFillb (count : BitVec 16) (form : CountForm) (value : Byte)
  | bytFillw (count : BitVec 16) (form : CountForm) (u0 u1 : Byte)
  | bytCopys (length : BitVec 16) (form : CountForm) (offset : Byte)
  | bytCopyl (length : BitVec 16) (form : CountForm) (offset : BitVec 16)
  | dpxElem (sel : Predictor) (delta : Int)
  | dpxApair (runm1 value : Byte)
  | lopEnd
  | lopAdd (w : LaneWidth) (dst src : Fin 8)
  | lopSub (w : LaneWidth) (dst src : Fin 8)
  | lopXor (w : LaneWidth) (dst src : Fin 8)
deriving DecidableEq, Repr

/-- The instruction a prefix-controlled token is. -/
def PfxToken.toInstr : PfxToken → Instr
  | .lit v => .pfxLit v
  | .run2 v => .pfxRun2 v
  | .run3 v => .pfxRun3 v
  | .copy o l f => .pfxCopy o l f
  | .term => .pfxTerm

/-- The instruction a byte-controlled token is. -/
def BytToken.toInstr : BytToken → Instr
  | .term => .bytTerm
  | .litrun n f => .bytLitrun n f
  | .fillb n f v => .bytFillb n f v
  | .fillw n f u0 u1 => .bytFillw n f u0 u1
  | .copys l f o => .bytCopys l f o
  | .copyl l f o => .bytCopyl l f o

/-- The instruction a delta element is. -/
def DeltaElem.toInstr (e : DeltaElem) : Instr := .dpxElem e.sel e.delta

/-- The instruction an alpha pair is. -/
def AlphaPair.toInstr (p : AlphaPair) : Instr := .dpxApair p.runm1 p.value

/-- The instruction a lane micro-operation is. -/
def LaneOp.toInstr : LaneOp → Instr
  | .stop => .lopEnd
  | .add w d s => .lopAdd w d s
  | .sub w d s => .lopSub w d s
  | .xor w d s => .lopXor w d s

end Sys2Proof
end

