-- ==== Sys2Proof/Machine/BitCursor.lean ====
section
/-! DEFINITION. The BitCursor (41_bitcursor.md): its registers and `refill`, `take1`, `take`, `peek`,
`align_byte`, `bitpos`, over a read-only view of `SRC`. -/

namespace Sys2Proof

/-- `CUR_BPOS`, `CUR_CACHE`, `CUR_CBITS`, `CUR_MODE` (10_state.md R30 to R33). -/
structure BitCursor where
  bpos : Word
  cache : Word
  cbits : BitVec 6
  mode : BitVec 3
deriving DecidableEq, Repr

/-- What a cursor reads through: bit order, refill width, and the bytes of `SRC` with `SRC_LEN`
(41_bitcursor.md R150). -/
structure Reader where
  order : BitOrder
  width : RefillWidth
  src : Memory
  len : Nat
deriving DecidableEq, Repr

/-- The meaning of an `ORDER` bit (10_state.md R33, R38). -/
def BitOrder.ofBit (b : Bool) : BitOrder := if b then .lsb else .msb

/-- The `ORDER` bit of a bit order. -/
def BitOrder.toField : BitOrder → Nat
  | .msb => 0
  | .lsb => 1

/-- The meaning of a `REFILL` field; 3 is reserved (10_state.md R33). -/
def RefillWidth.ofField : Nat → Option RefillWidth
  | 0 => some .w1
  | 1 => some .w2
  | 2 => some .w4
  | _ => none

/-- The `REFILL` field of a width. -/
def RefillWidth.toField : RefillWidth → Nat
  | .w1 => 0
  | .w2 => 1
  | .w4 => 2

/-- The `CUR_MODE` word of an order and a width (10_state.md R33). -/
def modeOf (o : BitOrder) (w : RefillWidth) : BitVec 3 := BitVec.ofNat 3 (o.toField + 2 * w.toField)

/-- `CUR_MODE.ORDER`. -/
def BitCursor.order (c : BitCursor) : BitOrder := BitOrder.ofBit (c.mode.toNat % 2 == 1)

/-- `CUR_MODE.REFILL`, where it is legal (10_state.md R33). -/
def BitCursor.refill? (c : BitCursor) : Option RefillWidth := RefillWidth.ofField (c.mode.toNat / 2)

/-- A new cursor at the start of `SRC` (41_bitcursor.md R160, 43_token_decoder.md R181). -/
def BitCursor.fresh (o : BitOrder) (w : RefillWidth) : BitCursor :=
  { bpos := 0, cache := 0, cbits := 0, mode := modeOf o w }

/-- `SRC[a]`, or the zero-fill byte at or past the end (41_bitcursor.md R151, 20_memory.md R71). -/
def Reader.byte (e : Reader) (a : Nat) : Byte := if a < e.len then e.src.read .src a else 0

/-- The word one refill assembles from the bytes at `p`: first byte in bits 31:24 under MSB-first, in bits
7:0 under LSB-first; the bytes take disjoint places, so the sum of 41_bitcursor.md R151 is an or. -/
def Reader.refillWord (e : Reader) (p : Nat) : Word :=
  match e.order with
  | .msb => (List.range e.width.bytes).foldl
      (fun acc i => acc ||| ((e.byte (p + i)).setWidth 32 <<< (24 - 8 * i))) 0
  | .lsb => (List.range e.width.bytes).foldl
      (fun acc i => acc ||| ((e.byte (p + i)).setWidth 32 <<< (8 * i))) 0

/-- `refill` (41_bitcursor.md R151). `CUR_BPOS` keeps the low 32 bits of the sum: DEDUCED from 10_state.md
R21, unsafe, notes/assumptions/3.md. -/
def refill (e : Reader) (c : BitCursor) : BitCursor :=
  { c with
    cache := e.refillWord c.bpos.toNat
    cbits := BitVec.ofNat 6 (8 * e.width.bytes)
    bpos := c.bpos + BitVec.ofNat 32 e.width.bytes }

/-- Refill only an empty cache: the first line of `take1` (41_bitcursor.md R152). -/
def ensureBit (e : Reader) (c : BitCursor) : BitCursor := if c.cbits = 0 then refill e c else c

/-- The next bit of a cache that holds one (41_bitcursor.md R152). -/
def nextBit (o : BitOrder) (c : BitCursor) : Bool :=
  match o with
  | .msb => c.cache.getMsbD 0
  | .lsb => c.cache.getLsbD 0

/-- The cursor after that bit is gone (41_bitcursor.md R152). -/
def dropBit (o : BitOrder) (c : BitCursor) : BitCursor :=
  match o with
  | .msb => { c with cache := c.cache <<< 1, cbits := c.cbits - 1 }
  | .lsb => { c with cache := c.cache >>> 1, cbits := c.cbits - 1 }

/-- `take1` (41_bitcursor.md R152). -/
def take1 (e : Reader) (c : BitCursor) : Bool × BitCursor :=
  (nextBit e.order (ensureBit e c), dropBit e.order (ensureBit e c))

/-- One bit joined to a result of `i` bits: `(r << 1) | bit` under MSB-first, `r | (bit << i)` under
LSB-first, where `r < 2^i` makes the or a sum (41_bitcursor.md R153). -/
def joinBit (o : BitOrder) (i r : Nat) (b : Bool) : Nat :=
  match o with
  | .msb => 2 * r + b.toNat
  | .lsb => r + b.toNat * 2 ^ i

/-- The loop of `take`: `k` bits still to come, `i` bits in `r` (41_bitcursor.md R153). -/
def takeLoop (e : Reader) : (k i r : Nat) → BitCursor → Nat × BitCursor
  | 0, _, r, c => (r, c)
  | k + 1, i, r, c => takeLoop e k (i + 1) (joinBit e.order i r (take1 e c).1) (take1 e c).2

/-- `take(n)` (41_bitcursor.md R153). -/
def take (e : Reader) (n : Nat) (c : BitCursor) : Nat × BitCursor := takeLoop e n 0 0 c

/-- `peek(n)`: what `take(n)` would return (41_bitcursor.md R154). -/
def peek (e : Reader) (n : Nat) (c : BitCursor) : Nat := (take e n c).1

/-- `align_byte()` discards the cached bits (41_bitcursor.md R156). -/
def alignByte (c : BitCursor) : BitCursor := { c with cache := 0, cbits := 0 }

/-- `bitpos = 8·CUR_BPOS − CUR_CBITS`, an integer (41_bitcursor.md R157). -/
def bitpos (c : BitCursor) : Int := 8 * (c.bpos.toNat : Int) - (c.cbits.toNat : Int)

end Sys2Proof
end

