-- ==== Sys2Proof/WellFormed.lean ====
section
/-! DEFINITION. Which instruction terms an encoding exists for: the bounds 30_encoding.md puts on the
operands, relative to a slot's format for the token families. -/

namespace Sys2Proof

/-- The inline count field of a token: the escape code for an explicit count, the length less the bias
otherwise (30_encoding.md R106, R109). -/
def inlineField (form : CountForm) (max bias n : Nat) : Nat :=
  match form with
  | .inline => n - bias
  | .explicit => max

/-- Whether a count `n` can be written in the form: inline within the field and not at the escape code,
explicit only where the format allows the escape (30_encoding.md R105, R108). -/
def countWf (form : CountForm) (esc : Bool) (max bias n : Nat) : Bool :=
  match form with
  | .inline => decide (bias ≤ n) && decide (n - bias ≤ max) && !(esc && decide (n - bias = max))
  | .explicit => esc

/-- The control byte of a byte-controlled token (30_encoding.md R108). -/
def bytControl (f : Format) : BytToken → Nat
  | .term => f.term.toNat
  | .litrun n form => inlineField form 63 0 n.toNat
  | .fillb n form _ => 0x40 + inlineField form 31 0 n.toNat
  | .fillw n form _ _ => 0x60 + inlineField form 31 0 n.toNat
  | .copys l form _ => 0x80 + inlineField form 63 f.lenbias l.toNat
  | .copyl l form _ => 0xC0 + inlineField form 63 f.lenbias l.toNat

/-- A byte-controlled token other than the terminator must not begin with the terminator's byte
(44_token_byte.md R211). -/
def notTerm (f : Format) (t : BytToken) : Bool := decide (bytControl f t ≠ f.term.toNat)

/-- The ranges of a format descriptor's fields; those of `OFFW` and `CNTW` bind the prefix family only
(10_state.md R38, 43_token_decoder.md R182). -/
def Format.wf (f : Format) : Bool :=
  decide (f.lenbias ≤ 15)
    && (f.family != .pfx
      || (decide (1 ≤ f.offw) && decide (f.offw ≤ 16) && decide (1 ≤ f.cntw) && decide (f.cntw ≤ 8)))

/-- The range of a delta under the format's sign map (46_delta_pixel.md R256). -/
def deltaWf (f : Format) (d : Int) : Bool :=
  if f.signBit then decide (d.natAbs ≤ 510) else decide (-255 ≤ d) && decide (d ≤ 255)

/-- The operands of an instruction stand inside their fields, and a token belongs to the format's family
(30_encoding.md R104 to R113). -/
def Instr.wf (f : Format) : Instr → Bool
  | .nop | .clear | .sreset | .bcinit _ _ | .bcalign | .ocopy | .decode _ | .probe | .keygen _
  | .cipher | .lane => true
  | .bcpeek n | .bctake n => decide (n.toNat ≤ 32)
  | .pfxLit _ | .pfxRun2 _ | .pfxRun3 _ | .pfxTerm => f.family == .pfx
  | .pfxCopy o l form =>
    f.family == .pfx && decide (o ≠ 0) && decide (o.toNat < 2 ^ f.offw)
      && countWf form f.escEn (2 ^ f.cntw - 1) f.lenbias l.toNat
  | .bytTerm => f.family == .byt
  | .bytLitrun n form =>
    f.family == .byt && countWf form f.escEn 63 0 n.toNat && notTerm f (.litrun n form)
  | .bytFillb n form v =>
    f.family == .byt && countWf form f.escEn 31 0 n.toNat && notTerm f (.fillb n form v)
  | .bytFillw n form u0 u1 =>
    f.family == .byt && countWf form f.escEn 31 0 n.toNat && notTerm f (.fillw n form u0 u1)
  | .bytCopys l form o =>
    f.family == .byt && countWf form f.escEn 63 f.lenbias l.toNat && notTerm f (.copys l form o)
  | .bytCopyl l form o =>
    f.family == .byt && countWf form f.escEn 63 f.lenbias l.toNat && notTerm f (.copyl l form o)
  | .dpxElem _ d => f.family == .delta && deltaWf f d
  | .dpxApair _ _ => f.family == .delta
  | .lopEnd | .lopAdd _ _ _ | .lopSub _ _ _ | .lopXor _ _ _ => true

end Sys2Proof
end

