-- ==== Sys2Proof/Decode.lean ====
section
/-! DEFINITION. Decoding, total and rejecting by name, in the encoding spaces of 30_encoding.md R100
(command words, lane micro-operation words, and the tokens a BitCursor fetches), and then the encoder
written from the same tables. -/

namespace Sys2Proof

/-- Why a word or a token has no meaning. Every one of them is safe: the commands raise on it as the spec
says (30_encoding.md R104, R107, R111, R113). -/
inductive DecodeError where
  /-- `CMD[31:16] ≠ 0` (R104). -/
  | upperBits
  /-- An `OP` outside the map of R102. -/
  | reservedOpcode
  /-- An `ARG` bit the opcode map says is 0 (R104). -/
  | argBits
  /-- `n > 32` in BCPEEK or BCTAKE (R104). -/
  | bitCount
  /-- `REFILL = 3` in BCINIT (R104). -/
  | refillWidth
  /-- A micro-operation with `OP ≥ 4` (R113). -/
  | reservedMicroOp
  /-- A micro-operation with a bit of 4:0 set (R113). -/
  | microOpLowBits
  /-- `OP = 0` with another bit set (R113). -/
  | microOpEndFields
  /-- A tag-table entry with `LEN = 0` (R107). -/
  | undefinedTag
  /-- A ninth one-bit in the prefix of a delta code (R111). -/
  | unaryPrefix
  /-- A token asked of a family it does not belong to. -/
  | wrongSpace
deriving DecidableEq, Repr

/-! ## Host commands -/

/-- An instruction whose `ARG` must be 0 (30_encoding.md R102). -/
def plainCmd (arg : Nat) (i : Instr) : Except DecodeError Instr :=
  if arg = 0 then .ok i else .error .argBits

/-- The bit count of BCPEEK and BCTAKE, `ARG[5:0]` in 0..32 with `ARG[7:6] = 0` (30_encoding.md R102). -/
def countCmd (arg : Nat) (i : BitVec 6 → Instr) : Except DecodeError Instr :=
  if field arg 6 2 ≠ 0 then .error .argBits
  else if field arg 0 6 > 32 then .error .bitCount
  else .ok (i (BitVec.ofNat 6 (field arg 0 6)))

/-- BCINIT: `ARG[0]` = ORDER, `ARG[2:1]` = REFILL, `ARG[7:3] = 0` (30_encoding.md R102, R104). -/
def bcinitCmd (arg : Nat) : Except DecodeError Instr :=
  if field arg 3 5 ≠ 0 then .error .argBits
  else match RefillWidth.ofField (field arg 1 2) with
    | none => .error .refillWidth
    | some r => .ok (.bcinit (BitOrder.ofBit (field arg 0 1 == 1)) r)

/-- DECODE: `ARG[1:0]` = slot, `ARG[7:2] = 0` (30_encoding.md R102). -/
def decodeArgCmd (arg : Nat) : Except DecodeError Instr :=
  if field arg 2 6 ≠ 0 then .error .argBits else .ok (.decode (Fin.ofNat 4 (field arg 0 2)))

/-- KEYGEN: `ARG[0]` = target, `ARG[7:1] = 0` (30_encoding.md R102). -/
def keygenCmd (arg : Nat) : Except DecodeError Instr :=
  if field arg 1 7 ≠ 0 then .error .argBits
  else .ok (.keygen (if field arg 0 1 = 0 then .kt else .kr))

/-- The opcode map (30_encoding.md R101, R102, R104). -/
def decodeCmd (w : Word) : Except DecodeError Instr :=
  if field w.toNat 16 16 ≠ 0 then .error .upperBits
  else match field w.toNat 0 8 with
    | 0x00 => plainCmd (field w.toNat 8 8) .nop
    | 0x01 => plainCmd (field w.toNat 8 8) .clear
    | 0x02 => plainCmd (field w.toNat 8 8) .sreset
    | 0x10 => bcinitCmd (field w.toNat 8 8)
    | 0x11 => countCmd (field w.toNat 8 8) .bcpeek
    | 0x12 => countCmd (field w.toNat 8 8) .bctake
    | 0x13 => plainCmd (field w.toNat 8 8) .bcalign
    | 0x18 => plainCmd (field w.toNat 8 8) .ocopy
    | 0x20 => decodeArgCmd (field w.toNat 8 8)
    | 0x21 => plainCmd (field w.toNat 8 8) .probe
    | 0x30 => keygenCmd (field w.toNat 8 8)
    | 0x31 => plainCmd (field w.toNat 8 8) .cipher
    | 0x32 => plainCmd (field w.toNat 8 8) .lane
    | _ => .error .reservedOpcode

/-! ## Lane micro-operations -/

/-- The `LW` field (30_encoding.md R112). -/
def LaneWidth.ofField : Nat → LaneWidth
  | 0 => .l8
  | 1 => .l16
  | 2 => .l32
  | _ => .l64

/-- `LaneWidth.ofField` read backwards. -/
def LaneWidth.toField : LaneWidth → Nat
  | .l8 => 0
  | .l16 => 1
  | .l32 => 2
  | .l64 => 3

/-- A micro-operation slot (30_encoding.md R112, R113): END only as the all-zero word. -/
def decodeLop (w : BitVec 16) : Except DecodeError LaneOp :=
  if w = 0 then .ok .stop
  else if field w.toNat 13 3 ≥ 4 then .error .reservedMicroOp
  else if field w.toNat 0 5 ≠ 0 then .error .microOpLowBits
  else match field w.toNat 13 3 with
    | 1 => .ok (.add (LaneWidth.ofField (field w.toNat 11 2)) (Fin.ofNat 8 (field w.toNat 8 3))
        (Fin.ofNat 8 (field w.toNat 5 3)))
    | 2 => .ok (.sub (LaneWidth.ofField (field w.toNat 11 2)) (Fin.ofNat 8 (field w.toNat 8 3))
        (Fin.ofNat 8 (field w.toNat 5 3)))
    | 3 => .ok (.xor (LaneWidth.ofField (field w.toNat 11 2)) (Fin.ofNat 8 (field w.toNat 8 3))
        (Fin.ofNat 8 (field w.toNat 5 3)))
    | _ => .error .microOpEndFields

/-! ## Format descriptors -/

/-- `FMTv.FAMILY`; 3 is reserved (10_state.md R38). -/
def Family.ofField : Nat → Option Family
  | 0 => some .pfx
  | 1 => some .byt
  | 2 => some .delta
  | _ => none

/-- The fields of `FMTv` and `TAGTABv`, where the checks of 43_token_decoder.md R182 that need no other
register pass: `FAMILY ≠ 3`, `REFILL ≠ 3`, and for `FAMILY = 0` the ranges of `OFFW` and `CNTW`. -/
def Format.ofRegs (fmt tagtab : Word) : Option Format :=
  match Family.ofField (field fmt.toNat 0 2), RefillWidth.ofField (field fmt.toNat 3 2) with
  | some fam, some r =>
    if fam = .pfx ∧ ¬ (1 ≤ field fmt.toNat 5 5 ∧ field fmt.toNat 5 5 ≤ 16 ∧
        1 ≤ field fmt.toNat 10 4 ∧ field fmt.toNat 10 4 ≤ 8) then none
    else some
      { family := fam
        order := BitOrder.ofBit (field fmt.toNat 2 1 == 1)
        refill := r
        offw := field fmt.toNat 5 5
        cntw := field fmt.toNat 10 4
        lenbias := field fmt.toNat 14 4
        signBit := field fmt.toNat 18 1 == 1
        escEn := field fmt.toNat 19 1 == 1
        term := BitVec.ofNat 8 (field fmt.toNat 24 8)
        tagtab := tagtab }
  | _, _ => none

/-! ## Prefix-controlled tokens -/

/-- `LEN` of tag-table entry `i` (10_state.md R39). -/
def tagLen (t : Word) (i : Nat) : Nat := field t.toNat (4 * i) 2

/-- `KIND` of tag-table entry `i` (10_state.md R39). -/
def tagKind (t : Word) (i : Nat) : PfxKind :=
  match field t.toNat (4 * i + 2) 2 with
  | 0 => .lit
  | 1 => .run2
  | 2 => .run3
  | _ => .copy

/-- The operands of a COPY after its tag: offset, count, and the explicit count that the escape announces;
an offset of 0 is Terminate and no count is read (43_token_decoder.md R190, R202). -/
def fetchCopy (f : Format) (e : Reader) (c : BitCursor) : PfxToken × BitCursor :=
  let off := take e f.offw c
  if off.1 = 0 then (.term, off.2)
  else
    let cnt := take e f.cntw off.2
    if f.escEn ∧ cnt.1 = 2 ^ f.cntw - 1 then
      let x := take e 16 cnt.2
      (.copy (BitVec.ofNat 16 off.1) (BitVec.ofNat 16 x.1) .explicit, x.2)
    else (.copy (BitVec.ofNat 16 off.1) (BitVec.ofNat 16 (cnt.1 + f.lenbias)) .inline, cnt.2)

/-- The operands of a prefix-controlled token after its tag (43_token_decoder.md R190). -/
def fetchPfxBody (f : Format) (e : Reader) (k : PfxKind) (c : BitCursor) : PfxToken × BitCursor :=
  match k with
  | .lit => (.lit (BitVec.ofNat 8 (take e 8 c).1), (take e 8 c).2)
  | .run2 => (.run2 (BitVec.ofNat 8 (take e 8 c).1), (take e 8 c).2)
  | .run3 => (.run3 (BitVec.ofNat 8 (take e 8 c).1), (take e 8 c).2)
  | .copy => fetchCopy f e c

/-- `FetchToken` for `FAMILY = 0`, without its overrun test (43_token_decoder.md R190, R203). -/
def fetchPfx (f : Format) (e : Reader) (c : BitCursor) : Except DecodeError PfxToken × BitCursor :=
  let i := peek e 3 c
  if tagLen f.tagtab i = 0 then (.error .undefinedTag, (take e 3 c).2)
  else
    let t := fetchPfxBody f e (tagKind f.tagtab i) (take e (tagLen f.tagtab i) c).2
    (.ok t.1, t.2)

/-! ## Byte-controlled tokens -/

/-- `x16()`: two bytes, low byte first (44_token_byte.md R210, 30_encoding.md R109). -/
def fetchX16 (e : Reader) (c : BitCursor) : Nat × BitCursor :=
  let lo := take e 8 c
  let hi := take e 8 lo.2
  (lo.1 + 256 * hi.1, hi.2)

/-- The count of a byte-controlled token: the explicit count where the inline field `n` is all ones and the
format allows the escape, `n + bias` otherwise (44_token_byte.md R210). -/
def fetchCount (f : Format) (e : Reader) (n max bias : Nat) (c : BitCursor) :
    (BitVec 16 × CountForm) × BitCursor :=
  if f.escEn ∧ n = max then
    ((BitVec.ofNat 16 (fetchX16 e c).1, .explicit), (fetchX16 e c).2)
  else ((BitVec.ofNat 16 (n + bias), .inline), c)

/-- The operands of a byte-controlled token after its control byte `b` (44_token_byte.md R210). -/
def fetchBytBody (f : Format) (e : Reader) (b : Nat) (c : BitCursor) : BytToken × BitCursor :=
  if field b 7 1 = 1 then
    let n := fetchCount f e (field b 0 6) 63 f.lenbias c
    if field b 6 1 = 1 then
      let o := fetchX16 e n.2
      (.copyl n.1.1 n.1.2 (BitVec.ofNat 16 o.1), o.2)
    else
      let o := take e 8 n.2
      (.copys n.1.1 n.1.2 (BitVec.ofNat 8 o.1), o.2)
  else if field b 6 1 = 1 then
    let n := fetchCount f e (field b 0 5) 31 0 c
    let u0 := take e 8 n.2
    if field b 5 1 = 1 then
      let u1 := take e 8 u0.2
      (.fillw n.1.1 n.1.2 (BitVec.ofNat 8 u0.1) (BitVec.ofNat 8 u1.1), u1.2)
    else (.fillb n.1.1 n.1.2 (BitVec.ofNat 8 u0.1), u0.2)
  else
    let n := fetchCount f e (field b 0 6) 63 0 c
    (.litrun n.1.1 n.1.2, n.2)

/-- `FetchToken` for `FAMILY = 1`, without its overrun test; `TERM` is tested before any other reading of
the control byte (44_token_byte.md R210, R211). -/
def fetchByt (f : Format) (e : Reader) (c : BitCursor) : BytToken × BitCursor :=
  let b := take e 8 c
  if BitVec.ofNat 8 b.1 = f.term then (.term, b.2) else fetchBytBody f e b.1 b.2

/-! ## Delta elements and alpha pairs -/

/-- The selector field (30_encoding.md R111). -/
def Predictor.ofField : Nat → Predictor
  | 0 => .left
  | 1 => .up
  | 2 => .upLeft
  | _ => .ref

/-- `Predictor.ofField` read backwards. -/
def Predictor.toField : Predictor → Nat
  | .left => 0
  | .up => 1
  | .upLeft => 2
  | .ref => 3

/-- The unary prefix: one-bits up to the closing zero-bit, `k` of them seen so far and `m` more allowed;
one more than allowed is no code (46_delta_pixel.md R255). -/
def unaryPrefix (e : Reader) : (m k : Nat) → BitCursor → Option Nat × BitCursor
  | 0, k, c => if (take e 1 c).1 = 0 then (some k, (take e 1 c).2) else (none, (take e 1 c).2)
  | m + 1, k, c =>
    if (take e 1 c).1 = 0 then (some k, (take e 1 c).2)
    else unaryPrefix e m (k + 1) (take e 1 c).2

/-- Zig-zag: even `u` to `u/2`, odd `u` to `−(u+1)/2` (46_delta_pixel.md R256). -/
def zigZag (u : Nat) : Int := if u % 2 = 0 then ((u / 2 : Nat) : Int) else -(((u + 1) / 2 : Nat) : Int)

/-- `SignMap`, which reads a sign bit only under the sign-bit map and for `u ≠ 0` (46_delta_pixel.md
R256). -/
def signMap (f : Format) (e : Reader) (u : Nat) (c : BitCursor) : Int × BitCursor :=
  if f.signBit then
    if u = 0 then (0, c)
    else
      let g := take e 1 c
      (if g.1 = 0 then (u : Int) else -(u : Int), g.2)
  else (zigZag u, c)

/-- `FetchElement`, without its overrun test (46_delta_pixel.md R255). -/
def fetchElem (f : Format) (e : Reader) (c : BitCursor) : Except DecodeError DeltaElem × BitCursor :=
  let sel := take e 2 c
  let pre := unaryPrefix e Config.unaryMax 0 sel.2
  match pre.1 with
  | none => (.error .unaryPrefix, pre.2)
  | some k =>
    let mag := take e k pre.2
    let d := signMap f e (2 ^ k - 1 + mag.1) mag.2
    (.ok { sel := Predictor.ofField sel.1, delta := d.1 }, d.2)

/-- One alpha pair: run length minus one, then the value (46_delta_pixel.md R260). -/
def fetchPair (e : Reader) (c : BitCursor) : AlphaPair × BitCursor :=
  let r := take e 8 c
  let v := take e 8 r.2
  ({ runm1 := BitVec.ofNat 8 r.1, value := BitVec.ofNat 8 v.1 }, v.2)

/-! ## Encoding -/

/-- The place an instruction is fetched from (30_encoding.md R100), with its bits: stream bits stand in the
order the cursor consumes them, and the alpha pairs are a stream of their own (R114). -/
inductive Encoded where
  | cmd (w : Word)
  | lop (w : BitVec 16)
  | stream (bits : List Bool)
  | alpha (bits : List Bool)
deriving DecidableEq, Repr

/-- The `n` bits of a field in consumption order (30_encoding.md R106). -/
def fieldBits (o : BitOrder) (n v : Nat) : List Bool :=
  match o with
  | .msb => (List.range n).map (fun i => v.testBit (n - 1 - i))
  | .lsb => (List.range n).map (fun i => v.testBit i)

/-- The number whose field bits, in consumption order, these are (41_bitcursor.md R153). -/
def bitsValue (o : BitOrder) : List Bool → Nat
  | [] => 0
  | b :: bs =>
    match o with
    | .msb => b.toNat * 2 ^ bs.length + bitsValue .msb bs
    | .lsb => b.toNat + 2 * bitsValue .lsb bs

/-- The bytes whose bits, in consumption order, begin with these: eight bits a byte, padded with zeros
(41_bitcursor.md R159). -/
def packBytes (o : BitOrder) (bits : List Bool) : List Byte :=
  (List.range ((bits.length + 7) / 8)).map fun j =>
    BitVec.ofNat 8 (bitsValue o ((List.range 8).map fun i => bits.getD (8 * j + i) false))

/-- A reader over the packed bytes of a bit string. -/
def packedReader (f : Format) (bits : List Bool) : Reader :=
  { order := f.order, width := f.refill, src := Memory.ofBytes (packBytes f.order bits),
    len := (packBytes f.order bits).length }

/-- Whether tag `tag` stands for kind `k`: every completion of it to three bits selects an entry of that
kind and of the tag's length (43_token_decoder.md R190). -/
def tagIs (f : Format) (k : PfxKind) (tag : List Bool) : Bool :=
  [[false, false], [false, true], [true, false], [true, true]].all fun pad =>
    let i := bitsValue f.order ((tag ++ pad).take 3)
    (tagLen f.tagtab i == tag.length) && (tagKind f.tagtab i == k)

/-- The bit strings a tag can be, in consumption order. -/
def tagCandidates : List (List Bool) :=
  [[false], [true], [false, false], [false, true], [true, false], [true, true],
   [false, false, false], [false, false, true], [false, true, false], [false, true, true],
   [true, false, false], [true, false, true], [true, true, false], [true, true, true]]

/-- A tag of kind `k` under the format's tag table, where it has one. -/
def tagFor (f : Format) (k : PfxKind) : Option (List Bool) := tagCandidates.find? (tagIs f k)

/-- The tag bits an encoder writes for kind `k`. -/
def tagBits (f : Format) (k : PfxKind) : List Bool := (tagFor f k).getD []

/-- The bits of a prefix-controlled token (30_encoding.md R105). -/
def encodePfx (f : Format) : PfxToken → List Bool
  | .lit v => tagBits f .lit ++ fieldBits f.order 8 v.toNat
  | .run2 v => tagBits f .run2 ++ fieldBits f.order 8 v.toNat
  | .run3 v => tagBits f .run3 ++ fieldBits f.order 8 v.toNat
  | .copy o l form =>
    tagBits f .copy ++ fieldBits f.order f.offw o.toNat
      ++ fieldBits f.order f.cntw (inlineField form (2 ^ f.cntw - 1) f.lenbias l.toNat)
      ++ (if form = .explicit then fieldBits f.order 16 l.toNat else [])
  | .term => tagBits f .copy ++ fieldBits f.order f.offw 0

/-- The explicit count bytes, present after the escape code only (30_encoding.md R108). -/
def explicitBytes (form : CountForm) (n : Nat) : List Nat :=
  if form = .explicit then [n % 256, n / 256] else []

/-- The header bytes of a byte-controlled token (30_encoding.md R108, R109). -/
def encodeBytBytes (f : Format) (t : BytToken) : List Nat :=
  bytControl f t :: match t with
    | .term => []
    | .litrun n form => explicitBytes form n.toNat
    | .fillb n form v => explicitBytes form n.toNat ++ [v.toNat]
    | .fillw n form u0 u1 => explicitBytes form n.toNat ++ [u0.toNat, u1.toNat]
    | .copys l form o => explicitBytes form l.toNat ++ [o.toNat]
    | .copyl l form o => explicitBytes form l.toNat ++ [o.toNat % 256, o.toNat / 256]

/-- The bits of a byte-controlled token's header. -/
def encodeByt (f : Format) (t : BytToken) : List Bool :=
  (encodeBytBytes f t).flatMap (fieldBits f.order 8)

/-- The magnitude code `u` of a delta: the inverse of the sign map (46_delta_pixel.md R256). -/
def deltaCode (f : Format) (d : Int) : Nat :=
  if f.signBit then d.natAbs else if 0 ≤ d then 2 * d.natAbs else 2 * d.natAbs - 1

/-- The unary prefix length of a magnitude code: `2^k − 1 ≤ u < 2^(k+1) − 1` (46_delta_pixel.md R255). -/
def prefixLen (u : Nat) : Nat := Nat.log2 (u + 1)

/-- The bits of a delta element (30_encoding.md R111). -/
def encodeElem (f : Format) (x : DeltaElem) : List Bool :=
  let u := deltaCode f x.delta
  fieldBits f.order 2 x.sel.toField ++ List.replicate (prefixLen u) true ++ [false]
    ++ fieldBits f.order (prefixLen u) (u + 1 - 2 ^ prefixLen u)
    ++ (if f.signBit ∧ u ≠ 0 then [decide (x.delta < 0)] else [])

/-- The bits of an alpha pair (30_encoding.md R114). -/
def encodePair (f : Format) (p : AlphaPair) : List Bool :=
  fieldBits f.order 8 p.runm1.toNat ++ fieldBits f.order 8 p.value.toNat

/-- A command word from its opcode and argument (30_encoding.md R101). -/
def cmdWord (op arg : Nat) : Word := BitVec.ofNat 32 (op + 256 * arg)

/-- A micro-operation word from its fields (30_encoding.md R112). -/
def lopWord (op : Nat) (w : LaneWidth) (dst src : Fin 8) : BitVec 16 :=
  BitVec.ofNat 16 (op * 2 ^ 13 + w.toField * 2 ^ 11 + dst.val * 2 ^ 8 + src.val * 2 ^ 5)

/-- A micro-operation's word (48_lane_transform.md R314 to R317). -/
def encodeLop : LaneOp → BitVec 16
  | .stop => 0
  | .add w d s => lopWord 1 w d s
  | .sub w d s => lopWord 2 w d s
  | .xor w d s => lopWord 3 w d s

/-- The encoding of an instruction: a word, or the stream bits of its header under format `f`
(30_encoding.md R101 to R114). -/
def encode (f : Format) : Instr → Encoded
  | .nop => .cmd (cmdWord 0x00 0)
  | .clear => .cmd (cmdWord 0x01 0)
  | .sreset => .cmd (cmdWord 0x02 0)
  | .bcinit o r => .cmd (cmdWord 0x10 (o.toField + 2 * r.toField))
  | .bcpeek n => .cmd (cmdWord 0x11 n.toNat)
  | .bctake n => .cmd (cmdWord 0x12 n.toNat)
  | .bcalign => .cmd (cmdWord 0x13 0)
  | .ocopy => .cmd (cmdWord 0x18 0)
  | .decode v => .cmd (cmdWord 0x20 v.val)
  | .probe => .cmd (cmdWord 0x21 0)
  | .keygen t => .cmd (cmdWord 0x30 (if t = .kt then 0 else 1))
  | .cipher => .cmd (cmdWord 0x31 0)
  | .lane => .cmd (cmdWord 0x32 0)
  | .pfxLit v => .stream (encodePfx f (.lit v))
  | .pfxRun2 v => .stream (encodePfx f (.run2 v))
  | .pfxRun3 v => .stream (encodePfx f (.run3 v))
  | .pfxCopy o l form => .stream (encodePfx f (.copy o l form))
  | .pfxTerm => .stream (encodePfx f .term)
  | .bytTerm => .stream (encodeByt f .term)
  | .bytLitrun n form => .stream (encodeByt f (.litrun n form))
  | .bytFillb n form v => .stream (encodeByt f (.fillb n form v))
  | .bytFillw n form u0 u1 => .stream (encodeByt f (.fillw n form u0 u1))
  | .bytCopys l form o => .stream (encodeByt f (.copys l form o))
  | .bytCopyl l form o => .stream (encodeByt f (.copyl l form o))
  | .dpxElem sel d => .stream (encodeElem f { sel := sel, delta := d })
  | .dpxApair r v => .alpha (encodePair f { runm1 := r, value := v })
  | .lopEnd => .lop (encodeLop .stop)
  | .lopAdd w d s => .lop (encodeLop (.add w d s))
  | .lopSub w d s => .lop (encodeLop (.sub w d s))
  | .lopXor w d s => .lop (encodeLop (.xor w d s))

/-- The first token of a packed bit string, read by the cursor the format sets up (43_token_decoder.md
R181, R190; 44_token_byte.md R210; 46_delta_pixel.md R255). -/
def decodeStream (f : Format) (bits : List Bool) : Except DecodeError Instr :=
  match f.family with
  | .pfx =>
    match (fetchPfx f (packedReader f bits) (BitCursor.fresh f.order f.refill)).1 with
    | .ok t => .ok t.toInstr
    | .error e => .error e
  | .byt => .ok (fetchByt f (packedReader f bits) (BitCursor.fresh f.order f.refill)).1.toInstr
  | .delta =>
    match (fetchElem f (packedReader f bits) (BitCursor.fresh f.order f.refill)).1 with
    | .ok t => .ok t.toInstr
    | .error e => .error e

/-- Decoding in the space the encoding names (30_encoding.md R100: the command chooses the space, never the
data). -/
def decode (f : Format) : Encoded → Except DecodeError Instr
  | .cmd w => decodeCmd w
  | .lop w =>
    match decodeLop w with
    | .ok o => .ok o.toInstr
    | .error e => .error e
  | .stream bits => decodeStream f bits
  | .alpha bits => .ok (fetchPair (packedReader f bits) (BitCursor.fresh f.order f.refill)).1.toInstr

/-- The format's tag table has a tag for the instruction, where it needs one (43_token_decoder.md R190). -/
def tagged (f : Format) : Instr → Bool
  | .pfxLit _ => (tagFor f .lit).isSome
  | .pfxRun2 _ => (tagFor f .run2).isSome
  | .pfxRun3 _ => (tagFor f .run3).isSome
  | .pfxCopy _ _ _ | .pfxTerm => (tagFor f .copy).isSome
  | _ => true

/-- How many bits an encoding takes. -/
def Encoded.size : Encoded → Nat
  | .cmd _ => 32
  | .lop _ => 16
  | .stream bits => bits.length
  | .alpha bits => bits.length

/-! ## Words of the opcode table -/

/-- The reset format of slot 0 with its family replaced: `FMT0 = 0x00081180 + family`
(10_state.md R53, 95_test_vectors.md). -/
def tableFormat (fam : Family) : Format :=
  { family := fam, order := .msb, refill := .w1, offw := 12, cntw := 4, lenbias := 0,
    signBit := false, escEn := true, term := 0, tagtab := 0xB7EE1111 }

/-- The bytes of a table word in stream order: the first byte in bits 7:0, five in all (the longest token
header has 43 bits). -/
def tableBytes (w : Nat) : List Byte := leBytes 6 w

/-- A reader over a table word's bytes, zeros after them. -/
def tableReader (w : Nat) : Reader :=
  { order := .msb, width := .w1, src := Memory.ofBytes (tableBytes w), len := 6 }

/-- The encoding space of a table row, by the row's width: 32 bits a command, 16 a micro-operation, whole
bytes otherwise a byte-controlled token, and an exact bit count of the prefix family that family. DESIGN
CHOICE, notes/assumptions/8.md. -/
inductive TableSpace where
  | cmd
  | lop
  | byt
  | pfx
deriving DecidableEq, Repr

/-- The space of a row of `nbits` bits. -/
def tableSpace (nbits : Nat) : TableSpace :=
  if nbits = 32 then .cmd
  else if nbits = 16 then .lop
  else if nbits % 8 = 0 then .byt
  else .pfx

/-- The instruction the decoder reads from a row's word (notes/assumptions/8.md). -/
def decodeTableWord (nbits w : Nat) : Option Instr :=
  match tableSpace nbits with
  | .cmd => (decodeCmd (BitVec.ofNat 32 w)).toOption
  | .lop => ((decodeLop (BitVec.ofNat 16 w)).toOption).map LaneOp.toInstr
  | .byt => some (fetchByt (tableFormat .byt) (tableReader w) (BitCursor.fresh .msb .w1)).1.toInstr
  | .pfx =>
    ((fetchPfx (tableFormat .pfx) (tableReader w) (BitCursor.fresh .msb .w1)).1.toOption).map
      PfxToken.toInstr

end Sys2Proof
end

