-- ==== Sys2Proof/Machine/State.lean ====
section
/-! DEFINITION. The state of the LCE (10_state.md R20 to R50, 20_memory.md R70), the moves of its host
(40_commands.md R131, R139; 70_reset_and_hazards.md R370), and the state right after reset (R53). -/

namespace Sys2Proof.Machine

/-- The exceptions of 60_exceptions.md R340. -/
inductive Exc where
  | boundsViolation
  | unrecognizedControlCode
  | truncatedInput
  | implausibleResult
  | formatError
  | illegalCommand
deriving DecidableEq, Repr

/-- The stored fields of `STATUS` (10_state.md R26); `BUSY` always reads 0 and `OVR` is computed. -/
structure Status where
  done : Bool
  err : Bool
  early : Bool
  ovalid : Bool
  ecode : BitVec 3
  subcode : BitVec 3
  vused : BitVec 2
deriving DecidableEq, Repr

/-- One access of the host, or the reset input (40_commands.md R131, R139; 70_reset_and_hazards.md R370).
A write of register offset 0x000 writes `CMD`. -/
inductive HostMove where
  | writeReg (offset : BitVec 12) (value : Word)
  | readReg (offset : BitVec 12)
  | writeSrc (index : Word) (value : Byte)
  | readSrc (index : Word)
  | writeOut (index : Word) (value : Byte)
  | readOut (index : Word)
  | reset
deriving DecidableEq, Repr

/-- The state. `host` and `busData` are the model's own: the host moves still to come, first one first
(notes/assumptions/1.md), and what the last host read returned (notes/assumptions/9.md). All else is the
spec's: `cur` holds `CUR_BPOS`, `CUR_CACHE`, `CUR_CBITS`, `CUR_MODE`; `ie` is `CTRL.IE`; `kr[j]` is
`KR(j+1)`; `v[i]` is `Vi`. -/
structure State where
  cmd : Word
  status : Status
  ie : Bool
  srcLen : Word
  outLen : Word
  opos : Word
  cur : BitCursor
  curResult : Word
  ocFrom : Word
  ocTo : Word
  ocLen : Word
  vstate : BitVec 2
  probeCfg : Word
  fmt : Vector Word 4
  tagtab : Vector Word 4
  dpDim : Word
  dpCfg : Word
  seed : Word
  lcgA : Word
  lcgB : Word
  ciphCfg : BitVec 6
  ciphOff : Word
  ciphLen : Word
  ktlen : BitVec 9
  lprog : Vector Word 4
  kr : Vector DWord 7
  kt : Vector Byte 256
  v : Vector DWord 8
  src : Memory
  out : Memory
  host : List HostMove
  busData : Word
deriving DecidableEq, Repr

/-- The machine never stops with a fault: every exception of the spec is a next state (60_exceptions.md
R345), and every `CMD` value has a behaviour (92_eei_decisions.md D36). -/
inductive Fault where
deriving DecidableEq, Repr

/-- Why an instruction is refused. -/
inductive Refusal where
  /-- Raised by exec for an instruction that has no meaning yet; safe. No arm of exec raises it. -/
  | notModelled (mnemonic : String)
deriving DecidableEq, Repr

/-- `STATUS` with every stored field clear (10_state.md R53, 40_commands.md R137). -/
def Status.clear : Status :=
  { done := false, err := false, early := false, ovalid := false, ecode := 0, subcode := 0, vused := 0 }

/-- The machine right after reset (10_state.md R53). The power-up bytes of `SRC` and `OUT` are any value in
the spec: nothing is listed here (notes/assumptions/2.md). -/
def State.reset : State :=
  { cmd := 0
    status := Status.clear
    ie := false
    srcLen := 0
    outLen := 0
    opos := 0
    cur := { bpos := 0, cache := 0, cbits := 0, mode := 0 }
    curResult := 0
    ocFrom := 0
    ocTo := 0
    ocLen := 0
    vstate := 0
    probeCfg := 0x00000001
    fmt := Vector.replicate 4 0x00081180
    tagtab := Vector.replicate 4 0xB7EE1111
    dpDim := 0
    dpCfg := 0x00000001
    seed := 0
    lcgA := 0
    lcgB := 0
    ciphCfg := 0
    ciphOff := 0
    ciphLen := 0
    ktlen := 1
    lprog := Vector.replicate 4 0
    kr := Vector.replicate 7 0
    kt := Vector.replicate 256 0
    v := Vector.replicate 8 0
    src := []
    out := []
    host := []
    busData := 0 }

end Sys2Proof.Machine
end

