-- ==== Sys2Proof/Machine/Flags.lean ====
section
/-! DEFINITION. The flags: `STATUS` as the host reads it, the computed overrun flag, the interrupt output,
and what the start and the end of a command do to the stored flags (10_state.md R26, R54; 40_commands.md
R132, R134; 60_exceptions.md R340, R350). -/

namespace Sys2Proof.Machine

/-- The exception codes (60_exceptions.md R340). -/
def Exc.code : Exc → BitVec 3
  | .boundsViolation => 1
  | .unrecognizedControlCode => 2
  | .truncatedInput => 3
  | .implausibleResult => 4
  | .formatError => 5
  | .illegalCommand => 6

/-- `overrun`, which is `STATUS.OVR`: `8·CUR_BPOS − CUR_CBITS > 8·SRC_LEN` over the integers (10_state.md
R54, 41_bitcursor.md R157). -/
def overrun (s : State) : Bool := decide (bitpos s.cur > 8 * (s.srcLen.toNat : Int))

/-- `STATUS` as the host reads it; `BUSY` and the reserved bits are 0 (10_state.md R26). -/
def statusWord (s : State) : Word :=
  BitVec.ofNat 32
    (s.status.done.toNat * 2 + s.status.err.toNat * 4 + s.status.early.toNat * 8
      + s.status.ovalid.toNat * 16 + (overrun s).toNat * 32 + s.status.ecode.toNat * 2 ^ 8
      + s.status.subcode.toNat * 2 ^ 12 + s.status.vused.toNat * 2 ^ 16)

/-- The interrupt output, `CTRL.IE and STATUS.DONE` at all times (60_exceptions.md R350). -/
def irq (s : State) : Bool := s.ie && s.status.done

/-- The flags the prologue of an accepted command clears (40_commands.md R132). -/
def clearResultFlags (s : State) : State :=
  { s with status := { s.status with done := false, early := false, ovalid := false, vused := 0 } }

/-- The epilogue of a command that finishes without an exception (40_commands.md R134). -/
def finish (s : State) : State := { s with status := { s.status with done := true } }

/-- The epilogue of a command whose result stands in `OUT` (40_commands.md R134, 10_state.md R26). -/
def finishValid (s : State) : State :=
  { s with status := { s.status with done := true, ovalid := true } }

/-- The epilogue of a decode by slot `v` (43_token_decoder.md R180, 45_variant_prober.md R230). -/
def finishDecode (v : BitVec 2) (s : State) : State :=
  { s with status := { s.status with done := true, ovalid := true, vused := v } }

/-- `STATUS.EARLY <- 1` (43_token_decoder.md R197). -/
def setEarly (s : State) : State := { s with status := { s.status with early := true } }

end Sys2Proof.Machine
end

