-- ==== Sys2Proof/Machine/Operands.lean ====
section
/-! DEFINITION. Operand access: the register map with its access classes and reserved bits (10_state.md R21,
R22), the fields of the configuration registers (R36 to R47), and the decoded slot of a decode
(43_token_decoder.md R182, 46_delta_pixel.md R250). -/

namespace Sys2Proof.Machine

/-- The registers of the `REG` space (10_state.md R22); `krLo j` is `KR(j+1)_LO`. -/
inductive Reg where
  | cmd
  | status
  | ctrl
  | srcLen
  | outLen
  | opos
  | curBpos
  | curCache
  | curCbits
  | curMode
  | curResult
  | ocFrom
  | ocTo
  | ocLen
  | vstate
  | probeCfg
  | fmt (v : Fin 4)
  | tagtab (v : Fin 4)
  | dpDim
  | dpCfg
  | seed
  | lcgA
  | lcgB
  | ciphCfg
  | ciphOff
  | ciphLen
  | ktlen
  | lprog (i : Fin 4)
  | krLo (j : Fin 7)
  | krHi (j : Fin 7)
  | kt (w : Fin 64)
  | vLo (i : Fin 8)
  | vHi (i : Fin 8)
deriving DecidableEq, Repr

/-- The register at a byte offset below 0x040. -/
def lowRegAt : Nat → Option Reg
  | 0x000 => some .cmd
  | 0x004 => some .status
  | 0x008 => some .ctrl
  | 0x00C => some .srcLen
  | 0x010 => some .outLen
  | 0x014 => some .opos
  | 0x018 => some .curBpos
  | 0x01C => some .curCache
  | 0x020 => some .curCbits
  | 0x024 => some .curMode
  | 0x028 => some .curResult
  | 0x02C => some .ocFrom
  | 0x030 => some .ocTo
  | 0x034 => some .ocLen
  | 0x038 => some .vstate
  | 0x03C => some .probeCfg
  | _ => none

/-- The register at a byte offset from 0x060 to 0x08F. -/
def midRegAt : Nat → Option Reg
  | 0x060 => some .dpDim
  | 0x064 => some .dpCfg
  | 0x068 => some .seed
  | 0x06C => some .lcgA
  | 0x070 => some .lcgB
  | 0x074 => some .ciphCfg
  | 0x078 => some .ciphOff
  | 0x07C => some .ciphLen
  | 0x080 => some .ktlen
  | _ => none

/-- The register map; an offset it does not list, a multiple of 4 or not, is no register (10_state.md R21,
R22). -/
def regAt (offset : BitVec 12) : Option Reg :=
  let o := offset.toNat
  if o % 4 ≠ 0 then none
  else if o < 0x040 then lowRegAt o
  else if o < 0x050 then some (.fmt (Fin.ofNat 4 ((o - 0x040) / 4)))
  else if o < 0x060 then some (.tagtab (Fin.ofNat 4 ((o - 0x050) / 4)))
  else if o < 0x090 then midRegAt o
  else if o < 0x0A0 then some (.lprog (Fin.ofNat 4 ((o - 0x090) / 4)))
  else if o < 0x0D8 then
    if o % 8 = 0 then some (.krLo (Fin.ofNat 7 ((o - 0x0A0) / 8)))
    else some (.krHi (Fin.ofNat 7 ((o - 0x0A0) / 8)))
  else if o < 0x100 then none
  else if o < 0x200 then some (.kt (Fin.ofNat 64 ((o - 0x100) / 4)))
  else if o < 0x240 then
    if o % 8 = 0 then some (.vLo (Fin.ofNat 8 ((o - 0x200) / 8)))
    else some (.vHi (Fin.ofNat 8 ((o - 0x200) / 8)))
  else none

/-- The bits of `PROBE_CFG` that are not reserved (10_state.md R37). -/
def probeCfgMask : Word := 0x00FFFF37

/-- The bits of `FMTv` that are not reserved (10_state.md R38). -/
def fmtMask : Word := 0xFF0FFFFF

/-- The bits of `DP_CFG` that are not reserved (10_state.md R41). -/
def dpCfgMask : Word := 0x0000FF57

/-- The low half of a 64-bit register. -/
def lowHalf (x : DWord) : Word := x.setWidth 32

/-- The high half of a 64-bit register. -/
def highHalf (x : DWord) : Word := (x >>> 32).setWidth 32

/-- A 64-bit register from its halves. -/
def joinHalves (hi lo : Word) : DWord := (hi.setWidth 64 <<< 32) ||| lo.setWidth 64

/-- Byte `KT[4w+b]` (10_state.md R49). -/
def ktByte (s : State) (w : Fin 64) (b : Fin 4) : Byte := s.kt[4 * w.val + b.val]

/-- What the host reads from a register; reserved bits read 0 (10_state.md R21 to R50). -/
def readReg (s : State) : Reg → Word
  | .cmd => s.cmd
  | .status => statusWord s
  | .ctrl => BitVec.ofNat 32 s.ie.toNat
  | .srcLen => s.srcLen
  | .outLen => s.outLen
  | .opos => s.opos
  | .curBpos => s.cur.bpos
  | .curCache => s.cur.cache
  | .curCbits => s.cur.cbits.setWidth 32
  | .curMode => s.cur.mode.setWidth 32
  | .curResult => s.curResult
  | .ocFrom => s.ocFrom
  | .ocTo => s.ocTo
  | .ocLen => s.ocLen
  | .vstate => s.vstate.setWidth 32
  | .probeCfg => s.probeCfg
  | .fmt v => s.fmt[v]
  | .tagtab v => s.tagtab[v]
  | .dpDim => s.dpDim
  | .dpCfg => s.dpCfg
  | .seed => s.seed
  | .lcgA => s.lcgA
  | .lcgB => s.lcgB
  | .ciphCfg => s.ciphCfg.setWidth 32
  | .ciphOff => s.ciphOff
  | .ciphLen => s.ciphLen
  | .ktlen => s.ktlen.setWidth 32
  | .lprog i => s.lprog[i]
  | .krLo j => lowHalf s.kr[j]
  | .krHi j => highHalf s.kr[j]
  | .kt w => BitVec.ofNat 32 (leValue [ktByte s w 0, ktByte s w 1, ktByte s w 2, ktByte s w 3])
  | .vLo i => lowHalf s.v[i]
  | .vHi i => highHalf s.v[i]

/-- `KTw <- x`: the four bytes of the window (10_state.md R49). -/
def setKtWord (kt : Vector Byte 256) (w : Fin 64) (x : Word) : Vector Byte 256 :=
  (((kt.set (4 * w.val) (x.extractLsb' 0 8)).set (4 * w.val + 1) (x.extractLsb' 8 8)).set
    (4 * w.val + 2) (x.extractLsb' 16 8)).set (4 * w.val + 3) (x.extractLsb' 24 8)

/-- A host write of a register other than `CMD`: a field keeps the low bits, reserved bits stay 0, read-only
registers ignore the write, and an illegal value is held (10_state.md R21, R22). -/
def writeReg (s : State) (r : Reg) (x : Word) : State :=
  match r with
  | .cmd => s
  | .status => s
  | .ctrl => { s with ie := x.getLsbD 0 }
  | .srcLen => { s with srcLen := x }
  | .outLen => { s with outLen := x }
  | .opos => { s with opos := x }
  | .curBpos => { s with cur := { s.cur with bpos := x } }
  | .curCache => { s with cur := { s.cur with cache := x } }
  | .curCbits => { s with cur := { s.cur with cbits := x.setWidth 6 } }
  | .curMode => { s with cur := { s.cur with mode := x.setWidth 3 } }
  | .curResult => s
  | .ocFrom => { s with ocFrom := x }
  | .ocTo => { s with ocTo := x }
  | .ocLen => { s with ocLen := x }
  | .vstate => { s with vstate := x.setWidth 2 }
  | .probeCfg => { s with probeCfg := x &&& probeCfgMask }
  | .fmt v => { s with fmt := s.fmt.set v (x &&& fmtMask) }
  | .tagtab v => { s with tagtab := s.tagtab.set v x }
  | .dpDim => { s with dpDim := x }
  | .dpCfg => { s with dpCfg := x &&& dpCfgMask }
  | .seed => { s with seed := x }
  | .lcgA => { s with lcgA := x }
  | .lcgB => { s with lcgB := x }
  | .ciphCfg => { s with ciphCfg := x.setWidth 6 }
  | .ciphOff => { s with ciphOff := x }
  | .ciphLen => { s with ciphLen := x }
  | .ktlen => { s with ktlen := x.setWidth 9 }
  | .lprog i => { s with lprog := s.lprog.set i x }
  | .krLo j => { s with kr := s.kr.set j (joinHalves (highHalf s.kr[j]) x) }
  | .krHi j => { s with kr := s.kr.set j (joinHalves x (lowHalf s.kr[j])) }
  | .kt w => { s with kt := setKtWord s.kt w x }
  | .vLo _ => s
  | .vHi _ => s

/-! ## Fields -/

/-- `PROBE_CFG.NCAND` (10_state.md R37). -/
def probeCount (s : State) : Nat := field s.probeCfg.toNat 0 3

/-- `PROBE_CFG.PLAUS` (10_state.md R37). -/
def probePlaus (s : State) : Nat := field s.probeCfg.toNat 4 2

/-- `PROBE_CFG.SLACK` (10_state.md R37). -/
def probeSlack (s : State) : Nat := field s.probeCfg.toNat 8 16

/-- `DP_DIM.WIDTH` (10_state.md R40). -/
def dpWidth (s : State) : Nat := field s.dpDim.toNat 0 16

/-- `DP_DIM.HEIGHT` (10_state.md R40). -/
def dpHeight (s : State) : Nat := field s.dpDim.toNat 16 16

/-- `DP_CFG.CHANNELS` (10_state.md R41). -/
def dpChannels (s : State) : Nat := field s.dpCfg.toNat 0 3

/-- `DP_CFG.FLIP` (10_state.md R41). -/
def dpFlip (s : State) : Bool := field s.dpCfg.toNat 4 1 == 1

/-- `DP_CFG.ALPHA_RLE` (10_state.md R41). -/
def dpAlpha (s : State) : Bool := field s.dpCfg.toNat 6 1 == 1

/-- `DP_CFG.REF` (10_state.md R41). -/
def dpRef (s : State) : Byte := BitVec.ofNat 8 (field s.dpCfg.toNat 8 8)

/-- `CIPH_CFG.KSRC` (10_state.md R44). -/
def ciphSource (s : State) : Nat := field s.ciphCfg.toNat 0 2

/-- `CIPH_CFG.LANEW` (10_state.md R44). -/
def ciphLaneField (s : State) : Nat := field s.ciphCfg.toNat 2 2

/-- `CIPH_CFG.COMB` (10_state.md R44). -/
def ciphComb (s : State) : Nat := field s.ciphCfg.toNat 4 2

/-- `LW`, the bytes of a cipher lane: 2, 4 or 8 (47_stream_cipher.md R280). -/
def ciphLaneBytes (s : State) : Nat := 2 ^ (ciphLaneField s + 1)

/-- Micro-program slot `i`: the low half of `LPROG(i div 2)` for an even slot, the high half for an odd one
(10_state.md R47). -/
def lopSlot (s : State) (i : Fin 8) : BitVec 16 :=
  (s.lprog[i.val / 2]'(by omega)).extractLsb' (16 * (i.val % 2)) 16

/-! ## The slot of a decode -/

/-- The geometry checks of a delta slot (46_delta_pixel.md R250). -/
def geometryLegal (s : State) : Bool :=
  decide (1 ≤ dpChannels s) && decide (dpChannels s ≤ 4)
    && (!dpAlpha s || decide (dpChannels s = 4))
    && decide (s.outLen.toNat = dpWidth s * dpHeight s * dpChannels s)

/-- The format of slot `v`, where the slot checks pass (43_token_decoder.md R182). -/
def slotFormat (s : State) (v : Fin 4) : Option Format :=
  match Format.ofRegs s.fmt[v] s.tagtab[v] with
  | none => none
  | some f => if f.family = .delta ∧ geometryLegal s = false then none else some f

/-- What the cursor reads through in a decode under format `f` (43_token_decoder.md R181). -/
def readerFor (f : Format) (s : State) : Reader :=
  { order := f.order, width := f.refill, src := s.src, len := s.srcLen.toNat }

/-- What the cursor commands and a literal payload read through, where `CUR_MODE.REFILL` is legal
(41_bitcursor.md R150, R161). -/
def cursorReader (s : State) : Option Reader :=
  match s.cur.refill? with
  | none => none
  | some w => some { order := s.cur.order, width := w, src := s.src, len := s.srcLen.toNat }

end Sys2Proof.Machine
end

