-- ==== Sys2Proof/Machine/Ops.lean ====
section
/-! DEFINITION. The shared operations: taking an exception and returning from one (60_exceptions.md R345,
R346), the host's moves (40_commands.md R130 to R132), the token actions (43_token_decoder.md R194 to
R197) and the decode loop (R181). -/

namespace Sys2Proof.Machine

/-- The outcome of a step or of a meaning. -/
abbrev Result := Host.Outcome State Fault Refusal

/-! ## Exceptions -/

/-- `raise E` with sub-cause `sub`, the trap entry: only `STATUS` is written (60_exceptions.md R345). -/
def raise (e : Exc) (sub : BitVec 3) (s : State) : State :=
  { s with
    status :=
      { done := true, err := true, early := false, ovalid := false, ecode := e.code
        subcode := if e = .formatError then sub else 0, vused := 0 } }

/-- CLEAR, the return from the trap: every stored field of `STATUS` becomes 0 and nothing else changes
(40_commands.md R137, 60_exceptions.md R346). -/
def clearStatus (s : State) : State := { s with status := Status.clear }

/-- Every register to its reset value; the memories, and the host's side of the bus, stay (10_state.md R53,
40_commands.md R138, 70_reset_and_hazards.md R370). -/
def resetRegisters (s : State) : State :=
  { State.reset with src := s.src, out := s.out, host := s.host, busData := s.busData }

/-- The next state in which a command has ended with `e` (60_exceptions.md R345). -/
def trap (e : Exc) (s : State) : Result := .next (raise e 0 s)

/-! ## Configuration checks -/

/-- `SRC_LEN ≤ MAX_LEN` (40_commands.md R133). -/
def srcLenLegal (s : State) : Bool := decide (s.srcLen.toNat ≤ Config.maxLen)

/-- `OUT_LEN ≤ MAX_LEN` (40_commands.md R133). -/
def outLenLegal (s : State) : Bool := decide (s.outLen.toNat ≤ Config.maxLen)

/-- The bounds rule: `a + n ≤ OUT_LEN` over the integers (20_memory.md R76). -/
def inOut (s : State) (a n : Nat) : Bool := decide (a + n ≤ s.outLen.toNat)

/-! ## The host's moves -/

/-- What the next host move comes to: a state, or an instruction to run in a state. -/
inductive Pending where
  | settled (s : State)
  | run (i : Instr) (s : State)
deriving DecidableEq, Repr

/-- A `CMD` write while `STATUS.ERR = 1`: CLEAR and SRESET are decoded from `w[7:0]` alone, anything else
is refused and only `CMD` changes (40_commands.md R132, 60_exceptions.md R346). -/
def commandUnderError (w : Word) (s : State) : Pending :=
  if field w.toNat 0 8 = 0x01 then .run .clear s
  else if field w.toNat 0 8 = 0x02 then .run .sreset s
  else .settled s

/-- A `CMD` write while `STATUS.ERR = 0`: the result flags go, and an illegal encoding raises
(40_commands.md R132, 30_encoding.md R104). -/
def commandAccepted (w : Word) (s : State) : Pending :=
  match decodeCmd w with
  | .error _ => .settled (raise .illegalCommand 0 (clearResultFlags s))
  | .ok i => .run i (clearResultFlags s)

/-- The prologue of a command (40_commands.md R130, R132). -/
def startCommand (w : Word) (s : State) : Pending :=
  if s.status.err then commandUnderError w { s with cmd := w }
  else commandAccepted w { s with cmd := w }

/-- A host write at a register offset: a write of `CMD` starts a command (10_state.md R21, R25). -/
def hostWriteReg (offset : BitVec 12) (x : Word) (s : State) : Pending :=
  match regAt offset with
  | none => .settled s
  | some .cmd => startCommand x s
  | some r => .settled (writeReg s r x)

/-- A host read at a register offset; an offset the map does not list reads 0 (10_state.md R21). -/
def hostReadReg (offset : BitVec 12) (s : State) : Word :=
  match regAt offset with
  | none => 0
  | some r => readReg s r

/-- One host move (40_commands.md R131, R139; 70_reset_and_hazards.md R370). -/
def hostMove (m : HostMove) (s : State) : Pending :=
  match m with
  | .writeReg o x => hostWriteReg o x s
  | .readReg o => .settled { s with busData := hostReadReg o s }
  | .writeSrc a b => .settled { s with src := s.src.write a.toNat b }
  | .readSrc a => .settled { s with busData := (s.src.read .src a.toNat).setWidth 32 }
  | .writeOut a b => .settled { s with out := s.out.write a.toNat b }
  | .readOut a => .settled { s with busData := (s.out.read .out a.toNat).setWidth 32 }
  | .reset => .settled (resetRegisters s)

/-- The first of the host's pending moves; with none pending the engine waits (70_reset_and_hazards.md
R371, notes/assumptions/12.md). -/
def nextMove (s : State) : Pending :=
  match s.host with
  | [] => .settled s
  | m :: rest => hostMove m { s with host := rest }

/-! ## Token actions -/

/-- How one iteration of a decode loop ends: output was emitted and the loop goes on, the stream ended
early, or the token raised. -/
inductive TokenEnd where
  | emitted (s : State)
  | ended (s : State)
  | raised (e : Exc) (s : State)
deriving DecidableEq, Repr

/-- A token's effect standing alone, as the meaning of its constructor: an exception is taken
(60_exceptions.md R345, notes/assumptions/4.md). -/
def TokenEnd.result : TokenEnd → Result
  | .emitted s => .next s
  | .ended s => .next s
  | .raised e s => trap e s

/-- The overrun rule, applied when the last header field has been consumed and before any other check
(43_token_decoder.md R186, R187; 46_delta_pixel.md R258). -/
def afterHeader (s : State) (t : TokenEnd) : TokenEnd :=
  if overrun s then .raised .truncatedInput s else t

/-- `OUT[OPOS + i] <- b[i]` and `OPOS <- OPOS + n` for bytes already in hand (43_token_decoder.md R194). -/
def emitBytes (bs : List Byte) (s : State) : TokenEnd :=
  if inOut s s.opos.toNat bs.length then
    .emitted { s with
      out := s.out.writeBytes s.opos.toNat bs
      opos := s.opos + BitVec.ofNat 32 bs.length }
  else .raised .boundsViolation s

/-- Execute `Fill(unit, count)`: the unit `count` times over (43_token_decoder.md R195). -/
def emitFill (unit : List Byte) (count : Nat) (s : State) : TokenEnd :=
  if count = 0 then .raised .unrecognizedControlCode s
  else emitBytes (List.replicate count unit).flatten s

/-- `OverlapCopy(from, to, len)`: its two checks, then the byte by byte copy; `none` is BoundsViolation
(42_overlapcopy.md R170, R171). -/
def overlapCopy (s : State) (src dst len : Nat) : Option Memory :=
  if dst ≤ src then none
  else if inOut s dst len then some (s.out.copyUp src dst len)
  else none

/-- Execute `Copy(offset, length)` (43_token_decoder.md R196). -/
def emitCopy (offset length : Nat) (s : State) : TokenEnd :=
  if length = 0 then .raised .unrecognizedControlCode s
  else if offset = 0 ∨ s.opos.toNat < offset then .raised .boundsViolation s
  else match overlapCopy s (s.opos.toNat - offset) s.opos.toNat length with
    | none => .raised .boundsViolation s
    | some m => .emitted { s with out := m, opos := s.opos + BitVec.ofNat 32 length }

/-! ## The decode loop -/

/-- How a decode ends (43_token_decoder.md R181). -/
inductive DecodeEnd where
  | done (s : State)
  | raised (e : Exc) (s : State)
deriving DecidableEq, Repr

/-- Iterate `body` while `more` holds; the fuel bounds the iterations, each of which emits at least one
byte or leaves the loop (40_commands.md R135, notes/assumptions/10.md). -/
def decodeLoop (more : State → Bool) (body : State → TokenEnd) : Nat → State → DecodeEnd
  | 0, s => .done s
  | n + 1, s =>
    if more s then
      match body s with
      | .emitted s' => decodeLoop more body n s'
      | .ended s' => .done s'
      | .raised e s' => .raised e s'
    else .done s

/-- Iterations that suffice for a decode into `OUT_LEN` bytes (40_commands.md R135). -/
def decodeFuel (s : State) : Nat := s.outLen.toNat + 1

/-- The cursor registers after a fetch. -/
def withCursor (s : State) (c : BitCursor) : State := { s with cur := c }

/-- A code with no meaning: `TruncatedInput` if reading it overran, `UnrecognizedControlCode` otherwise
(43_token_decoder.md R203, 46_delta_pixel.md R255). -/
def undefinedCode (s : State) : TokenEnd :=
  afterHeader s (.raised .unrecognizedControlCode s)

/-! ## A table word placed where the next step runs it -/

/-- Bytes of output the token emits where it succeeds; at least 1, so that the decode loop fetches it. -/
def emitSize : Instr → Nat
  | .pfxRun2 _ => 2
  | .pfxRun3 _ => 3
  | .pfxCopy _ l _ => max 1 l.toNat
  | .bytLitrun n _ => max 1 n.toNat
  | .bytFillb n _ _ => max 1 n.toNat
  | .bytFillw n _ _ _ => max 1 (2 * n.toNat)
  | .bytCopys l _ _ => max 1 l.toNat
  | .bytCopyl l _ _ => max 1 l.toNat
  | _ => 1

/-- The word `w` as the next host move's `CMD` write, not refused by a sticky error. -/
def placeCommand (w : Word) (s : State) : State :=
  { s with host := .writeReg 0x000 w :: s.host, status := { s.status with err := false } }

/-- A micro-operation as the whole program of a LANE command over one block of zeros. -/
def placeMicroOp (w : BitVec 16) (s : State) : State :=
  placeCommand 0x00000032
    { s with
      lprog := (Vector.replicate 4 0).set 0 (w.setWidth 32)
      ciphOff := 0
      ciphLen := 8
      outLen := 8
      out := s.out.zeroFill 8 }

/-- Bytes of output that the token of a table word emits. -/
def placedSize (nbits w : Nat) : Nat := ((decodeTableWord nbits w).map emitSize).getD 1

/-- A table word's bytes with the zeros above it, as many as the payload of the longest token of its size. -/
def placedBytes (nbits w : Nat) : List Byte := tableBytes w ++ List.replicate (placedSize nbits w) 0

/-- A token as the first of `SRC`, under the reset format of its family in slot 0 with the word `fmt`, and an
output buffer that this one token fills. -/
def placeToken (fmt : Word) (nbits w : Nat) (s : State) : State :=
  placeCommand 0x00000020
    { s with
      src := s.src.writeBytes 0 (placedBytes nbits w)
      srcLen := BitVec.ofNat 32 (placedBytes nbits w).length
      outLen := BitVec.ofNat 32 (placedSize nbits w)
      fmt := s.fmt.set 0 fmt
      tagtab := s.tagtab.set 0 0xB7EE1111 }

/-- A table word stored where the next step fetches and runs it (notes/assumptions/8.md). -/
def placeWord (nbits w : Nat) (s : State) : State :=
  match tableSpace nbits with
  | .cmd => placeCommand (BitVec.ofNat 32 w) s
  | .lop => placeMicroOp (BitVec.ofNat 16 w) s
  | .byt => placeToken 0x00081181 nbits w s
  | .pfx => placeToken 0x00081180 nbits w s

end Sys2Proof.Machine
end

