-- ==== Sys2Proof/Machine/Cipher.lean ====
section
/-! DEFINITION. The key streams, CIPHER and KEYGEN (47_stream_cipher.md). The generators are local to a
command (10_state.md R51). -/

namespace Sys2Proof.Machine

/-! ## Generators -/

/-- `n` outputs of the LCG from `k`: update, then output (47_stream_cipher.md R285). -/
def lcgWords (a b : Word) : Nat → Word → List Word
  | 0, _ => []
  | n + 1, k => (k * a + b) :: lcgWords a b n (k * a + b)

/-- The Mersenne state: `mt[0..623]` and `mti` (47_stream_cipher.md R286). -/
structure MtState where
  mt : List Word
  mti : Nat
deriving DecidableEq, Repr

/-- `mt[i], mt[i+1], ..` from `mt[i-1]`, `n` words (47_stream_cipher.md R286). -/
def mtSeedFrom : (n i : Nat) → Word → List Word
  | 0, _, _ => []
  | n + 1, i, prev =>
    let w := Config.mtInitMult * (prev ^^^ prev.sshiftRight 30) + BitVec.ofNat 32 i
    w :: mtSeedFrom n (i + 1) w

/-- `init` (47_stream_cipher.md R286). -/
def mtInit (seed : Word) : MtState :=
  { mt := seed :: mtSeedFrom (Config.mtN - 1) 1 seed, mti := Config.mtN }

/-- One entry of the regeneration, in place (47_stream_cipher.md R286). -/
def mtTwist (mt : List Word) (k : Nat) : List Word :=
  let y := (mt.getD k 0 &&& Config.mtUpper) ||| (mt.getD ((k + 1) % Config.mtN) 0 &&& Config.mtLower)
  mt.set k (mt.getD ((k + Config.mtM) % Config.mtN) 0 ^^^ y.sshiftRight 1
    ^^^ (if y.getLsbD 0 then Config.mtMatrixA else 0))

/-- The regeneration, `k` ascending (47_stream_cipher.md R286). -/
def mtRegenerate (mt : List Word) : List Word := (List.range Config.mtN).foldl mtTwist mt

/-- The tempering, with arithmetic right shifts (47_stream_cipher.md R286). -/
def mtTemper (y : Word) : Word :=
  let y := y ^^^ y.sshiftRight 11
  let y := y ^^^ ((y <<< 7) &&& 0x9D2C5680)
  let y := y ^^^ ((y <<< 15) &&& 0xEFC60000)
  y ^^^ y.sshiftRight 18

/-- The state `next` reads its word from: regenerated when the index has reached 624
(47_stream_cipher.md R286). -/
def mtReady (g : MtState) : MtState :=
  if g.mti = Config.mtN then { mt := mtRegenerate g.mt, mti := 0 } else g

/-- `n` outputs of the Mersenne generator (47_stream_cipher.md R286). -/
def mtWords : Nat → MtState → List Word
  | 0, _ => []
  | n + 1, g =>
    let g := mtReady g
    mtTemper (g.mt.getD g.mti 0) :: mtWords n { g with mti := g.mti + 1 }

/-- The bytes of a word sequence, low byte of each word first (47_stream_cipher.md R283). -/
def wordBytes (ws : List Word) : List Byte := ws.flatMap fun w => leBytes 4 w.toNat

/-- The first `n` bytes of the key stream, from the start in every command (47_stream_cipher.md R283, R285
to R288). -/
def keyBytes (s : State) (n : Nat) : List Byte :=
  match ciphSource s with
  | 0 => (wordBytes (lcgWords s.lcgA s.lcgB ((n + 3) / 4) s.seed)).take n
  | 1 => (wordBytes (mtWords ((n + 3) / 4) (mtInit s.seed))).take n
  | _ => (List.range n).map fun i => s.kt[Fin.ofNat 256 (i % s.ktlen.toNat)]

/-! ## CIPHER -/

/-- A data lane combined with a key lane of `lw` bytes (47_stream_cipher.md R280). -/
def combine (comb lw d k : Nat) : Nat :=
  match comb with
  | 0 => d ^^^ k
  | 1 => (d + k) % 2 ^ (8 * lw)
  | _ => (d + (2 ^ (8 * lw) - k)) % 2 ^ (8 * lw)

/-- `n` lanes from index `a` up, the key bytes in order (47_stream_cipher.md R280, R282, R283). -/
def cipherLanes (comb lw : Nat) : (n a : Nat) → List Byte → Memory → Memory
  | 0, _, _, m => m
  | n + 1, a, ks, m =>
    cipherLanes comb lw n (a + lw) (ks.drop lw)
      (m.writeLE a lw (combine comb lw (m.readLE .out a lw) (leValue (ks.take lw))))

/-- `KTLEN` in 1..256 (10_state.md R46). -/
def ktlenLegal (s : State) : Bool := decide (1 ≤ s.ktlen.toNat) && decide (s.ktlen.toNat ≤ 256)

/-- The configuration checks of CIPHER (47_stream_cipher.md R280). -/
def cipherLegal (s : State) : Bool :=
  outLenLegal s && decide (ciphSource s ≠ 3) && decide (ciphLaneField s ≠ 3) && decide (ciphComb s ≠ 3)
    && (decide (ciphSource s ≠ 2) || ktlenLegal s)

/-- `OUT` after CIPHER: whole lanes only, the tail untouched (47_stream_cipher.md R280, R284). -/
def cipherOut (s : State) : Memory :=
  let lw := ciphLaneBytes s
  let n := s.ciphLen.toNat / lw
  cipherLanes (ciphComb s) lw n s.ciphOff.toNat (keyBytes s (n * lw)) s.out

/-- CIPHER (47_stream_cipher.md R280). -/
def execCipher (s : State) : Result :=
  if cipherLegal s then
    if inOut s s.ciphOff.toNat s.ciphLen.toNat then .next (finishValid { s with out := cipherOut s })
    else trap .boundsViolation s
  else trap .illegalCommand s

/-! ## KEYGEN -/

/-- Bytes into the key table from index `i` up (47_stream_cipher.md R300). -/
def fillKt : List Byte → Nat → Vector Byte 256 → Vector Byte 256
  | [], _, kt => kt
  | b :: bs, i, kt => fillKt bs (i + 1) (kt.setIfInBounds i b)

/-- Word pairs into the key registers from index `j` up, low word first (47_stream_cipher.md R300). -/
def fillKr : List Word → Nat → Vector DWord 7 → Vector DWord 7
  | lo :: hi :: ws, j, kr => fillKr ws (j + 1) (kr.setIfInBounds j (joinHalves hi lo))
  | _, _, kr => kr

/-- `KEYGEN kt` (47_stream_cipher.md R300). -/
def keygenTable (s : State) : Result :=
  if ktlenLegal s then
    .next (finish { s with
      kt := fillKt
        ((wordBytes (lcgWords s.lcgA s.lcgB ((s.ktlen.toNat + 3) / 4) s.seed)).take s.ktlen.toNat) 0 s.kt })
  else trap .illegalCommand s

/-- `KEYGEN kr` (47_stream_cipher.md R300). -/
def keygenRegisters (s : State) : Result :=
  .next (finish { s with kr := fillKr (lcgWords s.lcgA s.lcgB 14 s.seed) 0 s.kr })

/-- KEYGEN (47_stream_cipher.md R300). -/
def execKeygen (target : KeyTarget) (s : State) : Result :=
  match target with
  | .kt => keygenTable s
  | .kr => keygenRegisters s

end Sys2Proof.Machine
end

