-- ==== Sys2Proof/Machine/CursorCommands.lean ====
section
/-! DEFINITION. BCINIT, BCPEEK, BCTAKE and BCALIGN (41_bitcursor.md R160 to R163). -/

namespace Sys2Proof.Machine

/-- BCINIT: a new cursor at the start of `SRC` (41_bitcursor.md R160). -/
def execBcinit (order : BitOrder) (refill : RefillWidth) (s : State) : Result :=
  .next (finish { s with cur := BitCursor.fresh order refill })

/-- `CUR_CBITS ≤ 32` (10_state.md R32). -/
def cbitsLegal (s : State) : Bool := decide (s.cur.cbits.toNat ≤ 32)

/-- What BCPEEK and BCTAKE read through, where their checks pass: `n ≤ 32`, `CUR_CBITS ≤ 32`,
`REFILL ≠ 3`, `SRC_LEN ≤ MAX_LEN` (41_bitcursor.md R161, R162). -/
def bitReader (n : BitVec 6) (s : State) : Option Reader :=
  if n.toNat ≤ 32 ∧ cbitsLegal s ∧ srcLenLegal s then cursorReader s else none

/-- BCPEEK (41_bitcursor.md R161). -/
def execBcpeek (n : BitVec 6) (s : State) : Result :=
  match bitReader n s with
  | none => trap .illegalCommand s
  | some e => .next (finish { s with curResult := BitVec.ofNat 32 (peek e n.toNat s.cur) })

/-- BCTAKE (41_bitcursor.md R162). -/
def execBctake (n : BitVec 6) (s : State) : Result :=
  match bitReader n s with
  | none => trap .illegalCommand s
  | some e =>
    .next (finish { s with
      curResult := BitVec.ofNat 32 (take e n.toNat s.cur).1
      cur := (take e n.toNat s.cur).2 })

/-- BCALIGN (41_bitcursor.md R163). -/
def execBcalign (s : State) : Result :=
  if cbitsLegal s ∧ s.cur.refill?.isSome then .next (finish { s with cur := alignByte s.cur })
  else trap .illegalCommand s

end Sys2Proof.Machine
end

