-- ==== Sys2Proof/Machine/ByteTokens.lean ====
section
/-! DEFINITION. The byte-controlled tokens (44_token_byte.md R211 to R218): what each does once its header
has been fetched, and one iteration of the decode loop over them (R210). -/

namespace Sys2Proof.Machine

/-- `n` times `take(8)` (44_token_byte.md R214). -/
def takeBytes (e : Reader) : Nat → BitCursor → List Byte × BitCursor
  | 0, c => ([], c)
  | n + 1, c =>
    let r := takeBytes e n (take e 8 c).2
    (BitVec.ofNat 8 (take e 8 c).1 :: r.1, r.2)

/-- The payload of a literal run lies wholly inside `SRC` (44_token_byte.md R214). -/
def payloadPresent (s : State) (n : Nat) : Bool :=
  decide (bitpos s.cur + 8 * (n : Int) ≤ 8 * (s.srcLen.toNat : Int))

/-- The payload copied to the output (44_token_byte.md R214). Inside a decode `REFILL` is legal; elsewhere
the reserved width raises: notes/assumptions/7.md. -/
def emitPayload (n : Nat) (s : State) : TokenEnd :=
  match cursorReader s with
  | none => .raised .illegalCommand s
  | some e => emitBytes (takeBytes e n s.cur).1 (withCursor s (takeBytes e n s.cur).2)

/-- TERM (44_token_byte.md R211, 43_token_decoder.md R197). -/
def bytTerm (s : State) : TokenEnd := .ended (setEarly s)

/-- LITRUN (44_token_byte.md R214). -/
def bytLitrun (count : BitVec 16) (s : State) : TokenEnd :=
  afterHeader s <|
    if count = 0 then .raised .unrecognizedControlCode s
    else if inOut s s.opos.toNat count.toNat then
      if payloadPresent s count.toNat then emitPayload count.toNat s
      else .raised .truncatedInput s
    else .raised .boundsViolation s

/-- FILLB (44_token_byte.md R215). -/
def bytFillb (count : BitVec 16) (value : Byte) (s : State) : TokenEnd :=
  afterHeader s (emitFill [value] count.toNat s)

/-- FILLW: the count is in two-byte words (44_token_byte.md R216). -/
def bytFillw (count : BitVec 16) (u0 u1 : Byte) (s : State) : TokenEnd :=
  afterHeader s (emitFill [u0, u1] count.toNat s)

/-- COPYS (44_token_byte.md R217). -/
def bytCopys (length : BitVec 16) (offset : Byte) (s : State) : TokenEnd :=
  afterHeader s (emitCopy offset.toNat length.toNat s)

/-- COPYL (44_token_byte.md R218). -/
def bytCopyl (length offset : BitVec 16) (s : State) : TokenEnd :=
  afterHeader s (emitCopy offset.toNat length.toNat s)

/-- The token's action (44_token_byte.md R210). -/
def bytRun (t : BytToken) (s : State) : TokenEnd :=
  match t with
  | .term => bytTerm s
  | .litrun n _ => bytLitrun n s
  | .fillb n _ v => bytFillb n v s
  | .fillw n _ u0 u1 => bytFillw n u0 u1 s
  | .copys l _ o => bytCopys l o s
  | .copyl l _ o => bytCopyl l o s

/-- What a fetch led to. -/
def bytFetched (r : BytToken × BitCursor) (s : State) : TokenEnd := bytRun r.1 (withCursor s r.2)

/-- One iteration of the loop for `FAMILY = 1` (43_token_decoder.md R181, 44_token_byte.md R210). -/
def bytStep (f : Format) (s : State) : TokenEnd := bytFetched (fetchByt f (readerFor f s) s.cur) s

/-- The meaning of `BYT.TERM` (44_token_byte.md R211). -/
def execBytTerm (s : State) : Result := (bytTerm s).result

/-- The meaning of `BYT.LITRUN` (44_token_byte.md R214). -/
def execBytLitrun (count : BitVec 16) (s : State) : Result := (bytLitrun count s).result

/-- The meaning of `BYT.FILLB` (44_token_byte.md R215). -/
def execBytFillb (count : BitVec 16) (value : Byte) (s : State) : Result := (bytFillb count value s).result

/-- The meaning of `BYT.FILLW` (44_token_byte.md R216). -/
def execBytFillw (count : BitVec 16) (u0 u1 : Byte) (s : State) : Result := (bytFillw count u0 u1 s).result

/-- The meaning of `BYT.COPYS` (44_token_byte.md R217). -/
def execBytCopys (length : BitVec 16) (offset : Byte) (s : State) : Result :=
  (bytCopys length offset s).result

/-- The meaning of `BYT.COPYL` (44_token_byte.md R218). -/
def execBytCopyl (length offset : BitVec 16) (s : State) : Result := (bytCopyl length offset s).result

end Sys2Proof.Machine
end

