-- ==== Sys2Proof/Machine/Delta.lean ====
section
/-! DEFINITION. The delta-pixel reconstructor (46_delta_pixel.md): delta elements, alpha pairs, and the two
passes of a DELTA decode. The scan position is read from `OPOS`, which counts the samples written (R252):
notes/assumptions/5.md. -/

namespace Sys2Proof.Machine

/-- `NCOL`, the delta-coded channels of a pixel (46_delta_pixel.md R251). -/
def deltaColumns (s : State) : Nat := if dpAlpha s then 3 else dpChannels s

/-- `T = W · H`, the pixels of the image (46_delta_pixel.md R260). -/
def pixelCount (s : State) : Nat := dpWidth s * dpHeight s

/-- `Addr(r, x, c)` (46_delta_pixel.md R252). -/
def sampleAddr (s : State) (r x c : Nat) : Nat :=
  ((if dpFlip s then dpHeight s - 1 - r else r) * dpWidth s + x) * dpChannels s + c

/-- The channel of the next element: `OPOS` counts whole pixels of `NCOL` samples (46_delta_pixel.md R251). -/
def scanChannel (s : State) : Nat := s.opos.toNat % deltaColumns s

/-- The column of the next element (46_delta_pixel.md R251). -/
def scanColumn (s : State) : Nat := s.opos.toNat / deltaColumns s % dpWidth s

/-- The scan row of the next element (46_delta_pixel.md R251). -/
def scanRow (s : State) : Nat := s.opos.toNat / deltaColumns s / dpWidth s

/-- `Predictor(sel, r, x, c)`; a neighbour outside the image reads as `REF` (46_delta_pixel.md R253). -/
def predict (s : State) (sel : Predictor) (r x c : Nat) : Byte :=
  match sel with
  | .left => if x = 0 then dpRef s else s.out.read .out (sampleAddr s r (x - 1) c)
  | .up => if r = 0 then dpRef s else s.out.read .out (sampleAddr s (r - 1) x c)
  | .upLeft => if r = 0 ∨ x = 0 then dpRef s else s.out.read .out (sampleAddr s (r - 1) (x - 1) c)
  | .ref => dpRef s

/-- `(p + d) mod 256` (46_delta_pixel.md R257). -/
def reconstruct (p : Byte) (d : Int) : Byte := BitVec.ofInt 8 ((p.toNat : Int) + d)

/-- The address the next element's sample goes to. -/
def elemAddr (s : State) : Nat := sampleAddr s (scanRow s) (scanColumn s) (scanChannel s)

/-- A delta element: one sample written (46_delta_pixel.md R251, R257, R258). The bounds rule of R76 stands
before the write; inside a decode it always holds (notes/assumptions/6.md). -/
def dpxElem (sel : Predictor) (delta : Int) (s : State) : TokenEnd :=
  afterHeader s <|
    if inOut s (elemAddr s) 1 then
      .emitted { s with
        out := s.out.write (elemAddr s)
          (reconstruct (predict s sel (scanRow s) (scanColumn s) (scanChannel s)) delta)
        opos := s.opos + 1 }
    else .raised .boundsViolation s

/-- The address of alpha sample `q`, counted in scan order (46_delta_pixel.md R260). -/
def alphaAddr (s : State) (q : Nat) : Nat := sampleAddr s (q / dpWidth s) (q % dpWidth s) 3

/-- Pixels whose alpha is already written: `OPOS` less the colour samples (46_delta_pixel.md R260). -/
def alphaDone (s : State) : Nat := s.opos.toNat - 3 * pixelCount s

/-- `val` into the alpha of pixels `q`, `q+1`, .. (46_delta_pixel.md R260). -/
def writeAlpha (s : State) (val : Byte) : (q run : Nat) → Memory → Memory
  | _, 0, m => m
  | q, run + 1, m => writeAlpha s val (q + 1) run (m.write (alphaAddr s q) val)

/-- Every byte of the run lies in `OUT` (20_memory.md R76). -/
def alphaInOut (s : State) (q run : Nat) : Bool :=
  (List.range run).all fun i => inOut s (alphaAddr s (q + i)) 1

/-- An alpha pair (46_delta_pixel.md R260); the bounds rule of R76 as for an element
(notes/assumptions/6.md). -/
def dpxApair (runm1 value : Byte) (s : State) : TokenEnd :=
  afterHeader s <|
    if alphaDone s + (runm1.toNat + 1) ≤ pixelCount s ∧ alphaInOut s (alphaDone s) (runm1.toNat + 1) then
      .emitted { s with
        out := writeAlpha s value (alphaDone s) (runm1.toNat + 1) s.out
        opos := s.opos + BitVec.ofNat 32 (runm1.toNat + 1) }
    else .raised .boundsViolation s

/-- What a fetch of an element led to. -/
def elemFetched (r : Except DecodeError DeltaElem × BitCursor) (s : State) : TokenEnd :=
  match r.1 with
  | .error _ => undefinedCode (withCursor s r.2)
  | .ok x => dpxElem x.sel x.delta (withCursor s r.2)

/-- One iteration of the delta pass (46_delta_pixel.md R251, R255). -/
def elemStep (f : Format) (s : State) : TokenEnd := elemFetched (fetchElem f (readerFor f s) s.cur) s

/-- What a fetch of an alpha pair led to. -/
def pairFetched (r : AlphaPair × BitCursor) (s : State) : TokenEnd :=
  dpxApair r.1.runm1 r.1.value (withCursor s r.2)

/-- One iteration of the alpha pass (46_delta_pixel.md R260). -/
def pairStep (f : Format) (s : State) : TokenEnd := pairFetched (fetchPair (readerFor f s) s.cur) s

/-- Elements are left to decode (46_delta_pixel.md R251). -/
def moreElems (s : State) : Bool := decide (s.opos.toNat < pixelCount s * deltaColumns s)

/-- Alpha samples are left to decode (46_delta_pixel.md R260). -/
def morePairs (s : State) : Bool := decide (alphaDone s < pixelCount s)

/-- `AlphaPass()` (46_delta_pixel.md R260). -/
def alphaPass (f : Format) (s : State) : DecodeEnd :=
  decodeLoop morePairs (pairStep f) (decodeFuel s) (withCursor s (alignByte s.cur))

/-- `DeltaDecode(f)` (46_delta_pixel.md R251). -/
def deltaDecode (f : Format) (s : State) : DecodeEnd :=
  match decodeLoop moreElems (elemStep f) (decodeFuel s) s with
  | .raised e s' => .raised e s'
  | .done s' => if dpAlpha s' then alphaPass f s' else .done s'

/-- The meaning of `DPX.ELEM` (46_delta_pixel.md R255). -/
def execDpxElem (sel : Predictor) (delta : Int) (s : State) : Result := (dpxElem sel delta s).result

/-- The meaning of `DPX.APAIR` (46_delta_pixel.md R260). -/
def execDpxApair (runm1 value : Byte) (s : State) : Result := (dpxApair runm1 value s).result

end Sys2Proof.Machine
end

