-- ==== Sys2Proof/Machine/Prefix.lean ====
section
/-! DEFINITION. The prefix-controlled tokens (43_token_decoder.md R197 to R203): what each does once its
header has been fetched, and one iteration of the decode loop over them (R190). -/

namespace Sys2Proof.Machine

/-- LIT: one literal byte (43_token_decoder.md R198). -/
def pfxLit (value : Byte) (s : State) : TokenEnd := afterHeader s (emitBytes [value] s)

/-- RUN2: the value twice (43_token_decoder.md R199). -/
def pfxRun2 (value : Byte) (s : State) : TokenEnd := afterHeader s (emitFill [value] 2 s)

/-- RUN3: the value three times (43_token_decoder.md R200). -/
def pfxRun3 (value : Byte) (s : State) : TokenEnd := afterHeader s (emitFill [value] 3 s)

/-- COPY (43_token_decoder.md R201). -/
def pfxCopy (offset length : BitVec 16) (s : State) : TokenEnd :=
  afterHeader s (emitCopy offset.toNat length.toNat s)

/-- TERM, benign even when read from zero-fill (43_token_decoder.md R202, R186, R197). -/
def pfxTerm (s : State) : TokenEnd := .ended (setEarly s)

/-- The token's action (43_token_decoder.md R190). -/
def pfxRun (t : PfxToken) (s : State) : TokenEnd :=
  match t with
  | .lit v => pfxLit v s
  | .run2 v => pfxRun2 v s
  | .run3 v => pfxRun3 v s
  | .copy o l _ => pfxCopy o l s
  | .term => pfxTerm s

/-- What a fetch led to. -/
def pfxFetched (r : Except DecodeError PfxToken × BitCursor) (s : State) : TokenEnd :=
  match r.1 with
  | .error _ => undefinedCode (withCursor s r.2)
  | .ok t => pfxRun t (withCursor s r.2)

/-- One iteration of the loop for `FAMILY = 0` (43_token_decoder.md R181, R185, R190). -/
def pfxStep (f : Format) (s : State) : TokenEnd := pfxFetched (fetchPfx f (readerFor f s) s.cur) s

/-- The meaning of `PFX.LIT` (43_token_decoder.md R198). -/
def execPfxLit (value : Byte) (s : State) : Result := (pfxLit value s).result

/-- The meaning of `PFX.RUN2` (43_token_decoder.md R199). -/
def execPfxRun2 (value : Byte) (s : State) : Result := (pfxRun2 value s).result

/-- The meaning of `PFX.RUN3` (43_token_decoder.md R200). -/
def execPfxRun3 (value : Byte) (s : State) : Result := (pfxRun3 value s).result

/-- The meaning of `PFX.COPY` (43_token_decoder.md R201). -/
def execPfxCopy (offset length : BitVec 16) (s : State) : Result := (pfxCopy offset length s).result

/-- The meaning of `PFX.TERM` (43_token_decoder.md R202). -/
def execPfxTerm (s : State) : Result := (pfxTerm s).result

end Sys2Proof.Machine
end

