-- ==== Sys2Proof/Machine/Decoder.lean ====
section
/-! DEFINITION. `Decode(v)` and the DECODE command (43_token_decoder.md R180, R181). -/

namespace Sys2Proof.Machine

/-- The start of a decode: a new cursor, `OPOS` and `EARLY` 0, `OUT` zeroed (43_token_decoder.md R181,
20_memory.md R84). -/
def startDecode (f : Format) (s : State) : State :=
  { s with
    cur := BitCursor.fresh f.order f.refill
    opos := 0
    out := s.out.zeroFill s.outLen.toNat
    status := { s.status with early := false } }

/-- The buffer is not full (43_token_decoder.md R181). -/
def moreOutput (s : State) : Bool := decide (s.opos.toNat < s.outLen.toNat)

/-- The decode of a started state by family (43_token_decoder.md R181). -/
def runFamily (f : Format) (s : State) : DecodeEnd :=
  match f.family with
  | .pfx => decodeLoop moreOutput (pfxStep f) (decodeFuel s) s
  | .byt => decodeLoop moreOutput (bytStep f) (decodeFuel s) s
  | .delta => deltaDecode f s

/-- `Decode(v)` (43_token_decoder.md R181): the slot check comes before any state changes. -/
def decodeSlot (v : Fin 4) (s : State) : DecodeEnd :=
  match slotFormat s v with
  | none => .raised .illegalCommand s
  | some f => runFamily f (startDecode f s)

/-- The end of a DECODE (43_token_decoder.md R180, 60_exceptions.md R345). -/
def decodeResult (v : Fin 4) (r : DecodeEnd) : Result :=
  match r with
  | .done s => .next (finishDecode (BitVec.ofNat 2 v.val) s)
  | .raised e s => trap e s

/-- DECODE (43_token_decoder.md R180). -/
def execDecode (v : Fin 4) (s : State) : Result :=
  if srcLenLegal s ∧ outLenLegal s then decodeResult v (decodeSlot v s)
  else trap .illegalCommand s

end Sys2Proof.Machine
end

