-- ==== Sys2Proof/Machine/Housekeeping.lean ====
section
/-! DEFINITION. NOP, CLEAR and SRESET (40_commands.md R136 to R138). Each meaning starts from the state the
prologue left (R132). -/

namespace Sys2Proof.Machine

/-- NOP: nothing beyond the epilogue (40_commands.md R136). -/
def execNop (s : State) : Result := .next (finish s)

/-- CLEAR (40_commands.md R137). -/
def execClear (s : State) : Result := .next (clearStatus s)

/-- SRESET (40_commands.md R138). -/
def execSreset (s : State) : Result := .next (resetRegisters s)

end Sys2Proof.Machine
end

