-- ==== Sys2Proof/Machine/Lanes.lean ====
section
/-! DEFINITION. The SIMD-lane transform: the micro-operations and the LANE command (48_lane_transform.md). -/

namespace Sys2Proof.Machine

/-! ## Micro-operations -/

/-- Lane `l` of `x` at width `w` (48_lane_transform.md R311). -/
def laneOf (w : LaneWidth) (x : DWord) (l : Nat) : Nat := field x.toNat (w.bits * l) w.bits

/-- Lanes packed with lane 0 in the low bits (48_lane_transform.md R311). -/
def packLanes (w : LaneWidth) : List Nat → Nat
  | [] => 0
  | l :: ls => l % 2 ^ w.bits + 2 ^ w.bits * packLanes w ls

/-- `f` on each pair of lanes, wrapping inside the lane (48_lane_transform.md R315, R316). -/
def laneMap (w : LaneWidth) (f : Nat → Nat → Nat) (x y : DWord) : DWord :=
  BitVec.ofNat 64 (packLanes w ((List.range (64 / w.bits)).map fun l => f (laneOf w x l) (laneOf w y l)))

/-- `ADD.w` on two registers (48_lane_transform.md R315). -/
def addLanes (w : LaneWidth) (x y : DWord) : DWord := laneMap w (fun a b => a + b) x y

/-- `SUB.w` on two registers (48_lane_transform.md R316). -/
def subLanes (w : LaneWidth) (x y : DWord) : DWord := laneMap w (fun a b => a + (2 ^ w.bits - b)) x y

/-- The vector registers after a micro-operation; both operands are read before `Vd` is written
(48_lane_transform.md R314 to R317). -/
def lopApply (o : LaneOp) (v : Vector DWord 8) : Vector DWord 8 :=
  match o with
  | .stop => v
  | .add w d r => v.set d (addLanes w v[d] v[r])
  | .sub w d r => v.set d (subLanes w v[d] v[r])
  | .xor _ d r => v.set d (v[d] ^^^ v[r])

/-- The meaning of END: no register changes (48_lane_transform.md R314). -/
def execLopEnd (s : State) : Result := .next { s with v := lopApply .stop s.v }

/-- The meaning of `ADD.w Vd, Vs` (48_lane_transform.md R315). -/
def execLopAdd (w : LaneWidth) (dst src : Fin 8) (s : State) : Result :=
  .next { s with v := lopApply (.add w dst src) s.v }

/-- The meaning of `SUB.w Vd, Vs` (48_lane_transform.md R316). -/
def execLopSub (w : LaneWidth) (dst src : Fin 8) (s : State) : Result :=
  .next { s with v := lopApply (.sub w dst src) s.v }

/-- The meaning of `XOR.w Vd, Vs`; the width has no effect (48_lane_transform.md R317). -/
def execLopXor (w : LaneWidth) (dst src : Fin 8) (s : State) : Result :=
  .next { s with v := lopApply (.xor w dst src) s.v }

/-! ## The command -/

/-- The operations of a program up to its first END, where every slot examined is legal (30_encoding.md
R113, 48_lane_transform.md R312, R313). -/
def lopProgram : List (BitVec 16) → Except DecodeError (List LaneOp)
  | [] => .ok []
  | w :: ws =>
    match decodeLop w with
    | .error e => .error e
    | .ok .stop => .ok []
    | .ok o =>
      match lopProgram ws with
      | .error e => .error e
      | .ok os => .ok (o :: os)

/-- The eight slots in order (10_state.md R47). -/
def lopSlots (s : State) : List (BitVec 16) :=
  [lopSlot s 0, lopSlot s 1, lopSlot s 2, lopSlot s 3, lopSlot s 4, lopSlot s 5, lopSlot s 6, lopSlot s 7]

/-- The program run over the registers once, in slot order (48_lane_transform.md R312). -/
def lopRun (os : List LaneOp) (v : Vector DWord 8) : Vector DWord 8 :=
  os.foldl (fun v o => lopApply o v) v

/-- `V[j] <- KRj`, `j` in 1..7 (48_lane_transform.md R313). -/
def loadKeys (s : State) : Vector DWord 8 :=
  #v[s.v[0], s.kr[0], s.kr[1], s.kr[2], s.kr[3], s.kr[4], s.kr[5], s.kr[6]]

/-- One block: load `V0`, run the program, store `V0` (48_lane_transform.md R313). -/
def laneBlock (os : List LaneOp) (a : Nat) (p : Vector DWord 8 × Memory) : Vector DWord 8 × Memory :=
  let v := lopRun os (p.1.set 0 (BitVec.ofNat 64 (p.2.readLE .out a 8)))
  (v, p.2.writeLE a 8 v[0].toNat)

/-- `n` blocks from index `a` up (48_lane_transform.md R313). -/
def laneBlocks (os : List LaneOp) : (n a : Nat) → Vector DWord 8 × Memory → Vector DWord 8 × Memory
  | 0, _, p => p
  | n + 1, a, p => laneBlocks os n (a + 8) (laneBlock os a p)

/-- The registers and `OUT` after LANE: whole blocks only (48_lane_transform.md R313). -/
def laneRun (os : List LaneOp) (s : State) : Vector DWord 8 × Memory :=
  laneBlocks os (s.ciphLen.toNat / 8) s.ciphOff.toNat (loadKeys s, s.out)

/-- LANE (48_lane_transform.md R313). -/
def execLane (s : State) : Result :=
  if outLenLegal s then
    match lopProgram (lopSlots s) with
    | .error _ => trap .illegalCommand s
    | .ok os =>
      if inOut s s.ciphOff.toNat s.ciphLen.toNat then
        .next (finishValid { s with v := (laneRun os s).1, out := (laneRun os s).2 })
      else trap .boundsViolation s
  else trap .illegalCommand s

end Sys2Proof.Machine
end

