-- ==== Sys2Proof/Machine/Overlap.lean ====
section
/-! DEFINITION. OCOPY (42_overlapcopy.md R173). -/

namespace Sys2Proof.Machine

/-- OCOPY: the copy primitive on `OC_FROM`, `OC_TO`, `OC_LEN` (42_overlapcopy.md R173). -/
def execOcopy (s : State) : Result :=
  if outLenLegal s then
    match overlapCopy s s.ocFrom.toNat s.ocTo.toNat s.ocLen.toNat with
    | none => trap .boundsViolation s
    | some m => .next (finishValid { s with out := m })
  else trap .illegalCommand s

end Sys2Proof.Machine
end

