-- ==== Sys2Proof/Machine/Prober.lean ====
section
/-! DEFINITION. PROBE (45_variant_prober.md R230 to R235). -/

namespace Sys2Proof.Machine

/-- `CONSUMED = (bitpos + 7) div 8` (45_variant_prober.md R233). -/
def consumed (s : State) : Int := (bitpos s.cur + 7) / 8

/-- The plausibility predicates (45_variant_prober.md R233); 3 is rejected before any decode. -/
def plausible (s : State) : Bool :=
  match probePlaus s with
  | 0 => decide (consumed s = (s.srcLen.toNat : Int))
  | 1 => decide (consumed s ≤ (s.srcLen.toNat : Int) ∧
      (s.srcLen.toNat : Int) - consumed s ≤ (probeSlack s : Int))
  | 2 => decide (s.opos = s.outLen)
  | _ => false

/-- Candidate `k` of `n` in preference order, `(VSTATE + k) mod N` (45_variant_prober.md R231). -/
def candidate (s : State) (n k : Nat) : Fin 4 := Fin.ofNat 4 ((s.vstate.toNat + k) % n)

/-- The checks before any decode (45_variant_prober.md R230). -/
def probeLegal (s : State) : Bool :=
  decide (1 ≤ probeCount s) && decide (probeCount s ≤ 4) && decide (probePlaus s ≠ 3)
    && decide (s.vstate.toNat < probeCount s) && srcLenLegal s && outLenLegal s
    && (List.range (probeCount s)).all fun v => (slotFormat s (Fin.ofNat 4 v)).isSome

/-- Acceptance of slot `v` (45_variant_prober.md R230, R234). -/
def acceptSlot (v : Fin 4) (s : State) : State :=
  finishDecode (BitVec.ofNat 2 v.val) { s with vstate := BitVec.ofNat 2 v.val }

/-- The candidate loop: `m` candidates left of `n`, the next one `k`, `last` the code the last one failed
with (45_variant_prober.md R230). An IllegalCommand is never caught (60_exceptions.md R344); it cannot
arise here, since every slot was checked. -/
def probeLoop (n : Nat) : (m k : Nat) → (last : BitVec 3) → State → Result
  | 0, _, last, s => .next (raise .formatError last s)
  | m + 1, k, _, s =>
    match decodeSlot (candidate s n k) s with
    | .raised .illegalCommand s' => trap .illegalCommand s'
    | .raised e s' => probeLoop n m (k + 1) e.code s'
    | .done s' =>
      if plausible s' then .next (acceptSlot (candidate s n k) s')
      else probeLoop n m (k + 1) Exc.implausibleResult.code s'

/-- PROBE (45_variant_prober.md R230). -/
def execProbe (s : State) : Result :=
  if probeLegal s then probeLoop (probeCount s) (probeCount s) 0 0 s
  else trap .illegalCommand s

end Sys2Proof.Machine
end

