-- ==== Sys2Proof/Machine/Dispatch.lean ====
section
/-! DEFINITION. The meaning of every instruction, one arm per constructor. -/

namespace Sys2Proof.Machine

/-- The meaning of an instruction. A command runs from the state its prologue left (40_commands.md R132); a
token, a delta element, an alpha pair or a micro-operation from the state its fetch left. -/
def exec (i : Instr) (s : State) : Host.Outcome State Fault Refusal :=
  match i with
  | .nop => Sys2Proof.Machine.execNop s
  | .clear => Sys2Proof.Machine.execClear s
  | .sreset => Sys2Proof.Machine.execSreset s
  | .bcinit order refill => Sys2Proof.Machine.execBcinit order refill s
  | .bcpeek n => Sys2Proof.Machine.execBcpeek n s
  | .bctake n => Sys2Proof.Machine.execBctake n s
  | .bcalign => Sys2Proof.Machine.execBcalign s
  | .ocopy => Sys2Proof.Machine.execOcopy s
  | .decode v => Sys2Proof.Machine.execDecode v s
  | .probe => Sys2Proof.Machine.execProbe s
  | .keygen target => Sys2Proof.Machine.execKeygen target s
  | .cipher => Sys2Proof.Machine.execCipher s
  | .lane => Sys2Proof.Machine.execLane s
  | .pfxLit value => Sys2Proof.Machine.execPfxLit value s
  | .pfxRun2 value => Sys2Proof.Machine.execPfxRun2 value s
  | .pfxRun3 value => Sys2Proof.Machine.execPfxRun3 value s
  | .pfxCopy offset length _ => Sys2Proof.Machine.execPfxCopy offset length s
  | .pfxTerm => Sys2Proof.Machine.execPfxTerm s
  | .bytTerm => Sys2Proof.Machine.execBytTerm s
  | .bytLitrun count _ => Sys2Proof.Machine.execBytLitrun count s
  | .bytFillb count _ value => Sys2Proof.Machine.execBytFillb count value s
  | .bytFillw count _ u0 u1 => Sys2Proof.Machine.execBytFillw count u0 u1 s
  | .bytCopys length _ offset => Sys2Proof.Machine.execBytCopys length offset s
  | .bytCopyl length _ offset => Sys2Proof.Machine.execBytCopyl length offset s
  | .dpxElem sel delta => Sys2Proof.Machine.execDpxElem sel delta s
  | .dpxApair runm1 value => Sys2Proof.Machine.execDpxApair runm1 value s
  | .lopEnd => Sys2Proof.Machine.execLopEnd s
  | .lopAdd w dst src => Sys2Proof.Machine.execLopAdd w dst src s
  | .lopSub w dst src => Sys2Proof.Machine.execLopSub w dst src s
  | .lopXor w dst src => Sys2Proof.Machine.execLopXor w dst src s

end Sys2Proof.Machine
end

