-- ==== Sys2Proof/Machine/Step.lean ====
section
/-! DEFINITION. One step: the host's next move, and where that move starts a command, the whole command
(40_commands.md R130, R131). -/

namespace Sys2Proof.Machine

/-- One step of the machine (40_commands.md R131, notes/assumptions/1.md). -/
def step (s : State) : Host.Outcome State Fault Refusal :=
  match nextMove s with
  | .settled s' => .next s'
  | .run i s' => exec i s'

/-- The state with a table word placed so that the very next step runs it (notes/assumptions/8.md). -/
def State.withFetchWord (s : State) (nbits w : Nat) : State := placeWord nbits w s

end Sys2Proof.Machine
end

