-- ==== Sys2Proof/Safety.lean ====
section
/-! DEFINITION. What a safe state is: the canonical form of both memories, the reserved bits of the
registers with holes, and the stored flags in one of the combinations the spec allows. -/

namespace Sys2Proof.Machine

/-- Both memories are in canonical form. -/
def State.memoryWf (s : State) : Bool := s.src.wf && s.out.wf

/-- Reserved register bits read 0 (10_state.md R21, R37, R38, R41). -/
def State.reservedZero (s : State) : Bool :=
  decide (s.probeCfg &&& probeCfgMask = s.probeCfg) && decide (s.dpCfg &&& dpCfgMask = s.dpCfg)
    && decide (∀ v : Fin 4, s.fmt[v] &&& fmtMask = s.fmt[v])

/-- The codes `ECODE` can show: never 4 and never 7, and 0 exactly when `ERR = 0`; `SUBCODE` is 0 except
under FormatError, where it is a candidate's cause (60_exceptions.md R340, 10_state.md R26). -/
def Status.codesLegal (t : Status) : Bool :=
  decide (t.ecode ≠ 4) && decide (t.ecode ≠ 7) && (t.err == decide (t.ecode ≠ 0))
    && (if t.ecode = 5 then decide (t.subcode.toNat ≤ 4) else decide (t.subcode = 0))

/-- The flags between commands: an error has `DONE` and no result flag (60_exceptions.md R345), a result or
an early end has `DONE` (10_state.md R26). -/
def Status.flagsLegal (t : Status) : Bool :=
  (!t.err || (t.done && !t.early && !t.ovalid && decide (t.vused = 0)))
    && (!t.ovalid || t.done) && (!t.early || t.ovalid) && (t.ovalid || decide (t.vused = 0))

/-- `STATUS` as it can stand between commands. -/
def Status.legal (t : Status) : Bool := t.codesLegal && t.flagsLegal

/-- The invariant of the machine between steps. -/
def State.Inv (s : State) : Prop := s.memoryWf = true ∧ s.reservedZero = true ∧ s.status.legal = true

end Sys2Proof.Machine
end

