-- ==== Sys2Proof/Certificates/Slice0/Obligations.lean ====
section
/-! DEFINITION. The statements for the provers, in the order of the sections of spec/. The first part is
their vocabulary: what the spec's tables and formulas say, written again beside the model's own functions. -/

namespace Sys2Proof.Machine

/-! ## Vocabulary -/

/-- `CMD` is being written with `w` and `rest` are the moves after it. -/
def writesCmd (s : State) (w : Word) (rest : List HostMove) : Prop := s.host = .writeReg 0x000 w :: rest

/-- The state the prologue of an accepted command leaves (40_commands.md R132). -/
def prologueState (s : State) (w : Word) (rest : List HostMove) : State :=
  { s with
    host := rest, cmd := w
    status := { s.status with done := false, early := false, ovalid := false, vused := 0 } }

/-- `STATUS` after `raise` with code `code` and sub-cause `sub` (60_exceptions.md R345). -/
def raisedStatus (code sub : BitVec 3) : Status :=
  { done := true, err := true, early := false, ovalid := false, ecode := code, subcode := sub, vused := 0 }

/-- The next state in which nothing but `STATUS` differs, with the exception code `code`. -/
def raisesOnly (s : State) (code : BitVec 3) : Result := .next { s with status := raisedStatus code 0 }

/-- `STATUS` of a command that finished with its flags otherwise as the prologue left them. -/
def doneStatus (s : State) : Status := { s.status with done := true }

/-- `STATUS` of a command whose result stands in `OUT`. -/
def validStatus (s : State) : Status := { s.status with done := true, ovalid := true }

/-- `MAX_LEN` (00_scope.md R8). -/
def lengthsLegal (s : State) : Prop := s.srcLen.toNat ≤ 2 ^ 31 - 1 ∧ s.outLen.toNat ≤ 2 ^ 31 - 1

/-- The byte offset of a register (the table of 10_state.md R22). -/
def offsetOf : Reg → Nat
  | .cmd => 0x000
  | .status => 0x004
  | .ctrl => 0x008
  | .srcLen => 0x00C
  | .outLen => 0x010
  | .opos => 0x014
  | .curBpos => 0x018
  | .curCache => 0x01C
  | .curCbits => 0x020
  | .curMode => 0x024
  | .curResult => 0x028
  | .ocFrom => 0x02C
  | .ocTo => 0x030
  | .ocLen => 0x034
  | .vstate => 0x038
  | .probeCfg => 0x03C
  | .fmt v => 0x040 + 4 * v.val
  | .tagtab v => 0x050 + 4 * v.val
  | .dpDim => 0x060
  | .dpCfg => 0x064
  | .seed => 0x068
  | .lcgA => 0x06C
  | .lcgB => 0x070
  | .ciphCfg => 0x074
  | .ciphOff => 0x078
  | .ciphLen => 0x07C
  | .ktlen => 0x080
  | .lprog i => 0x090 + 4 * i.val
  | .krLo j => 0x0A0 + 8 * j.val
  | .krHi j => 0x0A4 + 8 * j.val
  | .kt w => 0x100 + 4 * w.val
  | .vLo i => 0x200 + 8 * i.val
  | .vHi i => 0x204 + 8 * i.val

/-- The reset value of a register (the table of 10_state.md R53). -/
def resetValue : Reg → Word
  | .probeCfg => 0x00000001
  | .fmt _ => 0x00081180
  | .tagtab _ => 0xB7EE1111
  | .dpCfg => 0x00000001
  | .ktlen => 1
  | _ => 0

/-- The registers the host cannot write (the "acc" column of 10_state.md R22). -/
def readOnly : Reg → Bool
  | .status | .curResult | .vLo _ | .vHi _ => true
  | _ => false

/-- The bits of a register that are not reserved (10_state.md R27, R32, R33, R36 to R38, R41, R44, R46). -/
def writableBits : Reg → Word
  | .ctrl => 0x00000001
  | .curCbits => 0x0000003F
  | .curMode => 0x00000007
  | .vstate => 0x00000003
  | .probeCfg => 0x00FFFF37
  | .fmt _ => 0xFF0FFFFF
  | .dpCfg => 0x0000FF57
  | .ciphCfg => 0x0000003F
  | .ktlen => 0x000001FF
  | _ => 0xFFFFFFFF

/-- The opcodes of 30_encoding.md R102. -/
def definedOpcodes : List Nat :=
  [0x00, 0x01, 0x02, 0x10, 0x11, 0x12, 0x13, 0x18, 0x20, 0x21, 0x30, 0x31, 0x32]

/-- The commands of that table with `ARG = 0`. -/
def plainOpcodes : List Nat := [0x00, 0x01, 0x02, 0x13, 0x18, 0x21, 0x31, 0x32]

/-- The illegal command words of 30_encoding.md R104, on `OP = CMD[7:0]`, `ARG = CMD[15:8]`, `CMD[31:16]`. -/
def illegalWord (w : Word) : Prop :=
  let op := w.toNat % 256
  let arg := w.toNat / 256 % 256
  w.toNat / 65536 ≠ 0 ∨ op ∉ definedOpcodes ∨ (op ∈ plainOpcodes ∧ arg ≠ 0)
    ∨ (op = 0x10 ∧ (arg / 8 ≠ 0 ∨ arg / 2 % 4 = 3))
    ∨ ((op = 0x11 ∨ op = 0x12) ∧ (arg / 64 ≠ 0 ∨ arg % 64 > 32))
    ∨ (op = 0x20 ∧ arg / 4 ≠ 0) ∨ (op = 0x30 ∧ arg / 2 ≠ 0)

/-- The instructions that are commands. -/
def isCommand : Instr → Bool
  | .nop | .clear | .sreset | .bcinit _ _ | .bcpeek _ | .bctake _ | .bcalign | .ocopy | .decode _
  | .probe | .keygen _ | .cipher | .lane => true
  | _ => false

/-- The instructions that are lane micro-operations. -/
def isMicroOp : Instr → Bool
  | .lopEnd | .lopAdd _ _ _ | .lopSub _ _ _ | .lopXor _ _ _ => true
  | _ => false

/-- `S(j)`, bit `j` of the source in consumption order (41_bitcursor.md R159). -/
def streamBit (e : Reader) (j : Nat) : Bool :=
  match e.order with
  | .msb => (e.byte (j / 8)).getLsbD (7 - j % 8)
  | .lsb => (e.byte (j / 8)).getLsbD (j % 8)

/-- The `n` bits of the source from bit `j` on. -/
def streamBits (e : Reader) (j n : Nat) : List Bool := (List.range n).map fun i => streamBit e (j + i)

/-- The cursor after `i` reads of eight bits. -/
def afterBytes (e : Reader) (i : Nat) (c : BitCursor) : BitCursor := (fun c => (take e 8 c).2)^[i] c

/-- Whether bit `i` of the cache, counted in consumption order, is set. -/
def cacheBit (o : BitOrder) (c : BitCursor) (i : Nat) : Bool :=
  match o with
  | .msb => c.cache.getMsbD i
  | .lsb => c.cache.getLsbD i

/-- No bit of the cache outside the valid region is set (41_bitcursor.md R158). -/
def cacheClean (o : BitOrder) (c : BitCursor) : Prop :=
  c.cbits.toNat ≤ 32 ∧ ∀ i, c.cbits.toNat ≤ i → i < 32 → cacheBit o c i = false

/-- Two cursors that differ at most in cache bits outside the valid region. -/
def sameValidBits (o : BitOrder) (c d : BitCursor) : Prop :=
  c.bpos = d.bpos ∧ c.cbits = d.cbits ∧ c.mode = d.mode ∧ c.cbits.toNat ≤ 32
    ∧ ∀ i < c.cbits.toNat, cacheBit o c i = cacheBit o d i

/-- `m` differs from `m0` in the `n` bytes from `a` on, which are `b`, and nowhere else. -/
def stored (sp : Space) (m m0 : Memory) (a n : Nat) (b : Nat → Byte) : Prop :=
  ∀ x, m.read sp x = if a ≤ x ∧ x < a + n then b (x - a) else m0.read sp x

/-- A next state that differs from `s` in `OUT`, where the `n` bytes from `OPOS` on are `b`, and in `OPOS`,
which has advanced by `n`: an executed token (43_token_decoder.md R194 to R196). -/
def emits (i : Instr) (s : State) (n : Nat) (b : Nat → Byte) : Prop :=
  ∃ m : Memory, exec i s = .next { s with out := m, opos := s.opos + BitVec.ofNat 32 n }
    ∧ stored .out m s.out s.opos.toNat n b

/-- The bytes `OverlapCopy(from, to, len)` leaves: the bytes between `from` and `to`, repeated
(42_overlapcopy.md R171). -/
def copiedByte (m : Memory) (src dst i : Nat) : Byte := m.read .out (src + i % (dst - src))

/-- The family, refill, offset and count fields of `FMTv` (10_state.md R38). -/
def fmtFamily (s : State) (v : Fin 4) : Nat := s.fmt[v].toNat % 4

/-- `f` holds the fields of `FMTv` and `TAGTABv` (10_state.md R38, R39). -/
def readsSlot (s : State) (v : Fin 4) (f : Format) : Prop :=
  let w := s.fmt[v].toNat
  (f.order = .lsb ↔ w / 4 % 2 = 1) ∧ f.refill.bytes = 2 ^ (w / 8 % 4) ∧ f.offw = w / 32 % 32
    ∧ f.cntw = w / 1024 % 16 ∧ f.lenbias = w / 2 ^ 14 % 16 ∧ (f.signBit = true ↔ w / 2 ^ 18 % 2 = 1)
    ∧ (f.escEn = true ↔ w / 2 ^ 19 % 2 = 1) ∧ f.term.toNat = w / 2 ^ 24 ∧ f.tagtab = s.tagtab[v]

/-- The slot checks of 43_token_decoder.md R182 and 46_delta_pixel.md R250. -/
def illegalSlot (s : State) (v : Fin 4) : Prop :=
  let w := s.fmt[v].toNat
  fmtFamily s v = 3 ∨ w / 8 % 4 = 3
    ∨ (fmtFamily s v = 0 ∧ ¬ (1 ≤ w / 32 % 32 ∧ w / 32 % 32 ≤ 16 ∧ 1 ≤ w / 1024 % 16 ∧ w / 1024 % 16 ≤ 8))
    ∨ (fmtFamily s v = 2 ∧
        (dpChannels s < 1 ∨ 4 < dpChannels s ∨ (dpAlpha s = true ∧ dpChannels s ≠ 4)
          ∨ s.outLen.toNat ≠ dpWidth s * dpHeight s * dpChannels s))

/-- A candidate `k` of PROBE: the slot, and the state a DECODE of it alone leaves (45_variant_prober.md R231,
R232). -/
def candidateRun (s : State) (k : Nat) (u : State) : Prop :=
  exec (.decode (Fin.ofNat 4 ((s.vstate.toNat + k) % probeCount s))) s = .next u

/-- What became of a candidate: 0 for acceptance, else its cause (45_variant_prober.md R230, R233). -/
def candidateCause (u : State) : BitVec 3 :=
  if u.status.err then u.status.ecode else if plausible u then 0 else 4

/-- `w_i`, LCG output `i` (47_stream_cipher.md R285). -/
def lcgOutput (a b seed : Word) : Nat → Word
  | 0 => seed * a + b
  | i + 1 => lcgOutput a b seed i * a + b

/-- Byte `b` of a key-stream word (47_stream_cipher.md R283). -/
def keyByte (w : Word) (b : Nat) : Byte := (w >>> (8 * b)).setWidth 8

/-- The exact result of a cipher lane before it is reduced mod `2^(8·LW)` (47_stream_cipher.md R280). -/
def cipherLane (comb d k : Nat) : Int :=
  match comb with
  | 0 => ((d ^^^ k : Nat) : Int)
  | 1 => (d : Int) + k
  | _ => (d : Int) - k

/-- One regenerated entry from the old entry, its successor and the middle entry (47_stream_cipher.md
R286). -/
def twisted (old succ mid : Word) : Word :=
  let y := (old &&& 0x80000000) ||| (succ &&& 0x7FFFFFFF)
  mid ^^^ y.sshiftRight 1 ^^^ (if y.getLsbD 0 then 0x9908B0DF else 0)

/-- A micro-operation that changes the data register only, by a key register. -/
def keyed : LaneOp → Bool
  | .stop => false
  | .add _ d r | .sub _ d r | .xor _ d r => decide (d = 0) && decide (r ≠ 0)

/-- The inverse micro-operation (48_lane_transform.md R318). -/
def inverseOp : LaneOp → LaneOp
  | .stop => .stop
  | .add w d r => .sub w d r
  | .sub w d r => .add w d r
  | .xor w d r => .xor w d r

/-- The illegal micro-operation words of 30_encoding.md R113. -/
def illegalSlotWord (w : BitVec 16) : Prop :=
  4 ≤ w.toNat / 8192 ∨ w.toNat % 32 ≠ 0 ∨ (w.toNat / 8192 = 0 ∧ w ≠ 0)

/-- `s'` is `s` but for bytes of `SRC` at or past `SRC_LEN` and of `OUT` at or past `OUT_LEN`. -/
def sameInside (s s' : State) : Prop :=
  s' = { s with src := s'.src, out := s'.out }
    ∧ (∀ a < s.srcLen.toNat, s'.src.read .src a = s.src.read .src a)
    ∧ (∀ a < s.outLen.toNat, s'.out.read .out a = s.out.read .out a)

/-- The fill tokens, with their unit and count (43_token_decoder.md R199, R200; 44_token_byte.md R215,
R216). -/
def fillToken : Instr → Option (List Byte × Nat)
  | .pfxRun2 v => some ([v], 2)
  | .pfxRun3 v => some ([v], 3)
  | .bytFillb n _ v => some ([v], n.toNat)
  | .bytFillw n _ u0 u1 => some ([u0, u1], n.toNat)
  | _ => none

/-- The copy tokens, with their offset and length (43_token_decoder.md R201; 44_token_byte.md R217, R218). -/
def copyToken : Instr → Option (Nat × Nat)
  | .pfxCopy o l _ => some (o.toNat, l.toNat)
  | .bytCopys l _ o => some (o.toNat, l.toNat)
  | .bytCopyl l _ o => some (o.toNat, l.toNat)
  | _ => none

/-- The instructions fetched from `SRC` other than the terminators. -/
def isRaisingToken : Instr → Bool
  | .pfxLit _ | .pfxRun2 _ | .pfxRun3 _ | .pfxCopy _ _ _ | .bytLitrun _ _ | .bytFillb _ _ _
  | .bytFillw _ _ _ _ | .bytCopys _ _ _ | .bytCopyl _ _ _ | .dpxElem _ _ | .dpxApair _ _ => true
  | _ => false

/-- The cursor after `i` reads of one bit. -/
def afterBits (e : Reader) (i : Nat) (c : BitCursor) : BitCursor := (fun c => (take e 1 c).2)^[i] c

/-- `SignMap` on a magnitude code and, under the sign-bit map, the next bit (46_delta_pixel.md R256). -/
def signedDelta (signBit : Bool) (u g : Nat) : Int :=
  if signBit then (if g = 0 then (u : Int) else -(u : Int))
  else if u % 2 = 0 then ((u / 2 : Nat) : Int) else -(((u + 1) / 2 : Nat) : Int)

/-- The slot checks a DELTA image needs (46_delta_pixel.md R250). -/
def imageLegal (s : State) : Prop :=
  1 ≤ dpChannels s ∧ dpChannels s ≤ 4 ∧ (dpAlpha s = true → dpChannels s = 4)
    ∧ s.outLen.toNat = dpWidth s * dpHeight s * dpChannels s

/-- `Addr(r, x, c)` (46_delta_pixel.md R252). -/
def pixelAddr (s : State) (r x c : Nat) : Nat :=
  ((if dpFlip s then dpHeight s - 1 - r else r) * dpWidth s + x) * dpChannels s + c

/-- `S(r', x', c)` over the integers: `REF` outside the image (46_delta_pixel.md R253). -/
def neighbour (s : State) (r x : Int) (c : Nat) : Byte :=
  if r < 0 ∨ x < 0 then dpRef s else s.out.read .out (pixelAddr s r.toNat x.toNat c)

/-- `Predictor(sel, r, x, c)` (46_delta_pixel.md R253). -/
def predictor (s : State) (sel : Predictor) (r x : Int) (c : Nat) : Byte :=
  match sel with
  | .left => neighbour s r (x - 1) c
  | .up => neighbour s (r - 1) x c
  | .upLeft => neighbour s (r - 1) (x - 1) c
  | .ref => dpRef s

/-- The checks of PROBE other than the slots' (45_variant_prober.md R230). -/
def probeConfigured (s : State) : Prop :=
  1 ≤ probeCount s ∧ probeCount s ≤ 4 ∧ probePlaus s ≠ 3 ∧ s.vstate.toNat < probeCount s ∧ lengthsLegal s

/-- The configuration checks of CIPHER (47_stream_cipher.md R280). -/
def cipherConfigured (s : State) : Prop :=
  s.outLen.toNat ≤ 2 ^ 31 - 1 ∧ ciphSource s ≠ 3 ∧ ciphLaneField s ≠ 3 ∧ ciphComb s ≠ 3
    ∧ (ciphSource s = 2 → 1 ≤ s.ktlen.toNat ∧ s.ktlen.toNat ≤ 256)

/-- The window of CIPHER and LANE lies in `OUT` (47_stream_cipher.md R280, 48_lane_transform.md R313). -/
def windowInside (s : State) : Prop := s.ciphOff.toNat + s.ciphLen.toNat ≤ s.outLen.toNat

/-- The instructions that write a cursor register (10_state.md R22); a literal run reads its payload
through the cursor. -/
def writesCursor : Instr → Bool
  | .bcinit _ _ | .bctake _ | .bcalign | .decode _ | .probe | .bytLitrun _ _ => true
  | _ => false

/-- The instructions that write `CUR_MODE` (10_state.md R22). -/
def writesMode : Instr → Bool
  | .bcinit _ _ | .decode _ | .probe => true
  | _ => false

/-- The instructions that write `CUR_RESULT` (10_state.md R22). -/
def writesResult : Instr → Bool
  | .bcpeek _ | .bctake _ => true
  | _ => false

/-- The instructions that write `OPOS` (10_state.md R22, R29). -/
def writesOpos (i : Instr) : Bool :=
  isRaisingToken i || match i with
    | .decode _ | .probe => true
    | _ => false

/-- The instructions that write `OUT` (20_memory.md R70). -/
def writesOut (i : Instr) : Bool :=
  writesOpos i || match i with
    | .ocopy | .cipher | .lane => true
    | _ => false

/-- The instructions that write key material (10_state.md R48, R49). -/
def writesKeys : Instr → Bool
  | .keygen _ => true
  | _ => false

/-- The instructions that write the vector registers (10_state.md R23). -/
def writesVectors (i : Instr) : Bool :=
  isMicroOp i || match i with
    | .lane => true
    | _ => false

end Sys2Proof.Machine

open Sys2Proof Sys2Proof.Machine

/-! ## Registers, flags and the command interface -/

/-- R53: every register has its value in the reset state, after SRESET and after `rst`; neither changes a
memory. -/
def Obligations.ResetGivesEveryRegisterItsValue : Prop :=
  (∀ r, readReg State.reset r = resetValue r) ∧ irq State.reset = false
    ∧ (∀ s, ∃ t, exec .sreset s = .next t ∧ (∀ r, readReg t r = resetValue r) ∧ irq t = false
        ∧ t.src = s.src ∧ t.out = s.out)
    ∧ (∀ s rest, s.host = .reset :: rest →
        ∃ t, step s = .next t ∧ (∀ r, readReg t r = resetValue r) ∧ irq t = false
          ∧ t.src = s.src ∧ t.out = s.out ∧ t.host = rest)

/-- R22, R21: the offsets of the map reach the registers it names, and any other offset reads 0 and ignores
writes. That an offset that is no multiple of 4 is one of those is the model's deduction
(notes/assumptions/13.md); the answer of a read is shown in `busData` (notes/assumptions/9.md). -/
def Obligations.RegisterMapIsTheTable : Prop :=
  (∀ r, regAt (BitVec.ofNat 12 (offsetOf r)) = some r)
    ∧ ∀ (o : BitVec 12), (∀ r, offsetOf r ≠ o.toNat) → ∀ (s : State) (rest : List HostMove),
        (∀ x, s.host = .writeReg o x :: rest → step s = .next { s with host := rest })
          ∧ (s.host = .readReg o :: rest → step s = .next { s with host := rest, busData := 0 })

/-- R21: a host write of a register other than `CMD` is read back in the bits that are not reserved, a
read-only register keeps its value, and no other register, flag or byte changes. `STATUS` is left out of
the frame because its bit `OVR` is computed from three registers (R54). -/
def Obligations.HostWriteReadsBackMasked : Prop :=
  ∀ (s : State) (rest : List HostMove) (o : BitVec 12) (r : Reg) (x : Word),
    regAt o = some r → r ≠ .cmd → s.host = .writeReg o x :: rest →
      ∃ t, step s = .next t
        ∧ readReg t r = (if readOnly r then readReg s r else x &&& writableBits r)
        ∧ (∀ r', r' ≠ r → r' ≠ .status → readReg t r' = readReg s r')
        ∧ t.status = s.status ∧ t.src = s.src ∧ t.out = s.out ∧ t.busData = s.busData ∧ t.host = rest

/-- R131, R139: the host's reads return the register or the byte and change nothing else but the model's own
`busData`; a byte write changes that byte; with no move pending the machine waits. The move list and
`busData` are the model's choice, the idle step and the reach of every 32-bit index, whatever `SRC_LEN` and
`OUT_LEN` are, its deductions (notes/assumptions/1.md, 9.md, 12.md, 13.md). -/
def Obligations.HostMovesReadAndWriteOneItem : Prop :=
  ∀ (s : State) (rest : List HostMove),
    (∀ o r, regAt o = some r → s.host = .readReg o :: rest →
        step s = .next { s with host := rest, busData := readReg s r })
      ∧ (∀ a, s.host = .readSrc a :: rest →
        step s = .next { s with host := rest, busData := (s.src.read .src a.toNat).setWidth 32 })
      ∧ (∀ a, s.host = .readOut a :: rest →
        step s = .next { s with host := rest, busData := (s.out.read .out a.toNat).setWidth 32 })
      ∧ (∀ a b, s.host = .writeSrc a b :: rest →
        ∃ m, step s = .next { s with host := rest, src := m } ∧ stored .src m s.src a.toNat 1 (fun _ => b))
      ∧ (∀ a b, s.host = .writeOut a b :: rest →
        ∃ m, step s = .next { s with host := rest, out := m } ∧ stored .out m s.out a.toNat 1 (fun _ => b))
      ∧ (s.host = [] → step s = .next s)

/-- R26, R54: every flag stands at its place in `STATUS`, `OVR` is computed over the integers, and `BUSY` and
the reserved bits read 0. -/
def Obligations.StatusWordShowsEveryFlag : Prop :=
  ∀ s : State, let w := statusWord s
    ((w.getLsbD 5 = true) ↔
        8 * (s.cur.bpos.toNat : Int) - (s.cur.cbits.toNat : Int) > 8 * (s.srcLen.toNat : Int))
      ∧ w.getLsbD 0 = false ∧ w.getLsbD 1 = s.status.done ∧ w.getLsbD 2 = s.status.err
      ∧ w.getLsbD 3 = s.status.early ∧ w.getLsbD 4 = s.status.ovalid ∧ w.extractLsb' 6 2 = 0
      ∧ w.extractLsb' 8 3 = s.status.ecode ∧ w.getLsbD 11 = false ∧ w.extractLsb' 12 3 = s.status.subcode
      ∧ w.getLsbD 15 = false ∧ w.extractLsb' 16 2 = s.status.vused ∧ w.extractLsb' 18 14 = 0

/-- R350: `irq` is `CTRL.IE and STATUS.DONE`; a finished command and a raise set it where `IE` is set, and
the prologue, CLEAR, SRESET and clearing `IE` lower it. -/
def Obligations.InterruptFollowsDone : Prop :=
  ∀ s : State, (irq s = true ↔ s.ie = true ∧ s.status.done = true)
    ∧ (∃ t, exec .nop s = .next t ∧ irq t = s.ie)
    ∧ (∀ e sub, irq (raise e sub s) = s.ie)
    ∧ (∀ w rest, irq (prologueState s w rest) = false)
    ∧ (∃ t, exec .clear s = .next t ∧ irq t = false)
    ∧ (∃ t, exec .sreset s = .next t ∧ irq t = false)
    ∧ (∀ x rest, s.host = .writeReg 0x008 x :: rest → x.getLsbD 0 = false →
        ∃ t, step s = .next t ∧ irq t = false)

/-- R132: the prologue of every command, and with it what a step runs: the decoded instruction, from the
state the prologue left. -/
def Obligations.CommandWriteRunsTheDecodedCommand : Prop :=
  ∀ (s : State) (w : Word) (rest : List HostMove), writesCmd s w rest →
    (s.status.err = true → w.toNat % 256 = 0x01 →
        step s = exec .clear { s with host := rest, cmd := w })
      ∧ (s.status.err = true → w.toNat % 256 = 0x02 →
        step s = exec .sreset { s with host := rest, cmd := w })
      ∧ (s.status.err = true → w.toNat % 256 ≠ 0x01 → w.toNat % 256 ≠ 0x02 →
        step s = .next { s with host := rest, cmd := w })
      ∧ (s.status.err = false → ∀ e, decodeCmd w = .error e →
        step s = raisesOnly (prologueState s w rest) 6)
      ∧ (s.status.err = false → ∀ i, decodeCmd w = .ok i → step s = exec i (prologueState s w rest))

/-- R104: which command words are illegal, and that they raise IllegalCommand. -/
def Obligations.IllegalCommandWordsRaise : Prop :=
  ∀ w : Word, ((∃ e, decodeCmd w = .error e) ↔ illegalWord w)
    ∧ ∀ (s : State) (rest : List HostMove), writesCmd s w rest → s.status.err = false → illegalWord w →
        step s = raisesOnly (prologueState s w rest) 6

/-- R345, R340: `raise` writes the fields of `STATUS` and nothing else, with the code of the exception, and
`irq` is then `CTRL.IE`. -/
def Obligations.RaiseWritesOnlyStatus : Prop :=
  (∀ e sub s, raise e sub s =
      { s with status := raisedStatus e.code (if e = .formatError then sub else 0) }
        ∧ irq (raise e sub s) = s.ie)
    ∧ Exc.code .boundsViolation = 1 ∧ Exc.code .unrecognizedControlCode = 2
    ∧ Exc.code .truncatedInput = 3 ∧ Exc.code .implausibleResult = 4 ∧ Exc.code .formatError = 5
    ∧ Exc.code .illegalCommand = 6

/-- R136, R137: NOP sets `DONE`; CLEAR clears every stored field of `STATUS`; neither changes anything
else. -/
def Obligations.NopAndClearChangeOnlyStatus : Prop :=
  ∀ s : State, exec .nop s = .next { s with status := { s.status with done := true } }
    ∧ exec .clear s = .next { s with
        status := { done := false, err := false, early := false, ovalid := false, ecode := 0,
                    subcode := 0, vused := 0 } }

/-! ## Encodings -/

/-- Words and byte strings the spec prints (40_commands.md R136; 41_bitcursor.md R160; 42_overlapcopy.md
R173; 47_stream_cipher.md R300; 30_encoding.md R122; 48_lane_transform.md R318; 43_token_decoder.md R200,
R201; 44_token_byte.md R215, R217; 46_delta_pixel.md R263, R265) decode to what it says they are. -/
def Obligations.PrintedEncodingsDecode : Prop :=
  decodeCmd 0x00000000 = .ok .nop ∧ decodeCmd 0x00000510 = .ok (.bcinit .lsb .w4)
    ∧ decodeCmd 0x00000018 = .ok .ocopy ∧ decodeCmd 0x00000130 = .ok (.keygen .kr)
    ∧ decodeLop 0x2820 = .ok (.add .l16 0 1) ∧ decodeLop 0x7840 = .ok (.xor .l64 0 2)
    ∧ (fetchPfx (tableFormat .pfx) (tableReader 0x6002C020) (BitCursor.fresh .msb .w1)).1 = .ok (.lit 0x41)
    ∧ (fetchPfx (tableFormat .pfx) (tableReader 0xAABECA) (BitCursor.fresh .msb .w1)).1 = .ok (.run2 0x55)
    ∧ (fetchByt (tableFormat .byt) (tableReader 0xFF44) (BitCursor.fresh .msb .w1)).1
        = .fillb 4 .inline 0xFF
    ∧ (fetchByt (tableFormat .byt) (tableReader 0x7E00285F) (BitCursor.fresh .msb .w1)).1
        = .fillb 40 .explicit 0x7E
    ∧ (fetchByt (tableFormat .byt) (tableReader 0x0285) (BitCursor.fresh .msb .w1)).1
        = .copys 5 .inline 2
    ∧ (fetchElem (tableFormat .delta) (tableReader 0x90E1) (BitCursor.fresh .msb .w1)).1
        = .ok { sel := .ref, delta := -1 }
    ∧ (fetchPair (tableReader 0x8002) (BitCursor.fresh .msb .w1)).1 = { runm1 := 2, value := 0x80 }

/-- Decode and encode agree on every well-formed command and micro-operation (R101, R102, R112). -/
def Obligations.CommandAndMicroOpRoundTrip : Prop :=
  ∀ (f : Format) (i : Instr), (isCommand i = true ∨ isMicroOp i = true) → i.wf f = true →
    decode f (encode f i) = .ok i

/-- A command word and a micro-operation word each have one meaning: what decodes encodes back to the same
word (R101, R102, R112). -/
def Obligations.DecodedWordsEncodeBack : Prop :=
  (∀ (f : Format) (w : Word) (i : Instr), decodeCmd w = .ok i →
      isCommand i = true ∧ i.wf f = true ∧ encode f i = .cmd w)
    ∧ ∀ (f : Format) (w : BitVec 16) (o : LaneOp), decodeLop w = .ok o → encode f o.toInstr = .lop w

/-- Decode and encode agree on every well-formed prefix-controlled token, under every format whose tag table
has a tag for it, both bit orders and every refill width (R105, R106, R190). -/
def Obligations.PrefixTokenRoundTrip : Prop :=
  ∀ (f : Format) (t : PfxToken), f.wf = true → t.toInstr.wf f = true → tagged f t.toInstr = true →
    decode f (encode f t.toInstr) = .ok t.toInstr

/-- Decode and encode agree on every well-formed byte-controlled token header, under every format, both bit
orders, every refill width and whatever stands in the fields the family ignores (R108, R109, R210, R38). -/
def Obligations.ByteTokenRoundTrip : Prop :=
  ∀ (f : Format) (t : BytToken), t.toInstr.wf f = true →
    decode f (encode f t.toInstr) = .ok t.toInstr

/-- Decode and encode agree on every well-formed delta element and alpha pair, whatever stands in the fields
the family ignores (R111, R114, R255, R256, R38). -/
def Obligations.DeltaCodeRoundTrip : Prop :=
  (∀ (f : Format) (x : DeltaElem), x.toInstr.wf f = true →
      decode f (encode f x.toInstr) = .ok x.toInstr)
    ∧ ∀ (f : Format) (p : AlphaPair), decode f (encode f p.toInstr) = .ok p.toInstr

/-! ## The cursor -/

/-- R155: two reads give the bits of one read, split, and leave the same registers. -/
def Obligations.SplitTakeEqualsWholeTake : Prop :=
  ∀ (e : Reader) (c : BitCursor) (n m : Nat), n + m ≤ 32 →
    let x := take e n c
    let y := take e m x.2
    let z := take e (n + m) c
    y.2 = z.2
      ∧ (e.order = .msb → z.1 = x.1 * 2 ^ m + y.1 ∧ x.1 = z.1 / 2 ^ m ∧ y.1 = z.1 % 2 ^ m)
      ∧ (e.order = .lsb → z.1 = x.1 + y.1 * 2 ^ n ∧ x.1 = z.1 % 2 ^ n ∧ y.1 = z.1 / 2 ^ n)

/-- R159, R153: from an empty cache a read returns the stream bits at the cursor's byte, whatever the refill
width, and a read of eight bits the source byte. The premise keeps `CUR_BPOS` below its 32-bit end
(notes/assumptions/3.md). -/
def Obligations.TakeReadsTheStreamBits : Prop :=
  ∀ (e : Reader) (c : BitCursor) (n : Nat), c.cbits = 0 → c.bpos.toNat + n + 4 ≤ 2 ^ 32 →
    (take e n c).1 = bitsValue e.order (streamBits e (8 * c.bpos.toNat) n)
      ∧ (∀ w : RefillWidth, (take { e with width := w } n c).1 = (take e n c).1)
      ∧ (take e n c).1 < 2 ^ n
      ∧ (n = 8 → (take e n c).1 = (e.byte c.bpos.toNat).toNat)

/-- R157, R154: `bitpos` counts the bits consumed, aligning adds the discarded bits, a new cursor stands at
bit 0. The premise keeps `CUR_BPOS` below its 32-bit end (notes/assumptions/3.md). -/
def Obligations.BitPositionCountsConsumedBits : Prop :=
  (∀ (e : Reader) (c : BitCursor) (n : Nat), c.bpos.toNat + 4 * n < 2 ^ 32 →
      bitpos (take e n c).2 = bitpos c + n ∧ (take e n c).2.mode = c.mode
        ∧ peek e n c = (take e n c).1)
    ∧ (∀ c : BitCursor, bitpos (alignByte c) = bitpos c + c.cbits.toNat)
    ∧ ∀ o w, bitpos (BitCursor.fresh o w) = 0

/-- R158: cache bits outside the valid region are never returned, and a cursor without such bits stays
without them. -/
def Obligations.StrayCacheBitsAreNeverReturned : Prop :=
  ∀ (e : Reader) (c : BitCursor) (n : Nat),
    (∀ d, sameValidBits e.order c d →
        (take e n c).1 = (take e n d).1 ∧ sameValidBits e.order (take e n c).2 (take e n d).2)
      ∧ (cacheClean e.order c → cacheClean e.order (take e n c).2)
      ∧ cacheClean e.order (alignByte c)

/-- R160 to R163: BCINIT, BCPEEK, BCTAKE and BCALIGN complete where their checks pass, and change the cursor
registers, `CUR_RESULT` and `DONE` only. -/
def Obligations.CursorCommandsComplete : Prop :=
  (∀ (o : BitOrder) (w : RefillWidth) (s : State), exec (.bcinit o w) s = .next { s with
      cur := { bpos := 0, cache := 0, cbits := 0, mode := BitVec.ofNat 3 (o.toField + 2 * w.toField) }
      status := doneStatus s })
    ∧ (∀ (s : State) (w : RefillWidth) (n : BitVec 6), s.cur.cbits.toNat ≤ 32 → s.cur.refill? = some w →
        s.srcLen.toNat ≤ 2 ^ 31 - 1 → n.toNat ≤ 32 →
          let e : Reader := { order := s.cur.order, width := w, src := s.src, len := s.srcLen.toNat }
          exec (.bcpeek n) s = .next { s with
              curResult := BitVec.ofNat 32 (take e n.toNat s.cur).1, status := doneStatus s }
            ∧ exec (.bctake n) s = .next { s with
              curResult := BitVec.ofNat 32 (take e n.toNat s.cur).1, cur := (take e n.toNat s.cur).2
              status := doneStatus s })
    ∧ ∀ s : State, s.cur.cbits.toNat ≤ 32 → s.cur.mode.toNat / 2 ≠ 3 →
        exec .bcalign s = .next { s with
          cur := { s.cur with cache := 0, cbits := 0 }, status := doneStatus s }

/-- R161 to R163: where a check fails, BCPEEK, BCTAKE and BCALIGN raise IllegalCommand. -/
def Obligations.CursorCommandsRejectBadConfiguration : Prop :=
  ∀ (s : State) (n : BitVec 6),
    ((32 < n.toNat ∨ 32 < s.cur.cbits.toNat ∨ s.cur.mode.toNat / 2 = 3 ∨ 2 ^ 31 - 1 < s.srcLen.toNat) →
        exec (.bcpeek n) s = raisesOnly s 6 ∧ exec (.bctake n) s = raisesOnly s 6)
      ∧ ((32 < s.cur.cbits.toNat ∨ s.cur.mode.toNat / 2 = 3) → exec .bcalign s = raisesOnly s 6)

/-! ## OverlapCopy and the tokens -/

/-- R170, R171: OCOPY's two checks, and its copy: every byte equals the byte `from + i` after the copy, so
the bytes between `from` and `to` are repeated; nothing else changes but `DONE` and `OVALID`. -/
def Obligations.OcopyRepeatsTheBytesBetween : Prop :=
  ∀ s : State, let src := s.ocFrom.toNat
    let dst := s.ocTo.toNat
    let len := s.ocLen.toNat
    (2 ^ 31 - 1 < s.outLen.toNat → exec .ocopy s = raisesOnly s 6)
      ∧ (s.outLen.toNat ≤ 2 ^ 31 - 1 → (dst ≤ src ∨ s.outLen.toNat < dst + len) →
        exec .ocopy s = raisesOnly s 1)
      ∧ (s.outLen.toNat ≤ 2 ^ 31 - 1 → src < dst → dst + len ≤ s.outLen.toNat →
        ∃ m : Memory, exec .ocopy s = .next { s with out := m, status := validStatus s }
          ∧ stored .out m s.out dst len (copiedByte s.out src dst)
          ∧ ∀ i < len, m.read .out (dst + i) = m.read .out (src + i))

/-- R194 on its two tokens, LIT and LITRUN: the bounds check, then the bytes, then `OPOS`; LITRUN's own
checks stand around it in the order of R214. A token run alone is the model's form
(notes/assumptions/4.md). -/
def Obligations.LiteralTokensEmitTheirBytes : Prop :=
  ∀ s : State, overrun s = false →
    (∀ v, (s.outLen.toNat < s.opos.toNat + 1 → exec (.pfxLit v) s = raisesOnly s 1)
        ∧ (s.opos.toNat + 1 ≤ s.outLen.toNat → emits (.pfxLit v) s 1 (fun _ => v)))
      ∧ ∀ (n : BitVec 16) (form : CountForm),
        (n.toNat = 0 → exec (.bytLitrun n form) s = raisesOnly s 2)
          ∧ (n.toNat ≠ 0 → s.outLen.toNat < s.opos.toNat + n.toNat →
            exec (.bytLitrun n form) s = raisesOnly s 1)
          ∧ (n.toNat ≠ 0 → s.opos.toNat + n.toNat ≤ s.outLen.toNat →
            bitpos s.cur + 8 * (n.toNat : Int) > 8 * (s.srcLen.toNat : Int) →
            exec (.bytLitrun n form) s = raisesOnly s 3)
          ∧ (∀ w, n.toNat ≠ 0 → s.opos.toNat + n.toNat ≤ s.outLen.toNat →
            bitpos s.cur + 8 * (n.toNat : Int) ≤ 8 * (s.srcLen.toNat : Int) → s.cur.refill? = some w →
            let e : Reader := { order := s.cur.order, width := w, src := s.src, len := s.srcLen.toNat }
            ∃ m : Memory, exec (.bytLitrun n form) s = .next { s with
                out := m, opos := s.opos + BitVec.ofNat 32 n.toNat, cur := afterBytes e n.toNat s.cur }
              ∧ stored .out m s.out s.opos.toNat n.toNat
                (fun i => BitVec.ofNat 8 (take e 8 (afterBytes e i s.cur)).1))

/-- R195 on its four tokens, RUN2, RUN3, FILLB and FILLW: zero count, bounds, then the unit repeated. A
token run alone is the model's form (notes/assumptions/4.md). -/
def Obligations.FillTokensRepeatTheirUnit : Prop :=
  ∀ (i : Instr) (s : State) (unit : List Byte) (count : Nat), overrun s = false →
    fillToken i = some (unit, count) →
      (count = 0 → exec i s = raisesOnly s 2)
        ∧ (count ≠ 0 → s.outLen.toNat < s.opos.toNat + count * unit.length → exec i s = raisesOnly s 1)
        ∧ (count ≠ 0 → s.opos.toNat + count * unit.length ≤ s.outLen.toNat →
          emits i s (count * unit.length) (fun j => unit.getD (j % unit.length) 0))

/-- R196 on its three tokens, COPY, COPYS and COPYL: zero length, back-distance, bounds, then the bytes
between `OPOS − offset` and `OPOS`, repeated. A token run alone is the model's form
(notes/assumptions/4.md). -/
def Obligations.CopyTokensRepeatProducedBytes : Prop :=
  ∀ (i : Instr) (s : State) (offset length : Nat), overrun s = false →
    copyToken i = some (offset, length) →
      (length = 0 → exec i s = raisesOnly s 2)
        ∧ (length ≠ 0 → (offset = 0 ∨ s.opos.toNat < offset) → exec i s = raisesOnly s 1)
        ∧ (length ≠ 0 → offset ≠ 0 → offset ≤ s.opos.toNat → s.outLen.toNat < s.opos.toNat + length →
          exec i s = raisesOnly s 1)
        ∧ (length ≠ 0 → offset ≠ 0 → offset ≤ s.opos.toNat → s.opos.toNat + length ≤ s.outLen.toNat →
          emits i s length (copiedByte s.out (s.opos.toNat - offset) s.opos.toNat))

/-- R197, R202, R211: a terminator sets `EARLY` and nothing else, also where it was read from zero-fill. A
token run alone is the model's form (notes/assumptions/4.md). -/
def Obligations.TerminatorsSetEarly : Prop :=
  ∀ s : State, exec .pfxTerm s = .next { s with status := { s.status with early := true } }
    ∧ exec .bytTerm s = .next { s with status := { s.status with early := true } }

/-- R186, R187, R258: any other token, element or pair whose header overran raises TruncatedInput before any
other check. A token run alone is the model's form (notes/assumptions/4.md). -/
def Obligations.OverrunTokensAreTruncated : Prop :=
  ∀ (i : Instr) (s : State), isRaisingToken i = true → overrun s = true → exec i s = raisesOnly s 3

/-- R181, R251, R260, R312: an iteration of a loop body runs the token, element or pair it fetched, and the
lane program its micro-operations in slot order; a terminator ends the loop, and the loop asks before each
iteration. `DecodeRunsItsFamilysLoop` says which loop a decode is. That `exec` runs a token alone is the model's form (notes/assumptions/4.md). -/
def Obligations.LoopsRunWhatTheyFetch : Prop :=
  (∀ f s t c, fetchPfx f (readerFor f s) s.cur = (.ok t, c) →
      (pfxStep f s).result = exec t.toInstr { s with cur := c }
        ∧ ((∃ u, pfxStep f s = .ended u) ↔ t = .term))
    ∧ (∀ f s t c, fetchByt f (readerFor f s) s.cur = (t, c) →
      (bytStep f s).result = exec t.toInstr { s with cur := c }
        ∧ ((∃ u, bytStep f s = .ended u) ↔ t = .term))
    ∧ (∀ f s x c, fetchElem f (readerFor f s) s.cur = (.ok x, c) →
      (elemStep f s).result = exec x.toInstr { s with cur := c } ∧ ∀ u, elemStep f s ≠ .ended u)
    ∧ (∀ f s p c, fetchPair (readerFor f s) s.cur = (p, c) →
      (pairStep f s).result = exec p.toInstr { s with cur := c } ∧ ∀ u, pairStep f s ≠ .ended u)
    ∧ (∀ more body n s, (more s = false → decodeLoop more body (n + 1) s = .done s)
      ∧ (more s = true → ∀ u, (body s = .emitted u →
            decodeLoop more body (n + 1) s = decodeLoop more body n u)
          ∧ (body s = .ended u → decodeLoop more body (n + 1) s = .done u)
          ∧ ∀ e, body s = .raised e u → decodeLoop more body (n + 1) s = .raised e u))
    ∧ ∀ (o : LaneOp) (os : List LaneOp) (s : State),
      exec o.toInstr s = .next { s with v := lopApply o s.v }
        ∧ lopRun (o :: os) s.v = lopRun os (lopApply o s.v)

/-- R180, R181, R251, R260, R38: which loop the decode of a legal slot is. The format is read from the fields
of `FMTv` and `TAGTABv`; the decode starts with a new cursor, `OPOS` and `EARLY` 0 and `OUT` zeroed; family
0 loops over prefix-controlled tokens and family 1 over byte-controlled ones while `OPOS < OUT_LEN`; family
2 loops over `W·H·NCOL` delta elements and then, with the alpha pass on, discards the cached bits and loops
over alpha pairs until every pixel has its alpha; DECODE ends as that loop ends. The fuel of the loops is
notes/assumptions/10.md, the counts are read from `OPOS` (notes/assumptions/5.md). -/
def Obligations.DecodeRunsItsFamilysLoop : Prop :=
  (∀ u : State, (moreOutput u = true ↔ u.opos.toNat < u.outLen.toNat)
    ∧ (moreElems u = true ↔
        u.opos.toNat < dpWidth u * dpHeight u * (if dpAlpha u then 3 else dpChannels u))
    ∧ (morePairs u = true ↔ u.opos.toNat - 3 * (dpWidth u * dpHeight u) < dpWidth u * dpHeight u))
    ∧ ∀ (s : State) (v : Fin 4) (f : Format), slotFormat s v = some f →
      let fuel := s.outLen.toNat + 1
      let s0 := startDecode f s
      readsSlot s v f
        ∧ (∃ m : Memory, s0 = { s with
              cur := { bpos := 0, cache := 0, cbits := 0, mode := BitVec.ofNat 3 (s.fmt[v].toNat / 4 % 8) }
              opos := 0, out := m, status := { s.status with early := false } }
            ∧ stored .out m s.out 0 s.outLen.toNat (fun _ => 0))
        ∧ (fmtFamily s v = 0 → decodeSlot v s = decodeLoop moreOutput (pfxStep f) fuel s0)
        ∧ (fmtFamily s v = 1 → decodeSlot v s = decodeLoop moreOutput (bytStep f) fuel s0)
        ∧ (fmtFamily s v = 2 →
          (∀ e u, decodeLoop moreElems (elemStep f) fuel s0 = .raised e u → decodeSlot v s = .raised e u)
            ∧ ∀ u, decodeLoop moreElems (elemStep f) fuel s0 = .done u →
              (dpAlpha s = false → decodeSlot v s = .done u)
                ∧ (dpAlpha s = true → decodeSlot v s = decodeLoop morePairs (pairStep f) fuel
                    { u with cur := { u.cur with cache := 0, cbits := 0 } }))
        ∧ (lengthsLegal s →
          (∀ u, decodeSlot v s = .done u → exec (.decode v) s = .next { u with status := { u.status with
                done := true, ovalid := true, vused := BitVec.ofNat 2 v.val } })
            ∧ ∀ e u, decodeSlot v s = .raised e u → exec (.decode v) s = .next (raise e 0 u))

/-- R135: every iteration emits at least one byte, so the fuel of a decode's loops is never what ends them:
more fuel changes nothing (notes/assumptions/10.md). -/
def Obligations.FuelNeverEndsADecode : Prop :=
  ∀ (f : Format) (s : State) (n : Nat), decodeFuel s ≤ n →
    decodeLoop moreOutput (pfxStep f) n s = decodeLoop moreOutput (pfxStep f) (decodeFuel s) s
      ∧ decodeLoop moreOutput (bytStep f) n s = decodeLoop moreOutput (bytStep f) (decodeFuel s) s
      ∧ (imageLegal s →
        decodeLoop moreElems (elemStep f) n s = decodeLoop moreElems (elemStep f) (decodeFuel s) s
          ∧ (dpAlpha s = true →
            decodeLoop morePairs (pairStep f) n s = decodeLoop morePairs (pairStep f) (decodeFuel s) s))

/-- R203, R255: a tag-table entry with `LEN = 0` consumes three bits and a ninth one-bit eleven, and either
raises UnrecognizedControlCode, or TruncatedInput if that overran. -/
def Obligations.UndefinedCodesRaise : Prop :=
  ∀ (f : Format) (s : State), let e := readerFor f s
    let bad (c : BitCursor) : TokenEnd := if overrun { s with cur := c }
      then .raised .truncatedInput { s with cur := c }
      else .raised .unrecognizedControlCode { s with cur := c }
    (tagLen f.tagtab (take e 3 s.cur).1 = 0 → pfxStep f s = bad (take e 3 s.cur).2)
      ∧ ((take e 9 (take e 2 s.cur).2).1 = 511 →
        elemStep f s = bad (take e 9 (take e 2 s.cur).2).2)

/-! ## DECODE and PROBE -/

/-- R182, R250: which slots are illegal, and that DECODE of one raises IllegalCommand, as it does with a
length over `MAX_LEN` (R133). -/
def Obligations.IllegalSlotsAreRefused : Prop :=
  ∀ (s : State) (v : Fin 4), (slotFormat s v = none ↔ illegalSlot s v)
    ∧ (illegalSlot s v → exec (.decode v) s = raisesOnly s 6)
    ∧ (¬ lengthsLegal s → exec (.decode v) s = raisesOnly s 6)

/-- R180, R181, R230, R371: with `OUT_LEN = 0` a DECODE of a legal slot completes at once with a new cursor,
and a PROBE with the FULL_OUT predicate accepts its preferred slot; `OUT` and everything else stay. -/
def Obligations.EmptyDecodeAndProbeComplete : Prop :=
  ∀ s : State, s.outLen = 0 → lengthsLegal s →
    let cursor (v : Fin 4) : BitCursor :=
      { bpos := 0, cache := 0, cbits := 0, mode := BitVec.ofNat 3 (s.fmt[v].toNat / 4 % 8) }
    let flags (v : Fin 4) : Status :=
      { s.status with done := true, early := false, ovalid := true, vused := BitVec.ofNat 2 v.val }
    (∀ v : Fin 4, ¬ illegalSlot s v →
        exec (.decode v) s = .next { s with cur := cursor v, opos := 0, status := flags v })
      ∧ (probeConfigured s → probePlaus s = 2 →
        (∀ v : Fin 4, v.val < probeCount s → ¬ illegalSlot s v) →
        let v : Fin 4 := Fin.ofNat 4 s.vstate.toNat
        exec .probe s = .next { s with cur := cursor v, opos := 0, status := flags v })

/-- R181, R210, R214: a DECODE of a BYTE slot over one literal run that fills the buffer completes, whatever
bit order and refill width: the payload bytes stand in `OUT`, and the cursor just after them. -/
def Obligations.DecodeCopiesALiteralRun : Prop :=
  ∀ (s : State) (v : Fin 4) (n : Nat), lengthsLegal s → ¬ illegalSlot s v → fmtFamily s v = 1 →
    s.outLen.toNat = n → 1 ≤ n → n ≤ 62 → (s.src.read .src 0).toNat = n → s.fmt[v].toNat / 2 ^ 24 ≠ n →
    n + 1 ≤ s.srcLen.toNat →
      ∃ c m, exec (.decode v) s = .next { s with
          cur := c, opos := s.outLen, out := m
          status := { s.status with
            done := true, early := false, ovalid := true, vused := BitVec.ofNat 2 v.val } }
        ∧ bitpos c = 8 * ((n : Int) + 1) ∧ stored .out m s.out 0 n (fun i => s.src.read .src (1 + i))

/-- R181, R193, R197, R347: every DECODE of a legal slot answers a next state that differs in the cursor,
`OPOS`, `OUT` and `STATUS` alone; nothing at or past `OUT_LEN` changes; for a token family `OUT` is zero
from `OPOS` on; success sets `EARLY` exactly where the buffer was not filled; failure is one of the three
decode exceptions. -/
def Obligations.DecodeEndsFullEarlyOrRaised : Prop :=
  ∀ (s : State) (v : Fin 4), s.status.err = false → lengthsLegal s → ¬ illegalSlot s v →
    ∃ c p m st, exec (.decode v) s = .next { s with cur := c, opos := p, out := m, status := st }
      ∧ p.toNat ≤ s.outLen.toNat
      ∧ (∀ a, s.outLen.toNat ≤ a → m.read .out a = s.out.read .out a)
      ∧ (fmtFamily s v ≠ 2 → ∀ a, p.toNat ≤ a → a < s.outLen.toNat → m.read .out a = 0)
      ∧ (st.err = false → st = { s.status with
            done := true, ovalid := true, early := decide (p.toNat < s.outLen.toNat)
            vused := BitVec.ofNat 2 v.val })
      ∧ (st.err = true →
          st = raisedStatus 1 0 ∨ st = raisedStatus 2 0 ∨ st = raisedStatus 3 0)

/-- R232, R84: a DECODE of a legal slot starts from scratch: the cursor, `OPOS`, `EARLY` and the bytes of
`OUT` below `OUT_LEN` that it finds have no effect. What reads alike at and above `OUT_LEN` gives states
that differ at most in how `OUT` lists what it reads as; canonical memories that list alike there give equal
states. -/
def Obligations.DecodeStartsFromScratch : Prop :=
  ∀ (s : State) (v : Fin 4) (c : BitCursor) (p : Word) (m : Memory) (b : Bool),
    lengthsLegal s → ¬ illegalSlot s v →
    let s' : State := { s with cur := c, opos := p, out := m, status := { s.status with early := b } }
    ((∀ a, s.outLen.toNat ≤ a → m.read .out a = s.out.read .out a) →
      ∃ t t', exec (.decode v) s = .next t ∧ exec (.decode v) s' = .next t'
        ∧ t' = { t with out := t'.out } ∧ ∀ a, t'.out.read .out a = t.out.read .out a)
      ∧ (s.out.wf = true → m.wf = true →
        (∀ a, s.outLen.toNat ≤ a → m.listed a = s.out.listed a) →
          exec (.decode v) s' = exec (.decode v) s)

/-- R230 to R235: PROBE tries its candidates in cyclic order from `VSTATE`, each as a DECODE of it alone would
run; it accepts the first that decodes and is plausible, with `VSTATE` and `VUSED` naming it, and raises
FormatError with the last candidate's cause where there is none. -/
def Obligations.ProbeAcceptsTheFirstPlausible : Prop :=
  ∀ s : State, s.status.err = false → probeConfigured s →
    (∀ v : Fin 4, v.val < probeCount s → ¬ illegalSlot s v) →
    (∃ k u, k < probeCount s ∧ candidateRun s k u ∧ candidateCause u = 0
        ∧ (∀ j < k, ∃ u', candidateRun s j u' ∧ candidateCause u' ≠ 0)
        ∧ exec .probe s = .next { u with vstate := u.status.vused })
      ∨ ((∀ j < probeCount s, ∃ u', candidateRun s j u' ∧ candidateCause u' ≠ 0)
        ∧ ∃ u, candidateRun s (probeCount s - 1) u
          ∧ exec .probe s = .next { u with status := raisedStatus 5 (candidateCause u) })

/-- R233: the three plausibility predicates; `CONSUMED` counts a partly used byte as used. -/
def Obligations.PlausibilityIsTheNamedPredicate : Prop :=
  ∀ s : State, ∃ consumed : Int, 8 * consumed - 8 < bitpos s.cur ∧ bitpos s.cur ≤ 8 * consumed
    ∧ (s.probeCfg.toNat / 16 % 4 = 0 → (plausible s = true ↔ consumed = (s.srcLen.toNat : Int)))
    ∧ (s.probeCfg.toNat / 16 % 4 = 1 → (plausible s = true ↔
        consumed ≤ (s.srcLen.toNat : Int)
          ∧ (s.srcLen.toNat : Int) - consumed ≤ ((s.probeCfg.toNat / 256 % 2 ^ 16 : Nat) : Int)))
    ∧ (s.probeCfg.toNat / 16 % 4 = 2 → (plausible s = true ↔ s.opos = s.outLen))

/-- R230, R344: PROBE raises IllegalCommand, with nothing but `STATUS` changed, where its configuration or
one of its slots is illegal. -/
def Obligations.ProbeRejectsBadConfiguration : Prop :=
  ∀ s : State, (¬ probeConfigured s ∨ ∃ v : Fin 4, v.val < probeCount s ∧ illegalSlot s v) →
    exec .probe s = raisesOnly s 6

/-! ## The delta family -/

/-- R255, R256: the element behind a selector, a prefix of `k` one-bits and its closing zero-bit, and `k`
magnitude bits; under the sign-bit map a non-zero magnitude code takes one more bit. -/
def Obligations.ElementReadsItsUnaryPrefix : Prop :=
  ∀ (f : Format) (e : Reader) (c : BitCursor) (k : Nat), k ≤ 8 →
    let c1 := (take e 2 c).2
    let c2 := afterBits e (k + 1) c1
    let u := 2 ^ k - 1 + (take e k c2).1
    let c3 := (take e k c2).2
    (∀ j < k, (take e 1 (afterBits e j c1)).1 = 1) → (take e 1 (afterBits e k c1)).1 = 0 →
      fetchElem f e c =
        if f.signBit = true ∧ u ≠ 0 then
          (.ok { sel := Predictor.ofField (take e 2 c).1
                 delta := signedDelta true u (take e 1 c3).1 }, (take e 1 c3).2)
        else (.ok { sel := Predictor.ofField (take e 2 c).1, delta := signedDelta false
                      (if f.signBit then 0 else u) 0 }, c3)

/-- R251, R252, R253, R257: a delta element writes one sample, predictor plus delta mod 256, at the address
of its pixel and channel, and `OPOS` advances by one; nothing else changes. An element run alone takes its
position from `OPOS` (notes/assumptions/4.md, 5.md). -/
def Obligations.DeltaElementWritesItsSample : Prop :=
  ∀ (s : State) (sel : Predictor) (d : Int) (r x c : Nat), imageLegal s → overrun s = false →
    r < dpHeight s → x < dpWidth s → c < (if dpAlpha s then 3 else dpChannels s) →
    s.opos.toNat = (r * dpWidth s + x) * (if dpAlpha s then 3 else dpChannels s) + c →
      ∃ m : Memory, exec (.dpxElem sel d) s = .next { s with out := m, opos := s.opos + 1 }
        ∧ (((m.read .out (pixelAddr s r x c)).toNat : Int)
            = (((predictor s sel r x c).toNat : Int) + d) % 256)
        ∧ ∀ a, a ≠ pixelAddr s r x c → m.read .out a = s.out.read .out a

/-- R260: an alpha pair writes its value into channel 3 of the next `runm1 + 1` pixels in scan order, or
raises BoundsViolation where the run passes the last pixel. A pair run alone takes its position from
`OPOS` (notes/assumptions/4.md, 5.md). -/
def Obligations.AlphaPairFillsItsRun : Prop :=
  ∀ (s : State) (runm1 value : Byte) (n : Nat), imageLegal s → dpAlpha s = true → overrun s = false →
    n ≤ dpWidth s * dpHeight s → s.opos.toNat = 3 * (dpWidth s * dpHeight s) + n →
      (n + (runm1.toNat + 1) ≤ dpWidth s * dpHeight s →
        ∃ m : Memory, exec (.dpxApair runm1 value) s = .next { s with
            out := m, opos := s.opos + BitVec.ofNat 32 (runm1.toNat + 1) }
          ∧ (∀ q, n ≤ q → q < n + (runm1.toNat + 1) →
            m.read .out (pixelAddr s (q / dpWidth s) (q % dpWidth s) 3) = value)
          ∧ ∀ a, (∀ q, n ≤ q → q < n + (runm1.toNat + 1) →
              a ≠ pixelAddr s (q / dpWidth s) (q % dpWidth s) 3) → m.read .out a = s.out.read .out a)
        ∧ (dpWidth s * dpHeight s < n + (runm1.toNat + 1) →
          exec (.dpxApair runm1 value) s = raisesOnly s 1)

/-- R252, R258: the samples of a legal image lie inside `OUT`, and no two of them share an address. -/
def Obligations.SampleAddressesTileTheBuffer : Prop :=
  ∀ (s : State) (r x c r' x' c' : Nat), imageLegal s →
    r < dpHeight s → x < dpWidth s → c < dpChannels s →
    r' < dpHeight s → x' < dpWidth s → c' < dpChannels s →
      sampleAddr s r x c < s.outLen.toNat
        ∧ (sampleAddr s r x c = sampleAddr s r' x' c' → r = r' ∧ x = x' ∧ c = c')

/-! ## Ciphers and key material -/

/-- R280, R282, R284: CIPHER combines every whole lane of its window with the key lane of the same index,
mod `2^(8·LW)`, and changes no byte outside them; `DONE` and `OVALID` are set. -/
def Obligations.CipherTransformsWholeLanes : Prop :=
  ∀ s : State, cipherConfigured s → windowInside s →
    let lw := 2 ^ (ciphLaneField s + 1)
    let n := s.ciphLen.toNat / lw
    ∃ m : Memory, exec .cipher s = .next { s with out := m, status := validStatus s }
      ∧ (∀ j < n, ((m.readLE .out (s.ciphOff.toNat + j * lw) lw : Nat) : Int)
          = cipherLane (ciphComb s) (s.out.readLE .out (s.ciphOff.toNat + j * lw) lw)
              (leValue (((keyBytes s (n * lw)).drop (j * lw)).take lw)) % 2 ^ (8 * lw))
      ∧ ∀ a, (a < s.ciphOff.toNat ∨ s.ciphOff.toNat + n * lw ≤ a) → m.read .out a = s.out.read .out a

/-- R280, R300: where CIPHER's configuration is illegal it raises IllegalCommand, else BoundsViolation where
its window leaves `OUT`; KEYGEN of the table raises IllegalCommand on a bad `KTLEN`. -/
def Obligations.CipherAndKeygenRejections : Prop :=
  ∀ s : State, (¬ cipherConfigured s → exec .cipher s = raisesOnly s 6)
    ∧ (cipherConfigured s → ¬ windowInside s → exec .cipher s = raisesOnly s 1)
    ∧ ((s.ktlen.toNat < 1 ∨ 256 < s.ktlen.toNat) → exec (.keygen .kt) s = raisesOnly s 6)

/-- R283, R285, R287: the key stream is the little-endian bytes of the successive LCG or Mersenne outputs, or
the table repeated. -/
def Obligations.KeyStreamIsTheGeneratorsBytes : Prop :=
  ∀ (s : State) (n : Nat), (keyBytes s n).length = n
    ∧ ∀ i < n,
      (ciphSource s = 0 →
          (keyBytes s n).getD i 0 = keyByte (lcgOutput s.lcgA s.lcgB s.seed (i / 4)) (i % 4))
        ∧ (ciphSource s = 1 →
          (keyBytes s n).getD i 0
            = keyByte ((mtWords (i / 4 + 1) (mtInit s.seed)).getD (i / 4) 0) (i % 4))
        ∧ (ciphSource s = 2 →
          (keyBytes s n).getD i 0 = s.kt[Fin.ofNat 256 (i % s.ktlen.toNat)])

/-- R286: the generator: initialisation by its recurrence, regeneration in place as the recurrence over the
old and the already regenerated entries, tempering, and `asr` as the spec defines it. The constants are the
spec's own general knowledge (notes/assumptions/15.md). -/
def Obligations.MersenneGeneratorIsTheRecurrence : Prop :=
  (∀ (x : Word) (n : Nat), 1 ≤ n → n ≤ 31 →
      x.sshiftRight n = x >>> n ||| (if x.msb then (0xFFFFFFFF : Word) <<< (32 - n) else 0))
    ∧ (∀ seed : Word, (mtInit seed).mti = 624 ∧ (mtInit seed).mt.length = 624
      ∧ (mtInit seed).mt.getD 0 0 = seed
      ∧ ∀ i, 1 ≤ i → i < 624 → (mtInit seed).mt.getD i 0 =
          1812433253 * ((mtInit seed).mt.getD (i - 1) 0
            ^^^ ((mtInit seed).mt.getD (i - 1) 0).sshiftRight 30) + BitVec.ofNat 32 i)
    ∧ (∀ mt : List Word, mt.length = 624 → (mtRegenerate mt).length = 624
      ∧ ∀ k < 624, (mtRegenerate mt).getD k 0 = twisted (mt.getD k 0)
          (if k + 1 < 624 then mt.getD (k + 1) 0 else (mtRegenerate mt).getD 0 0)
          (if k + 397 < 624 then mt.getD (k + 397) 0 else (mtRegenerate mt).getD (k - 227) 0))
    ∧ (∀ y : Word, mtTemper y =
      let a := y ^^^ y.sshiftRight 11
      let b := a ^^^ (a <<< 7 &&& 0x9D2C5680)
      let d := b ^^^ (b <<< 15 &&& 0xEFC60000)
      d ^^^ d.sshiftRight 18)
    ∧ ∀ (g : MtState) (n : Nat),
      (g.mti = 624 → mtWords (n + 1) g = mtWords (n + 1) { mt := mtRegenerate g.mt, mti := 0 })
        ∧ (g.mti ≠ 624 → mtWords (n + 1) g =
          mtTemper (g.mt.getD g.mti 0) :: mtWords n { g with mti := g.mti + 1 })

/-- R289: CIPHER with XOR twice, ADD then SUB, and SUB then ADD, with the other registers equal, restore
`OUT`; ADD twice does not in general. -/
def Obligations.CipherRoundTrips : Prop :=
  (∀ s : State, cipherConfigured s → windowInside s →
    ∃ t, exec .cipher s = .next t
      ∧ (ciphComb s = 0 → ∃ u, exec .cipher t = .next u ∧ ∀ a, u.out.read .out a = s.out.read .out a)
      ∧ (ciphComb s = 1 → ∃ u, exec .cipher { t with ciphCfg := t.ciphCfg &&& 0x0F ||| 0x20 } = .next u
        ∧ ∀ a, u.out.read .out a = s.out.read .out a)
      ∧ (ciphComb s = 2 → ∃ u, exec .cipher { t with ciphCfg := t.ciphCfg &&& 0x0F ||| 0x10 } = .next u
        ∧ ∀ a, u.out.read .out a = s.out.read .out a))
    ∧ ∃ s t u, cipherConfigured s ∧ windowInside s ∧ ciphComb s = 1 ∧ exec .cipher s = .next t
      ∧ exec .cipher t = .next u ∧ ∃ a, u.out.read .out a ≠ s.out.read .out a

/-- R300: KEYGEN fills the first `KTLEN` bytes of the key table, or the seven key registers, from the LCG;
`DONE` is set and nothing else changes. -/
def Obligations.KeygenExpandsTheSeed : Prop :=
  ∀ s : State,
    (1 ≤ s.ktlen.toNat → s.ktlen.toNat ≤ 256 →
        ∃ kt, exec (.keygen .kt) s = .next { s with kt := kt, status := doneStatus s }
          ∧ ∀ i : Fin 256, kt[i] = if i.val < s.ktlen.toNat
              then keyByte (lcgOutput s.lcgA s.lcgB s.seed (i.val / 4)) (i.val % 4) else s.kt[i])
      ∧ ∃ kr, exec (.keygen .kr) s = .next { s with kr := kr, status := doneStatus s }
          ∧ ∀ j : Fin 7, lowHalf kr[j] = lcgOutput s.lcgA s.lcgB s.seed (2 * j.val)
              ∧ highHalf kr[j] = lcgOutput s.lcgA s.lcgB s.seed (2 * j.val + 1)

/-! ## The lane transform -/

/-- R314 to R317: the encodings of END, ADD, SUB and XOR, and their effect lane by lane on the destination
register; no other register, flag or byte changes. A micro-operation run alone is the model's form
(notes/assumptions/4.md). -/
def Obligations.MicroOperationsActPerLane : Prop :=
  (decodeLop 0x0000 = .ok .stop ∧ ∀ s, exec .lopEnd s = .next s)
    ∧ ∀ (w : LaneWidth) (d r : Fin 8),
      decodeLop (BitVec.ofNat 16 (0x2000 + w.toField * 2048 + d.val * 256 + r.val * 32)) = .ok (.add w d r)
        ∧ decodeLop (BitVec.ofNat 16 (0x4000 + w.toField * 2048 + d.val * 256 + r.val * 32))
          = .ok (.sub w d r)
        ∧ decodeLop (BitVec.ofNat 16 (0x6000 + w.toField * 2048 + d.val * 256 + r.val * 32))
          = .ok (.xor w d r)
        ∧ ∀ s : State,
          (∃ x, exec (.lopAdd w d r) s = .next { s with v := s.v.set d x }
              ∧ ∀ l < 64 / w.bits, laneOf w x l = (laneOf w s.v[d] l + laneOf w s.v[r] l) % 2 ^ w.bits)
            ∧ (∃ x, exec (.lopSub w d r) s = .next { s with v := s.v.set d x }
              ∧ ∀ l < 64 / w.bits, ((laneOf w x l : Nat) : Int)
                  = ((laneOf w s.v[d] l : Int) - (laneOf w s.v[r] l : Int)) % 2 ^ w.bits)
            ∧ exec (.lopXor w d r) s = .next { s with v := s.v.set d (s.v[d] ^^^ s.v[r]) }

/-- R113, R47: which slot words are illegal; a program is refused exactly where a slot up to its first END is
illegal, and consists of the slots before that END; slots after it have no effect. -/
def Obligations.IllegalMicroOpsAreRefused : Prop :=
  (∀ w : BitVec 16, (∃ e, decodeLop w = .error e) ↔ illegalSlotWord w)
    ∧ (∀ ws : List (BitVec 16),
      ((∃ e, lopProgram ws = .error e) ↔ ∃ w ∈ ws.takeWhile (fun w => w ≠ 0), illegalSlotWord w)
        ∧ ∀ os, lopProgram ws = .ok os → os.map encodeLop = ws.takeWhile (fun w => w ≠ 0))
    ∧ (∀ (s : State) (i : Fin 4), (lopSlots s).getD (2 * i.val) 0 = s.lprog[i].extractLsb' 0 16
      ∧ (lopSlots s).getD (2 * i.val + 1) 0 = s.lprog[i].extractLsb' 16 16)
    ∧ ∀ s : State, (∃ w ∈ (lopSlots s).takeWhile (fun w => w ≠ 0), illegalSlotWord w) →
      exec .lane s = raisesOnly s 6

/-- R312, R313, R319: LANE loads the key registers once, runs the program over each whole block in address
order with the registers the block before left, and stores `V0`; nothing outside the whole blocks changes.
A window that leaves `OUT` raises BoundsViolation, an illegal `OUT_LEN` IllegalCommand. -/
def Obligations.LaneRunsTheProgramOverBlocks : Prop :=
  ∀ (s : State) (os : List LaneOp), lopProgram (lopSlots s) = .ok os →
    (2 ^ 31 - 1 < s.outLen.toNat → exec .lane s = raisesOnly s 6)
      ∧ (s.outLen.toNat ≤ 2 ^ 31 - 1 → ¬ windowInside s → exec .lane s = raisesOnly s 1)
      ∧ (s.outLen.toNat ≤ 2 ^ 31 - 1 → windowInside s →
        ∃ (vs : Nat → Vector DWord 8) (m : Memory),
          exec .lane s = .next { s with
              v := vs (s.ciphLen.toNat / 8), out := m, status := validStatus s }
            ∧ (vs 0)[0] = s.v[0] ∧ (∀ j : Fin 7, (vs 0)[j.val + 1] = s.kr[j])
            ∧ (∀ b < s.ciphLen.toNat / 8,
              vs (b + 1) = os.foldl (fun v o => lopApply o v)
                  ((vs b).set 0 (BitVec.ofNat 64 (s.out.readLE .out (s.ciphOff.toNat + 8 * b) 8)))
                ∧ m.readLE .out (s.ciphOff.toNat + 8 * b) 8 = (vs (b + 1))[0].toNat)
            ∧ ∀ a, (a < s.ciphOff.toNat ∨ s.ciphOff.toNat + 8 * (s.ciphLen.toNat / 8) ≤ a) →
              m.read .out a = s.out.read .out a)

/-- R318: a program whose operations change `V0` only, by key registers, is undone by the program of inverse
operations in reverse order. -/
def Obligations.InverseProgramRestoresOut : Prop :=
  ∀ (s : State) (os : List LaneOp) (p : Vector Word 4), s.outLen.toNat ≤ 2 ^ 31 - 1 → windowInside s →
    lopProgram (lopSlots s) = .ok os → os.all keyed = true →
    lopProgram (lopSlots { s with lprog := p }) = .ok ((os.map inverseOp).reverse) →
      ∃ t u, exec .lane s = .next t ∧ exec .lane { t with lprog := p } = .next u
        ∧ ∀ a, u.out.read .out a = s.out.read .out a

/-! ## The whole machine -/

/-- R135, R345: every step, and every instruction in every state, answers a next state. That a token, element,
pair or micro-operation runs alone is the model's form, the end of a decode rests on its fuel, and the idle
step is its deduction (notes/assumptions/4.md, 10.md, 12.md). -/
def Obligations.EveryStepAnswersANextState : Prop :=
  (∀ s : State, ∃ t, step s = .next t) ∧ ∀ (i : Instr) (s : State), ∃ t, exec i s = .next t

/-- R22, R71, R82: only the instructions the register map lists write each register, among the cursor's
`CUR_MODE` and `CUR_BPOS` too; no instruction writes `SRC`, and no instruction but SRESET a configuration
register. The map lists commands; what a token, element, pair or micro-operation run alone writes is the
model's form (notes/assumptions/4.md). -/
def Obligations.OnlyListedInstructionsWriteEachRegister : Prop :=
  ∀ (i : Instr) (s t : State), exec i s = .next t →
    t.src = s.src
      ∧ (i ≠ .sreset → t = { s with
            status := t.status, cur := t.cur, curResult := t.curResult, opos := t.opos
            vstate := t.vstate, out := t.out, kr := t.kr, kt := t.kt, v := t.v }
          ∧ (writesCursor i = false → t.cur = s.cur)
          ∧ (writesMode i = false → t.cur.mode = s.cur.mode)
          ∧ (i = .bcalign → t.cur.bpos = s.cur.bpos)
          ∧ (writesResult i = false → t.curResult = s.curResult)
          ∧ (writesOpos i = false → t.opos = s.opos)
          ∧ (i ≠ .probe → t.vstate = s.vstate)
          ∧ (writesOut i = false → t.out = s.out)
          ∧ (writesKeys i = false → t.kr = s.kr ∧ t.kt = s.kt)
          ∧ (writesVectors i = false → t.v = s.v))

/-- R353, R76: no command reads `SRC` at or past `SRC_LEN` or `OUT` at or past `OUT_LEN`: states that differ
there only lead to states that differ there only; and none writes `OUT` at or past `OUT_LEN`. -/
def Obligations.CommandsStayInsideTheLengths : Prop :=
  ∀ (i : Instr) (s s' : State), isCommand i = true → sameInside s s' →
    ∃ t t', exec i s = .next t ∧ exec i s' = .next t'
      ∧ t' = { t with src := t'.src, out := t'.out }
      ∧ (∀ a < s.outLen.toNat, t'.out.read .out a = t.out.read .out a)
      ∧ (∀ a, s.outLen.toNat ≤ a → t.out.read .out a = s.out.read .out a)

/-- The reset state meets the invariant. -/
def Obligations.ResetMeetsTheInvariant : Prop := State.Inv State.reset

/-- R21, R26, R340: every step keeps both memories in canonical form, the reserved register bits 0 and
`STATUS` in a legal combination of flags and codes. -/
def Obligations.StepKeepsTheInvariant : Prop :=
  ∀ s t : State, State.Inv s → step s = .next t → State.Inv t
end

