-- ==== Sys2Proof/Laws/Cursor.lean ====
section
/-! SUPPORT. The laws of the BitCursor: what a read of `n` bits returns and leaves, in terms of the single
bits it consumes. -/

namespace Sys2Proof

/-- The cursor after `n` bits. -/
def afterTake1 (e : Reader) (n : Nat) (c : BitCursor) : BitCursor := (fun c => (take1 e c).2)^[n] c

/-- The `n` bits the cursor hands out next. -/
def takenBits (e : Reader) : Nat → BitCursor → List Bool
  | 0, _ => []
  | n + 1, c => (take1 e c).1 :: takenBits e n (take1 e c).2

@[simp] theorem afterTake1_zero (e : Reader) (c : BitCursor) : afterTake1 e 0 c = c := rfl

theorem afterTake1_succ (e : Reader) (n : Nat) (c : BitCursor) :
    afterTake1 e (n + 1) c = afterTake1 e n (take1 e c).2 := rfl

theorem afterTake1_add (e : Reader) (n m : Nat) (c : BitCursor) :
    afterTake1 e (n + m) c = afterTake1 e m (afterTake1 e n c) := by
  rw [afterTake1, Nat.add_comm, Function.iterate_add_apply]; rfl

@[simp] theorem length_takenBits (e : Reader) (n : Nat) (c : BitCursor) :
    (takenBits e n c).length = n := by
  induction n generalizing c with
  | zero => rfl
  | succ n ih => simp [takenBits, ih]

theorem takenBits_add (e : Reader) (n m : Nat) (c : BitCursor) :
    takenBits e (n + m) c = takenBits e n c ++ takenBits e m (afterTake1 e n c) := by
  induction n generalizing c with
  | zero => simp [takenBits]
  | succ n ih =>
    rw [show n + 1 + m = (n + m) + 1 by omega, takenBits, takenBits, ih, afterTake1_succ]
    rfl

@[simp] theorem bitsValue_nil (o : BitOrder) : bitsValue o [] = 0 := by cases o <;> rfl

theorem bitsValue_msb_cons (b : Bool) (bs : List Bool) :
    bitsValue .msb (b :: bs) = b.toNat * 2 ^ bs.length + bitsValue .msb bs := rfl

theorem bitsValue_lsb_cons (b : Bool) (bs : List Bool) :
    bitsValue .lsb (b :: bs) = b.toNat + 2 * bitsValue .lsb bs := rfl

theorem bitsValue_lt (o : BitOrder) (bs : List Bool) : bitsValue o bs < 2 ^ bs.length := by
  induction bs with
  | nil => simp
  | cons b bs ih =>
    have hb := Bool.toNat_le b
    rw [List.length_cons, pow_succ]
    cases o
    · rw [bitsValue_msb_cons]; nlinarith
    · rw [bitsValue_lsb_cons]; omega

theorem bitsValue_msb_append (xs ys : List Bool) :
    bitsValue .msb (xs ++ ys) = bitsValue .msb xs * 2 ^ ys.length + bitsValue .msb ys := by
  induction xs with
  | nil => simp
  | cons b xs ih =>
    rw [List.cons_append, bitsValue_msb_cons, bitsValue_msb_cons, ih, List.length_append, pow_add]; ring

theorem bitsValue_lsb_append (xs ys : List Bool) :
    bitsValue .lsb (xs ++ ys) = bitsValue .lsb xs + 2 ^ xs.length * bitsValue .lsb ys := by
  induction xs with
  | nil => simp
  | cons b xs ih =>
    rw [List.cons_append, bitsValue_lsb_cons, bitsValue_lsb_cons, ih, List.length_cons, pow_succ]; ring

theorem takeLoop_cursor (e : Reader) (k i r : Nat) (c : BitCursor) :
    (takeLoop e k i r c).2 = afterTake1 e k c := by
  induction k generalizing i r c with
  | zero => rfl
  | succ k ih => rw [takeLoop, ih, afterTake1_succ]

theorem takeLoop_value_msb (e : Reader) (h : e.order = .msb) (k i r : Nat) (c : BitCursor) :
    (takeLoop e k i r c).1 = r * 2 ^ k + bitsValue .msb (takenBits e k c) := by
  induction k generalizing i r c with
  | zero => simp [takeLoop, takenBits]
  | succ k ih =>
    rw [takeLoop, ih, takenBits, bitsValue_msb_cons, length_takenBits, h, joinBit, pow_succ]; ring

theorem takeLoop_value_lsb (e : Reader) (h : e.order = .lsb) (k i r : Nat) (c : BitCursor) :
    (takeLoop e k i r c).1 = r + 2 ^ i * bitsValue .lsb (takenBits e k c) := by
  induction k generalizing i r c with
  | zero => simp [takeLoop, takenBits]
  | succ k ih =>
    rw [takeLoop, ih, takenBits, bitsValue_lsb_cons, h, joinBit, pow_succ]; ring

/-- The spec lemma of `take`: the number its bits spell in the cursor's order, and the cursor after them
(41_bitcursor.md R153). -/
theorem take_eq (e : Reader) (n : Nat) (c : BitCursor) :
    take e n c = (bitsValue e.order (takenBits e n c), afterTake1 e n c) := by
  refine Prod.ext ?_ (takeLoop_cursor e n 0 0 c)
  rcases h : e.order with _ | _
  · simp [take, takeLoop_value_msb e h]
  · simp [take, takeLoop_value_lsb e h]

@[simp] theorem take_cursor (e : Reader) (n : Nat) (c : BitCursor) : (take e n c).2 = afterTake1 e n c := by
  rw [take_eq]

theorem take_value (e : Reader) (n : Nat) (c : BitCursor) :
    (take e n c).1 = bitsValue e.order (takenBits e n c) := by rw [take_eq]

theorem take_lt (e : Reader) (n : Nat) (c : BitCursor) : (take e n c).1 < 2 ^ n := by
  have h := bitsValue_lt e.order (takenBits e n c)
  rwa [length_takenBits, ← take_value] at h

/-- One more bit than `n`: the spec lemma's step. -/
theorem take_one (e : Reader) (c : BitCursor) : take e 1 c = ((take1 e c).1.toNat, (take1 e c).2) := by
  rw [take_eq]
  cases h : e.order <;> simp [takenBits, bitsValue_msb_cons, bitsValue_lsb_cons, afterTake1]

/-- `peek` is `take` without its cursor (41_bitcursor.md R154). -/
theorem peek_eq (e : Reader) (n : Nat) (c : BitCursor) : peek e n c = (take e n c).1 := rfl

/-! ## What a single bit leaves -/

@[simp] theorem ensureBit_mode (e : Reader) (c : BitCursor) : (ensureBit e c).mode = c.mode := by
  unfold ensureBit; split <;> rfl

@[simp] theorem dropBit_mode (o : BitOrder) (c : BitCursor) : (dropBit o c).mode = c.mode := by
  cases o <;> rfl

@[simp] theorem dropBit_bpos (o : BitOrder) (c : BitCursor) : (dropBit o c).bpos = c.bpos := by
  cases o <;> rfl

@[simp] theorem dropBit_cbits (o : BitOrder) (c : BitCursor) : (dropBit o c).cbits = c.cbits - 1 := by
  cases o <;> rfl

@[simp] theorem take1_mode (e : Reader) (c : BitCursor) : (take1 e c).2.mode = c.mode := by
  simp [take1]

@[simp] theorem afterTake1_mode (e : Reader) (n : Nat) (c : BitCursor) :
    (afterTake1 e n c).mode = c.mode := by
  induction n generalizing c with
  | zero => rfl
  | succ n ih => rw [afterTake1_succ, ih, take1_mode]

/-- After the first line of `take1` the cache holds a bit, and the bit position is as before, where the
32-bit byte position does not wrap (41_bitcursor.md R151, R157). -/
theorem bitpos_ensureBit (e : Reader) (c : BitCursor) (h : c.bpos.toNat + 4 < 2 ^ 32) :
    bitpos (ensureBit e c) = bitpos c ∧ (ensureBit e c).cbits ≠ 0 := by
  unfold ensureBit
  split
  · rename_i hc
    unfold bitpos refill
    rw [hc]
    cases hw : e.width <;> simp [RefillWidth.bytes, BitVec.toNat_add] <;> omega
  · exact ⟨rfl, ‹_›⟩

/-- A bit consumed moves the bit position by one (41_bitcursor.md R157). -/
theorem bitpos_take1 (e : Reader) (c : BitCursor) (h : c.bpos.toNat + 4 < 2 ^ 32) :
    bitpos (take1 e c).2 = bitpos c + 1 := by
  obtain ⟨h1, h2⟩ := bitpos_ensureBit e c h
  rw [← h1]
  have h3 : (ensureBit e c).cbits.toNat ≠ 0 := fun h0 => h2 (BitVec.eq_of_toNat_eq (by simpa using h0))
  have h4 := (ensureBit e c).cbits.isLt
  simp only [take1, bitpos, dropBit_bpos, dropBit_cbits]
  rw [BitVec.toNat_sub]
  simp
  omega

end Sys2Proof
end

