-- ==== Sys2Proof/Laws/Memory.lean ====
section
/-! SUPPORT. The laws of a byte memory: what each operation leaves at every address, and that each keeps
the canonical form. -/

namespace Sys2Proof

@[simp] theorem Memory.listed_nil (a : Nat) : Memory.listed [] a = none := rfl

theorem Memory.listed_cons (a' : Nat) (b : Byte) (m : Memory) (a : Nat) :
    Memory.listed ((a', b) :: m) a = if a = a' then some b else m.listed a := rfl

/-! ## Reads -/

theorem Memory.read_of_listed (sp : Space) (m : Memory) (a : Nat) (b : Byte) (h : m.listed a = some b) :
    m.read sp a = b := by rw [Memory.read, h]; rfl

/-- Memories that list the same byte at an address read alike there. -/
theorem Memory.read_congr (sp : Space) (m m' : Memory) (a : Nat) (h : m.listed a = m'.listed a) :
    m.read sp a = m'.read sp a := by rw [Memory.read, Memory.read, h]

theorem Memory.listed_append (m m' : Memory) (a : Nat) :
    Memory.listed (m ++ m') a = (m.listed a).or (m'.listed a) := by
  induction m with
  | nil => rfl
  | cons c m ih =>
    obtain ⟨a', b'⟩ := c
    rw [List.cons_append, Memory.listed_cons, Memory.listed_cons, ih]
    split <;> rfl

theorem Memory.listed_filter (m : Memory) (p : Nat → Bool) (x : Nat) :
    Memory.listed (m.filter (fun c => p c.1)) x = if p x then m.listed x else none := by
  induction m with
  | nil => simp
  | cons c m ih =>
    obtain ⟨a', b'⟩ := c
    by_cases hp : p a'
    · rw [List.filter_cons_of_pos (by simpa using hp), Memory.listed_cons, Memory.listed_cons, ih]
      by_cases hx : x = a'
      · subst hx; simp [hp]
      · simp [hx]
    · rw [List.filter_cons_of_neg (by simpa using hp), ih, Memory.listed_cons]
      by_cases hx : x = a'
      · subst hx; simp [hp]
      · simp [hx]

/-- The law of one store: its byte listed at its address, every other address as before. -/
theorem Memory.listed_write (m : Memory) (a : Nat) (b : Byte) (x : Nat) :
    (m.write a b).listed x = if x = a then some b else m.listed x := by
  induction m with
  | nil => rfl
  | cons c m ih =>
    obtain ⟨a', b'⟩ := c
    unfold Memory.write
    by_cases hlt : a < a'
    · rw [if_pos hlt, Memory.listed_cons]
    · rw [if_neg hlt]
      by_cases heq : a = a'
      · subst heq
        rw [if_pos rfl, Memory.listed_cons, Memory.listed_cons]
        split <;> rfl
      · rw [if_neg heq, Memory.listed_cons, ih, Memory.listed_cons]
        by_cases hx : x = a'
        · subst hx; rw [if_pos rfl, if_neg (Ne.symm heq), if_pos rfl]
        · rw [if_neg hx, if_neg hx]

/-- The law of one store: the byte stored at its address, every other address as before. -/
theorem Memory.read_write (sp : Space) (m : Memory) (a : Nat) (b : Byte) (x : Nat) :
    (m.write a b).read sp x = if x = a then b else m.read sp x := by
  rw [Memory.read, Memory.listed_write]
  split <;> rfl

@[simp] theorem Memory.read_write_self (sp : Space) (m : Memory) (a : Nat) (b : Byte) : (m.write a b).read sp a = b := by
  simp [Memory.read_write]

theorem Memory.read_write_other (sp : Space) (m : Memory) (a : Nat) (b : Byte) (x : Nat) (h : x ≠ a) :
    (m.write a b).read sp x = m.read sp x := by simp [Memory.read_write, h]

@[simp] theorem Memory.writeBytes_nil (m : Memory) (a : Nat) : m.writeBytes a [] = m := rfl

theorem Memory.writeBytes_cons (m : Memory) (a : Nat) (b : Byte) (bs : List Byte) :
    m.writeBytes a (b :: bs) = (m.write a b).writeBytes (a + 1) bs := rfl

/-- The law of a multi-byte store: byte `i` at `a + i`, every other address as before. -/
theorem Memory.read_writeBytes (sp : Space) (m : Memory) (a : Nat) (bs : List Byte) (x : Nat) :
    (m.writeBytes a bs).read sp x = if a ≤ x ∧ x < a + bs.length then bs.getD (x - a) 0 else m.read sp x := by
  induction bs generalizing m a with
  | nil =>
    rw [Memory.writeBytes_nil]
    have : ¬ (a ≤ x ∧ x < a + ([] : List Byte).length) := by simp only [List.length_nil]; omega
    rw [if_neg this]
  | cons b bs ih =>
    rw [Memory.writeBytes_cons, ih, Memory.read_write]
    simp only [List.length_cons]
    by_cases h1 : x = a
    · subst h1
      rw [if_neg (by omega), if_pos rfl, if_pos (by omega)]
      simp
    · by_cases h2 : a + 1 ≤ x ∧ x < a + 1 + bs.length
      · rw [if_pos h2, if_pos (by omega)]
        obtain ⟨k, hk⟩ : ∃ k, x - a = k + 1 := ⟨x - a - 1, by omega⟩
        have hk' : x - (a + 1) = k := by omega
        rw [hk, hk']
        simp
      · rw [if_neg h2, if_neg h1, if_neg (by omega)]

theorem Memory.read_writeBytes_outside (sp : Space) (m : Memory) (a : Nat) (bs : List Byte) (x : Nat)
    (h : x < a ∨ a + bs.length ≤ x) : (m.writeBytes a bs).read sp x = m.read sp x := by
  rw [Memory.read_writeBytes, if_neg (by omega)]

theorem Memory.length_readBytes (sp : Space) (m : Memory) (a n : Nat) : (m.readBytes sp a n).length = n := by
  induction n generalizing a with
  | zero => rfl
  | succ n ih => simp [Memory.readBytes, ih]

theorem Memory.getD_readBytes (sp : Space) (m : Memory) (a n i : Nat) (h : i < n) :
    (m.readBytes sp a n).getD i 0 = m.read sp (a + i) := by
  induction n generalizing a i with
  | zero => omega
  | succ n ih =>
    cases i with
    | zero => simp [Memory.readBytes]
    | succ i =>
      have := ih (a + 1) i (by omega)
      simp only [Memory.readBytes, List.getD_cons_succ, this]
      congr 1; omega

theorem length_leBytes (n v : Nat) : (leBytes n v).length = n := by
  induction n generalizing v with
  | zero => rfl
  | succ n ih => simp [leBytes, ih]

theorem leValue_leBytes (n v : Nat) : leValue (leBytes n v) = v % 2 ^ (8 * n) := by
  induction n generalizing v with
  | zero => simp [leBytes, leValue, Nat.mod_one]
  | succ n ih =>
    simp only [leBytes, leValue, ih, BitVec.toNat_ofNat]
    have h2 : 2 ^ (8 * (n + 1)) = 256 * 2 ^ (8 * n) := by
      rw [show 8 * (n + 1) = 8 + 8 * n by omega, pow_add]; norm_num
    rw [h2, Nat.mod_mul]

theorem leValue_lt (bs : List Byte) : leValue bs < 2 ^ (8 * bs.length) := by
  induction bs with
  | nil => simp [leValue]
  | cons b bs ih =>
    have h2 : 2 ^ (8 * (b :: bs).length) = 256 * 2 ^ (8 * bs.length) := by
      rw [List.length_cons, show 8 * (bs.length + 1) = 8 + 8 * bs.length by omega, pow_add]; norm_num
    have hb := b.isLt
    simp only [leValue]
    omega

/-- The law of a little-endian store outside the stored bytes. -/
theorem Memory.read_writeLE_outside (sp : Space) (m : Memory) (a n v x : Nat) (h : x < a ∨ a + n ≤ x) :
    (m.writeLE a n v).read sp x = m.read sp x :=
  Memory.read_writeBytes_outside _ _ _ _ _ (by rw [length_leBytes]; exact h)

theorem Memory.readBytes_congr (sp : Space) (m m' : Memory) (a n : Nat) (h : ∀ x, a ≤ x → x < a + n → m.read sp x = m'.read sp x) :
    m.readBytes sp a n = m'.readBytes sp a n := by
  induction n generalizing a with
  | zero => rfl
  | succ n ih =>
    simp only [Memory.readBytes]
    rw [h a (by omega) (by omega), ih (a + 1) (fun x h1 h2 => h x (by omega) (by omega))]

theorem Memory.readBytes_writeBytes (sp : Space) (m : Memory) (a : Nat) (bs : List Byte) :
    (m.writeBytes a bs).readBytes sp a bs.length = bs := by
  induction bs generalizing m a with
  | nil => rfl
  | cons b bs ih =>
    simp only [List.length_cons, Memory.readBytes]
    rw [Memory.writeBytes_cons, Memory.read_writeBytes_outside _ _ _ _ _ (by omega), ih]
    simp

/-- The law of a little-endian store inside the stored bytes. -/
theorem Memory.readLE_writeLE (sp : Space) (m : Memory) (a n v : Nat) :
    (m.writeLE a n v).readLE sp a n = v % 2 ^ (8 * n) := by
  have h := Memory.readBytes_writeBytes sp m a (leBytes n v)
  rw [length_leBytes] at h
  rw [Memory.readLE, Memory.writeLE, h, leValue_leBytes]

theorem Memory.readLE_congr (sp : Space) (m m' : Memory) (a n : Nat)
    (h : ∀ x, a ≤ x → x < a + n → m.read sp x = m'.read sp x) : m.readLE sp a n = m'.readLE sp a n := by
  rw [Memory.readLE, Memory.readLE, Memory.readBytes_congr sp m m' a n h]

theorem Memory.readLE_lt (sp : Space) (m : Memory) (a n : Nat) : m.readLE sp a n < 2 ^ (8 * n) := by
  have h := leValue_lt (m.readBytes sp a n)
  rwa [Memory.length_readBytes] at h

theorem Memory.listed_zeros (n x : Nat) :
    Memory.listed ((List.range n).map (fun a => (a, 0))) x = if x < n then some 0 else none := by
  induction n with
  | zero => rfl
  | succ n ih =>
    rw [List.range_succ, List.map_append, Memory.listed_append, ih, List.map_singleton, Memory.listed_cons,
      Memory.listed_nil]
    by_cases h1 : x < n
    · rw [if_pos h1, if_pos (show x < n + 1 by omega)]; rfl
    · rw [if_neg h1]
      by_cases h2 : x = n
      · rw [if_pos h2, if_pos (show x < n + 1 by omega)]; rfl
      · rw [if_neg h2, if_neg (show ¬ x < n + 1 by omega)]; rfl

theorem Memory.listed_zeroFill (m : Memory) (n x : Nat) :
    (m.zeroFill n).listed x = if x < n then some 0 else m.listed x := by
  have h := Memory.listed_filter m (fun y => decide (n ≤ y)) x
  rw [Memory.zeroFill, Memory.listed_append, Memory.listed_zeros, h]
  by_cases hx : x < n
  · rw [if_pos hx, if_pos hx]; rfl
  · simp [hx, Nat.le_of_not_lt hx]

/-- The law of zero-initialisation (20_memory.md R84). -/
theorem Memory.read_zeroFill (sp : Space) (m : Memory) (n x : Nat) :
    (m.zeroFill n).read sp x = if x < n then 0 else m.read sp x := by
  rw [Memory.read, Memory.listed_zeroFill]
  split <;> rfl

theorem Memory.filter_write (m : Memory) (n a : Nat) (b : Byte) (h : a < n) :
    (m.write a b).filter (fun c => decide (n ≤ c.1)) = m.filter (fun c => decide (n ≤ c.1)) := by
  have hd : ∀ (b' : Byte) (l : Memory), List.filter (fun c : Host.Cell => decide (n ≤ c.1)) ((a, b') :: l)
      = List.filter (fun c => decide (n ≤ c.1)) l :=
    fun _ _ => List.filter_cons_of_neg (by simpa using h)
  induction m with
  | nil => exact hd b []
  | cons c m ih =>
    obtain ⟨a', b'⟩ := c
    unfold Memory.write
    by_cases hlt : a < a'
    · rw [if_pos hlt, hd]
    · rw [if_neg hlt]
      by_cases heq : a = a'
      · subst heq; rw [if_pos rfl, hd, hd]
      · rw [if_neg heq, List.filter_cons, List.filter_cons, ih]

/-- A store below `n` is gone after the zero-fill up to `n`. -/
theorem Memory.zeroFill_write (m : Memory) (n a : Nat) (b : Byte) (h : a < n) :
    (m.write a b).zeroFill n = m.zeroFill n := by
  rw [Memory.zeroFill, Memory.filter_write m n a b h]; rfl

/-- The copy loop leaves every byte outside its destination as it was (42_overlapcopy.md R171). -/
theorem Memory.read_copyUp_outside (sp : Space) (m : Memory) (src dst len x : Nat) (h : x < dst ∨ dst + len ≤ x) :
    (m.copyUp src dst len).read sp x = m.read sp x := by
  induction len generalizing m src dst with
  | zero => rfl
  | succ len ih =>
    simp only [Memory.copyUp]
    rw [ih _ _ _ (by omega), Memory.read_write_other _ _ _ _ _ (by omega)]

/-! ## The canonical form -/

theorem Memory.wfFrom_cons (lo a : Nat) (b : Byte) (m : Memory) :
    Memory.wfFrom lo ((a, b) :: m) = true ↔ lo ≤ a ∧ a < 2 ^ 32 ∧ Memory.wfFrom (a + 1) m = true := by
  simp [Memory.wfFrom, and_assoc]

theorem Memory.wfFrom_mono {lo lo' : Nat} (m : Memory) (hl : lo' ≤ lo) (h : Memory.wfFrom lo m = true) :
    Memory.wfFrom lo' m = true := by
  cases m with
  | nil => rfl
  | cons c m =>
    obtain ⟨a, b⟩ := c
    rw [Memory.wfFrom_cons] at h ⊢
    exact ⟨by omega, h.2⟩

theorem Memory.lo_le_of_mem (lo : Nat) (m : Memory) (h : Memory.wfFrom lo m = true) (c : Host.Cell)
    (hc : c ∈ m) : lo ≤ c.1 := by
  induction m generalizing lo with
  | nil => simp at hc
  | cons d m ih =>
    obtain ⟨a, b⟩ := d
    rw [Memory.wfFrom_cons] at h
    rcases List.mem_cons.mp hc with rfl | hc
    · exact h.1
    · have := ih _ h.2.2 hc
      omega

theorem Memory.wfFrom_filter (lo n : Nat) (m : Memory) (h : Memory.wfFrom lo m = true) :
    Memory.wfFrom n (m.filter (fun c => decide (n ≤ c.1))) = true := by
  induction m generalizing lo n with
  | nil => rfl
  | cons c m ih =>
    obtain ⟨a, b⟩ := c
    rw [Memory.wfFrom_cons] at h
    by_cases hn : n ≤ a
    · have hall : m.filter (fun c => decide (n ≤ c.1)) = m.filter (fun c => decide (a + 1 ≤ c.1)) :=
        List.filter_congr fun c hc => by
          have := Memory.lo_le_of_mem (a + 1) m h.2.2 c hc
          rw [decide_eq_decide]; omega
      rw [List.filter_cons_of_pos (by simpa using hn), Memory.wfFrom_cons, hall]
      exact ⟨hn, h.2.1, ih _ _ h.2.2⟩
    · rw [List.filter_cons_of_neg (by simpa using hn)]
      exact ih _ _ h.2.2

theorem Memory.wfFrom_write (lo : Nat) (m : Memory) (a : Nat) (b : Byte) (ha : a < 2 ^ 32) (hlo : lo ≤ a)
    (h : Memory.wfFrom lo m = true) : Memory.wfFrom lo (m.write a b) = true := by
  induction m generalizing lo with
  | nil => rw [Memory.write, Memory.wfFrom_cons]; exact ⟨hlo, ha, rfl⟩
  | cons c m ih =>
    obtain ⟨a', b'⟩ := c
    rw [Memory.wfFrom_cons] at h
    unfold Memory.write
    by_cases hlt : a < a'
    · rw [if_pos hlt, Memory.wfFrom_cons, Memory.wfFrom_cons]
      exact ⟨hlo, ha, by omega, h.2.1, h.2.2⟩
    · rw [if_neg hlt]
      by_cases heq : a = a'
      · subst heq; rw [if_pos rfl, Memory.wfFrom_cons]; exact ⟨hlo, ha, h.2.2⟩
      · rw [if_neg heq, Memory.wfFrom_cons]
        exact ⟨h.1, h.2.1, ih _ (by omega) h.2.2⟩

/-- A store keeps the canonical form. -/
theorem Memory.wf_write (m : Memory) (a : Nat) (b : Byte) (ha : a < 2 ^ 32) (h : m.wf = true) :
    (m.write a b).wf = true :=
  Memory.wfFrom_write 0 m a b ha (Nat.zero_le a) h

/-- A multi-byte store keeps the canonical form. -/
theorem Memory.wf_writeBytes (m : Memory) (a : Nat) (bs : List Byte) (ha : a + bs.length ≤ 2 ^ 32)
    (h : m.wf = true) : (m.writeBytes a bs).wf = true := by
  induction bs generalizing m a with
  | nil => exact h
  | cons b bs ih =>
    simp only [List.length_cons] at ha
    exact ih _ _ (by omega) (Memory.wf_write m a b (by omega) h)

/-- A little-endian store keeps the canonical form. -/
theorem Memory.wf_writeLE (m : Memory) (a n v : Nat) (ha : a + n ≤ 2 ^ 32) (h : m.wf = true) :
    (m.writeLE a n v).wf = true :=
  Memory.wf_writeBytes m a _ (by rw [length_leBytes]; exact ha) h

theorem Memory.wfFrom_zeros (lo n : Nat) (m : Memory) (hn : lo + n ≤ 2 ^ 32)
    (h : Memory.wfFrom (lo + n) m = true) :
    Memory.wfFrom lo ((List.range' lo n).map (fun a => (a, 0)) ++ m) = true := by
  induction n generalizing lo with
  | zero => exact h
  | succ n ih =>
    rw [List.range'_succ, List.map_cons, List.cons_append, Memory.wfFrom_cons]
    exact ⟨Nat.le_refl _, by omega, ih (lo + 1) (by omega) (by rwa [show lo + 1 + n = lo + (n + 1) by omega])⟩

/-- Zero-initialisation keeps the canonical form. -/
theorem Memory.wf_zeroFill (m : Memory) (n : Nat) (hn : n ≤ 2 ^ 32) (h : m.wf = true) :
    (m.zeroFill n).wf = true := by
  rw [Memory.wf, Memory.zeroFill, List.range_eq_range']
  exact Memory.wfFrom_zeros 0 n _ (by omega)
    (by rw [Nat.zero_add]; exact Memory.wfFrom_filter 0 n m h)

/-- The copy loop keeps the canonical form. -/
theorem Memory.wf_copyUp (m : Memory) (src dst len : Nat) (ha : dst + len ≤ 2 ^ 32) (h : m.wf = true) :
    (m.copyUp src dst len).wf = true := by
  induction len generalizing m src dst with
  | zero => exact h
  | succ len ih => exact ih _ _ _ (by omega) (Memory.wf_write m dst _ (by omega) h)

/-- Placed bytes are in canonical form. -/
theorem Memory.wf_ofBytes (bs : List Byte) (ha : bs.length ≤ 2 ^ 32) : (Memory.ofBytes bs).wf = true :=
  Memory.wf_writeBytes [] 0 bs (by omega) rfl

theorem Memory.listed_of_lt (lo : Nat) (m : Memory) (h : Memory.wfFrom lo m = true) (x : Nat) (hx : x < lo) :
    m.listed x = none := by
  induction m generalizing lo with
  | nil => rfl
  | cons c m ih =>
    obtain ⟨a, b⟩ := c
    rw [Memory.wfFrom_cons] at h
    rw [Memory.listed_cons, if_neg (by omega)]
    exact ih _ h.2.2 (by omega)

/-- Canonical memories that list the same bytes are equal data. -/
theorem Memory.eq_of_listed_eq (lo : Nat) (m m' : Memory) (h : Memory.wfFrom lo m = true)
    (h' : Memory.wfFrom lo m' = true) (heq : ∀ x, m.listed x = m'.listed x) : m = m' := by
  induction m generalizing lo m' with
  | nil =>
    cases m' with
    | nil => rfl
    | cons c m' =>
      have := heq c.1
      simp [Memory.listed] at this
  | cons c m ih =>
    obtain ⟨a, b⟩ := c
    rw [Memory.wfFrom_cons] at h
    cases m' with
    | nil =>
      have := heq a
      simp [Memory.listed] at this
    | cons c' m' =>
      obtain ⟨a', b'⟩ := c'
      rw [Memory.wfFrom_cons] at h'
      have ha : a = a' := by
        rcases Nat.lt_trichotomy a a' with hlt | heq' | hgt
        · have := heq a
          rw [Memory.listed_cons, if_pos rfl, Memory.listed_cons, if_neg (by omega),
            Memory.listed_of_lt _ _ h'.2.2 _ (by omega)] at this
          simp at this
        · exact heq'
        · have := heq a'
          rw [Memory.listed_cons, if_neg (by omega), Memory.listed_of_lt _ _ h.2.2 _ (by omega),
            Memory.listed_cons, if_pos rfl] at this
          simp at this
      subst ha
      have hb := heq a
      rw [Memory.listed_cons, if_pos rfl, Memory.listed_cons, if_pos rfl] at hb
      injection hb with hb
      subst hb
      congr 1
      refine ih (a + 1) m' h.2.2 h'.2.2 (fun x => ?_)
      by_cases hx : x = a
      · subst hx
        rw [Memory.listed_of_lt _ _ h.2.2 _ (by omega), Memory.listed_of_lt _ _ h'.2.2 _ (by omega)]
      · have := heq x
        rwa [Memory.listed_cons, if_neg hx, Memory.listed_cons, if_neg hx] at this

end Sys2Proof
end

