-- ==== Sys2Proof/Laws/State.lean ====
section
/-! SUPPORT. One lemma per field per update of the state, each true by `rfl`, so that no later proof unfolds
a record update. -/

namespace Sys2Proof.Machine

/-! ## `clearResultFlags` -/

@[simp] theorem clearResultFlags_cmd (s : State) : (clearResultFlags s).cmd = s.cmd := rfl
@[simp] theorem clearResultFlags_ie (s : State) : (clearResultFlags s).ie = s.ie := rfl
@[simp] theorem clearResultFlags_srcLen (s : State) : (clearResultFlags s).srcLen = s.srcLen := rfl
@[simp] theorem clearResultFlags_outLen (s : State) : (clearResultFlags s).outLen = s.outLen := rfl
@[simp] theorem clearResultFlags_opos (s : State) : (clearResultFlags s).opos = s.opos := rfl
@[simp] theorem clearResultFlags_cur (s : State) : (clearResultFlags s).cur = s.cur := rfl
@[simp] theorem clearResultFlags_curResult (s : State) : (clearResultFlags s).curResult = s.curResult := rfl
@[simp] theorem clearResultFlags_ocFrom (s : State) : (clearResultFlags s).ocFrom = s.ocFrom := rfl
@[simp] theorem clearResultFlags_ocTo (s : State) : (clearResultFlags s).ocTo = s.ocTo := rfl
@[simp] theorem clearResultFlags_ocLen (s : State) : (clearResultFlags s).ocLen = s.ocLen := rfl
@[simp] theorem clearResultFlags_vstate (s : State) : (clearResultFlags s).vstate = s.vstate := rfl
@[simp] theorem clearResultFlags_probeCfg (s : State) : (clearResultFlags s).probeCfg = s.probeCfg := rfl
@[simp] theorem clearResultFlags_fmt (s : State) : (clearResultFlags s).fmt = s.fmt := rfl
@[simp] theorem clearResultFlags_tagtab (s : State) : (clearResultFlags s).tagtab = s.tagtab := rfl
@[simp] theorem clearResultFlags_dpDim (s : State) : (clearResultFlags s).dpDim = s.dpDim := rfl
@[simp] theorem clearResultFlags_dpCfg (s : State) : (clearResultFlags s).dpCfg = s.dpCfg := rfl
@[simp] theorem clearResultFlags_seed (s : State) : (clearResultFlags s).seed = s.seed := rfl
@[simp] theorem clearResultFlags_lcgA (s : State) : (clearResultFlags s).lcgA = s.lcgA := rfl
@[simp] theorem clearResultFlags_lcgB (s : State) : (clearResultFlags s).lcgB = s.lcgB := rfl
@[simp] theorem clearResultFlags_ciphCfg (s : State) : (clearResultFlags s).ciphCfg = s.ciphCfg := rfl
@[simp] theorem clearResultFlags_ciphOff (s : State) : (clearResultFlags s).ciphOff = s.ciphOff := rfl
@[simp] theorem clearResultFlags_ciphLen (s : State) : (clearResultFlags s).ciphLen = s.ciphLen := rfl
@[simp] theorem clearResultFlags_ktlen (s : State) : (clearResultFlags s).ktlen = s.ktlen := rfl
@[simp] theorem clearResultFlags_lprog (s : State) : (clearResultFlags s).lprog = s.lprog := rfl
@[simp] theorem clearResultFlags_kr (s : State) : (clearResultFlags s).kr = s.kr := rfl
@[simp] theorem clearResultFlags_kt (s : State) : (clearResultFlags s).kt = s.kt := rfl
@[simp] theorem clearResultFlags_v (s : State) : (clearResultFlags s).v = s.v := rfl
@[simp] theorem clearResultFlags_src (s : State) : (clearResultFlags s).src = s.src := rfl
@[simp] theorem clearResultFlags_out (s : State) : (clearResultFlags s).out = s.out := rfl
@[simp] theorem clearResultFlags_host (s : State) : (clearResultFlags s).host = s.host := rfl
@[simp] theorem clearResultFlags_busData (s : State) : (clearResultFlags s).busData = s.busData := rfl

@[simp] theorem clearResultFlags_status_done (s : State) : (clearResultFlags s).status.done = false := rfl
@[simp] theorem clearResultFlags_status_err (s : State) : (clearResultFlags s).status.err = s.status.err := rfl
@[simp] theorem clearResultFlags_status_early (s : State) : (clearResultFlags s).status.early = false := rfl
@[simp] theorem clearResultFlags_status_ovalid (s : State) : (clearResultFlags s).status.ovalid = false := rfl
@[simp] theorem clearResultFlags_status_ecode (s : State) : (clearResultFlags s).status.ecode = s.status.ecode := rfl
@[simp] theorem clearResultFlags_status_subcode (s : State) : (clearResultFlags s).status.subcode = s.status.subcode := rfl
@[simp] theorem clearResultFlags_status_vused (s : State) : (clearResultFlags s).status.vused = 0 := rfl

/-! ## `finish` -/

@[simp] theorem finish_cmd (s : State) : (finish s).cmd = s.cmd := rfl
@[simp] theorem finish_ie (s : State) : (finish s).ie = s.ie := rfl
@[simp] theorem finish_srcLen (s : State) : (finish s).srcLen = s.srcLen := rfl
@[simp] theorem finish_outLen (s : State) : (finish s).outLen = s.outLen := rfl
@[simp] theorem finish_opos (s : State) : (finish s).opos = s.opos := rfl
@[simp] theorem finish_cur (s : State) : (finish s).cur = s.cur := rfl
@[simp] theorem finish_curResult (s : State) : (finish s).curResult = s.curResult := rfl
@[simp] theorem finish_ocFrom (s : State) : (finish s).ocFrom = s.ocFrom := rfl
@[simp] theorem finish_ocTo (s : State) : (finish s).ocTo = s.ocTo := rfl
@[simp] theorem finish_ocLen (s : State) : (finish s).ocLen = s.ocLen := rfl
@[simp] theorem finish_vstate (s : State) : (finish s).vstate = s.vstate := rfl
@[simp] theorem finish_probeCfg (s : State) : (finish s).probeCfg = s.probeCfg := rfl
@[simp] theorem finish_fmt (s : State) : (finish s).fmt = s.fmt := rfl
@[simp] theorem finish_tagtab (s : State) : (finish s).tagtab = s.tagtab := rfl
@[simp] theorem finish_dpDim (s : State) : (finish s).dpDim = s.dpDim := rfl
@[simp] theorem finish_dpCfg (s : State) : (finish s).dpCfg = s.dpCfg := rfl
@[simp] theorem finish_seed (s : State) : (finish s).seed = s.seed := rfl
@[simp] theorem finish_lcgA (s : State) : (finish s).lcgA = s.lcgA := rfl
@[simp] theorem finish_lcgB (s : State) : (finish s).lcgB = s.lcgB := rfl
@[simp] theorem finish_ciphCfg (s : State) : (finish s).ciphCfg = s.ciphCfg := rfl
@[simp] theorem finish_ciphOff (s : State) : (finish s).ciphOff = s.ciphOff := rfl
@[simp] theorem finish_ciphLen (s : State) : (finish s).ciphLen = s.ciphLen := rfl
@[simp] theorem finish_ktlen (s : State) : (finish s).ktlen = s.ktlen := rfl
@[simp] theorem finish_lprog (s : State) : (finish s).lprog = s.lprog := rfl
@[simp] theorem finish_kr (s : State) : (finish s).kr = s.kr := rfl
@[simp] theorem finish_kt (s : State) : (finish s).kt = s.kt := rfl
@[simp] theorem finish_v (s : State) : (finish s).v = s.v := rfl
@[simp] theorem finish_src (s : State) : (finish s).src = s.src := rfl
@[simp] theorem finish_out (s : State) : (finish s).out = s.out := rfl
@[simp] theorem finish_host (s : State) : (finish s).host = s.host := rfl
@[simp] theorem finish_busData (s : State) : (finish s).busData = s.busData := rfl

@[simp] theorem finish_status_done (s : State) : (finish s).status.done = true := rfl
@[simp] theorem finish_status_err (s : State) : (finish s).status.err = s.status.err := rfl
@[simp] theorem finish_status_early (s : State) : (finish s).status.early = s.status.early := rfl
@[simp] theorem finish_status_ovalid (s : State) : (finish s).status.ovalid = s.status.ovalid := rfl
@[simp] theorem finish_status_ecode (s : State) : (finish s).status.ecode = s.status.ecode := rfl
@[simp] theorem finish_status_subcode (s : State) : (finish s).status.subcode = s.status.subcode := rfl
@[simp] theorem finish_status_vused (s : State) : (finish s).status.vused = s.status.vused := rfl

/-! ## `finishValid` -/

@[simp] theorem finishValid_cmd (s : State) : (finishValid s).cmd = s.cmd := rfl
@[simp] theorem finishValid_ie (s : State) : (finishValid s).ie = s.ie := rfl
@[simp] theorem finishValid_srcLen (s : State) : (finishValid s).srcLen = s.srcLen := rfl
@[simp] theorem finishValid_outLen (s : State) : (finishValid s).outLen = s.outLen := rfl
@[simp] theorem finishValid_opos (s : State) : (finishValid s).opos = s.opos := rfl
@[simp] theorem finishValid_cur (s : State) : (finishValid s).cur = s.cur := rfl
@[simp] theorem finishValid_curResult (s : State) : (finishValid s).curResult = s.curResult := rfl
@[simp] theorem finishValid_ocFrom (s : State) : (finishValid s).ocFrom = s.ocFrom := rfl
@[simp] theorem finishValid_ocTo (s : State) : (finishValid s).ocTo = s.ocTo := rfl
@[simp] theorem finishValid_ocLen (s : State) : (finishValid s).ocLen = s.ocLen := rfl
@[simp] theorem finishValid_vstate (s : State) : (finishValid s).vstate = s.vstate := rfl
@[simp] theorem finishValid_probeCfg (s : State) : (finishValid s).probeCfg = s.probeCfg := rfl
@[simp] theorem finishValid_fmt (s : State) : (finishValid s).fmt = s.fmt := rfl
@[simp] theorem finishValid_tagtab (s : State) : (finishValid s).tagtab = s.tagtab := rfl
@[simp] theorem finishValid_dpDim (s : State) : (finishValid s).dpDim = s.dpDim := rfl
@[simp] theorem finishValid_dpCfg (s : State) : (finishValid s).dpCfg = s.dpCfg := rfl
@[simp] theorem finishValid_seed (s : State) : (finishValid s).seed = s.seed := rfl
@[simp] theorem finishValid_lcgA (s : State) : (finishValid s).lcgA = s.lcgA := rfl
@[simp] theorem finishValid_lcgB (s : State) : (finishValid s).lcgB = s.lcgB := rfl
@[simp] theorem finishValid_ciphCfg (s : State) : (finishValid s).ciphCfg = s.ciphCfg := rfl
@[simp] theorem finishValid_ciphOff (s : State) : (finishValid s).ciphOff = s.ciphOff := rfl
@[simp] theorem finishValid_ciphLen (s : State) : (finishValid s).ciphLen = s.ciphLen := rfl
@[simp] theorem finishValid_ktlen (s : State) : (finishValid s).ktlen = s.ktlen := rfl
@[simp] theorem finishValid_lprog (s : State) : (finishValid s).lprog = s.lprog := rfl
@[simp] theorem finishValid_kr (s : State) : (finishValid s).kr = s.kr := rfl
@[simp] theorem finishValid_kt (s : State) : (finishValid s).kt = s.kt := rfl
@[simp] theorem finishValid_v (s : State) : (finishValid s).v = s.v := rfl
@[simp] theorem finishValid_src (s : State) : (finishValid s).src = s.src := rfl
@[simp] theorem finishValid_out (s : State) : (finishValid s).out = s.out := rfl
@[simp] theorem finishValid_host (s : State) : (finishValid s).host = s.host := rfl
@[simp] theorem finishValid_busData (s : State) : (finishValid s).busData = s.busData := rfl

@[simp] theorem finishValid_status_done (s : State) : (finishValid s).status.done = true := rfl
@[simp] theorem finishValid_status_err (s : State) : (finishValid s).status.err = s.status.err := rfl
@[simp] theorem finishValid_status_early (s : State) : (finishValid s).status.early = s.status.early := rfl
@[simp] theorem finishValid_status_ovalid (s : State) : (finishValid s).status.ovalid = true := rfl
@[simp] theorem finishValid_status_ecode (s : State) : (finishValid s).status.ecode = s.status.ecode := rfl
@[simp] theorem finishValid_status_subcode (s : State) : (finishValid s).status.subcode = s.status.subcode := rfl
@[simp] theorem finishValid_status_vused (s : State) : (finishValid s).status.vused = s.status.vused := rfl

/-! ## `finishDecode` -/

@[simp] theorem finishDecode_cmd (v : BitVec 2) (s : State) : (finishDecode v s).cmd = s.cmd := rfl
@[simp] theorem finishDecode_ie (v : BitVec 2) (s : State) : (finishDecode v s).ie = s.ie := rfl
@[simp] theorem finishDecode_srcLen (v : BitVec 2) (s : State) : (finishDecode v s).srcLen = s.srcLen := rfl
@[simp] theorem finishDecode_outLen (v : BitVec 2) (s : State) : (finishDecode v s).outLen = s.outLen := rfl
@[simp] theorem finishDecode_opos (v : BitVec 2) (s : State) : (finishDecode v s).opos = s.opos := rfl
@[simp] theorem finishDecode_cur (v : BitVec 2) (s : State) : (finishDecode v s).cur = s.cur := rfl
@[simp] theorem finishDecode_curResult (v : BitVec 2) (s : State) : (finishDecode v s).curResult = s.curResult := rfl
@[simp] theorem finishDecode_ocFrom (v : BitVec 2) (s : State) : (finishDecode v s).ocFrom = s.ocFrom := rfl
@[simp] theorem finishDecode_ocTo (v : BitVec 2) (s : State) : (finishDecode v s).ocTo = s.ocTo := rfl
@[simp] theorem finishDecode_ocLen (v : BitVec 2) (s : State) : (finishDecode v s).ocLen = s.ocLen := rfl
@[simp] theorem finishDecode_vstate (v : BitVec 2) (s : State) : (finishDecode v s).vstate = s.vstate := rfl
@[simp] theorem finishDecode_probeCfg (v : BitVec 2) (s : State) : (finishDecode v s).probeCfg = s.probeCfg := rfl
@[simp] theorem finishDecode_fmt (v : BitVec 2) (s : State) : (finishDecode v s).fmt = s.fmt := rfl
@[simp] theorem finishDecode_tagtab (v : BitVec 2) (s : State) : (finishDecode v s).tagtab = s.tagtab := rfl
@[simp] theorem finishDecode_dpDim (v : BitVec 2) (s : State) : (finishDecode v s).dpDim = s.dpDim := rfl
@[simp] theorem finishDecode_dpCfg (v : BitVec 2) (s : State) : (finishDecode v s).dpCfg = s.dpCfg := rfl
@[simp] theorem finishDecode_seed (v : BitVec 2) (s : State) : (finishDecode v s).seed = s.seed := rfl
@[simp] theorem finishDecode_lcgA (v : BitVec 2) (s : State) : (finishDecode v s).lcgA = s.lcgA := rfl
@[simp] theorem finishDecode_lcgB (v : BitVec 2) (s : State) : (finishDecode v s).lcgB = s.lcgB := rfl
@[simp] theorem finishDecode_ciphCfg (v : BitVec 2) (s : State) : (finishDecode v s).ciphCfg = s.ciphCfg := rfl
@[simp] theorem finishDecode_ciphOff (v : BitVec 2) (s : State) : (finishDecode v s).ciphOff = s.ciphOff := rfl
@[simp] theorem finishDecode_ciphLen (v : BitVec 2) (s : State) : (finishDecode v s).ciphLen = s.ciphLen := rfl
@[simp] theorem finishDecode_ktlen (v : BitVec 2) (s : State) : (finishDecode v s).ktlen = s.ktlen := rfl
@[simp] theorem finishDecode_lprog (v : BitVec 2) (s : State) : (finishDecode v s).lprog = s.lprog := rfl
@[simp] theorem finishDecode_kr (v : BitVec 2) (s : State) : (finishDecode v s).kr = s.kr := rfl
@[simp] theorem finishDecode_kt (v : BitVec 2) (s : State) : (finishDecode v s).kt = s.kt := rfl
@[simp] theorem finishDecode_v (v : BitVec 2) (s : State) : (finishDecode v s).v = s.v := rfl
@[simp] theorem finishDecode_src (v : BitVec 2) (s : State) : (finishDecode v s).src = s.src := rfl
@[simp] theorem finishDecode_out (v : BitVec 2) (s : State) : (finishDecode v s).out = s.out := rfl
@[simp] theorem finishDecode_host (v : BitVec 2) (s : State) : (finishDecode v s).host = s.host := rfl
@[simp] theorem finishDecode_busData (v : BitVec 2) (s : State) : (finishDecode v s).busData = s.busData := rfl

@[simp] theorem finishDecode_status_done (v : BitVec 2) (s : State) : (finishDecode v s).status.done = true := rfl
@[simp] theorem finishDecode_status_err (v : BitVec 2) (s : State) : (finishDecode v s).status.err = s.status.err := rfl
@[simp] theorem finishDecode_status_early (v : BitVec 2) (s : State) : (finishDecode v s).status.early = s.status.early := rfl
@[simp] theorem finishDecode_status_ovalid (v : BitVec 2) (s : State) : (finishDecode v s).status.ovalid = true := rfl
@[simp] theorem finishDecode_status_ecode (v : BitVec 2) (s : State) : (finishDecode v s).status.ecode = s.status.ecode := rfl
@[simp] theorem finishDecode_status_subcode (v : BitVec 2) (s : State) : (finishDecode v s).status.subcode = s.status.subcode := rfl
@[simp] theorem finishDecode_status_vused (v : BitVec 2) (s : State) : (finishDecode v s).status.vused = v := rfl

/-! ## `setEarly` -/

@[simp] theorem setEarly_cmd (s : State) : (setEarly s).cmd = s.cmd := rfl
@[simp] theorem setEarly_ie (s : State) : (setEarly s).ie = s.ie := rfl
@[simp] theorem setEarly_srcLen (s : State) : (setEarly s).srcLen = s.srcLen := rfl
@[simp] theorem setEarly_outLen (s : State) : (setEarly s).outLen = s.outLen := rfl
@[simp] theorem setEarly_opos (s : State) : (setEarly s).opos = s.opos := rfl
@[simp] theorem setEarly_cur (s : State) : (setEarly s).cur = s.cur := rfl
@[simp] theorem setEarly_curResult (s : State) : (setEarly s).curResult = s.curResult := rfl
@[simp] theorem setEarly_ocFrom (s : State) : (setEarly s).ocFrom = s.ocFrom := rfl
@[simp] theorem setEarly_ocTo (s : State) : (setEarly s).ocTo = s.ocTo := rfl
@[simp] theorem setEarly_ocLen (s : State) : (setEarly s).ocLen = s.ocLen := rfl
@[simp] theorem setEarly_vstate (s : State) : (setEarly s).vstate = s.vstate := rfl
@[simp] theorem setEarly_probeCfg (s : State) : (setEarly s).probeCfg = s.probeCfg := rfl
@[simp] theorem setEarly_fmt (s : State) : (setEarly s).fmt = s.fmt := rfl
@[simp] theorem setEarly_tagtab (s : State) : (setEarly s).tagtab = s.tagtab := rfl
@[simp] theorem setEarly_dpDim (s : State) : (setEarly s).dpDim = s.dpDim := rfl
@[simp] theorem setEarly_dpCfg (s : State) : (setEarly s).dpCfg = s.dpCfg := rfl
@[simp] theorem setEarly_seed (s : State) : (setEarly s).seed = s.seed := rfl
@[simp] theorem setEarly_lcgA (s : State) : (setEarly s).lcgA = s.lcgA := rfl
@[simp] theorem setEarly_lcgB (s : State) : (setEarly s).lcgB = s.lcgB := rfl
@[simp] theorem setEarly_ciphCfg (s : State) : (setEarly s).ciphCfg = s.ciphCfg := rfl
@[simp] theorem setEarly_ciphOff (s : State) : (setEarly s).ciphOff = s.ciphOff := rfl
@[simp] theorem setEarly_ciphLen (s : State) : (setEarly s).ciphLen = s.ciphLen := rfl
@[simp] theorem setEarly_ktlen (s : State) : (setEarly s).ktlen = s.ktlen := rfl
@[simp] theorem setEarly_lprog (s : State) : (setEarly s).lprog = s.lprog := rfl
@[simp] theorem setEarly_kr (s : State) : (setEarly s).kr = s.kr := rfl
@[simp] theorem setEarly_kt (s : State) : (setEarly s).kt = s.kt := rfl
@[simp] theorem setEarly_v (s : State) : (setEarly s).v = s.v := rfl
@[simp] theorem setEarly_src (s : State) : (setEarly s).src = s.src := rfl
@[simp] theorem setEarly_out (s : State) : (setEarly s).out = s.out := rfl
@[simp] theorem setEarly_host (s : State) : (setEarly s).host = s.host := rfl
@[simp] theorem setEarly_busData (s : State) : (setEarly s).busData = s.busData := rfl

@[simp] theorem setEarly_status_done (s : State) : (setEarly s).status.done = s.status.done := rfl
@[simp] theorem setEarly_status_err (s : State) : (setEarly s).status.err = s.status.err := rfl
@[simp] theorem setEarly_status_early (s : State) : (setEarly s).status.early = true := rfl
@[simp] theorem setEarly_status_ovalid (s : State) : (setEarly s).status.ovalid = s.status.ovalid := rfl
@[simp] theorem setEarly_status_ecode (s : State) : (setEarly s).status.ecode = s.status.ecode := rfl
@[simp] theorem setEarly_status_subcode (s : State) : (setEarly s).status.subcode = s.status.subcode := rfl
@[simp] theorem setEarly_status_vused (s : State) : (setEarly s).status.vused = s.status.vused := rfl

/-! ## `raise` -/

@[simp] theorem raise_cmd (e : Exc) (sub : BitVec 3) (s : State) : (raise e sub s).cmd = s.cmd := rfl
@[simp] theorem raise_ie (e : Exc) (sub : BitVec 3) (s : State) : (raise e sub s).ie = s.ie := rfl
@[simp] theorem raise_srcLen (e : Exc) (sub : BitVec 3) (s : State) : (raise e sub s).srcLen = s.srcLen := rfl
@[simp] theorem raise_outLen (e : Exc) (sub : BitVec 3) (s : State) : (raise e sub s).outLen = s.outLen := rfl
@[simp] theorem raise_opos (e : Exc) (sub : BitVec 3) (s : State) : (raise e sub s).opos = s.opos := rfl
@[simp] theorem raise_cur (e : Exc) (sub : BitVec 3) (s : State) : (raise e sub s).cur = s.cur := rfl
@[simp] theorem raise_curResult (e : Exc) (sub : BitVec 3) (s : State) : (raise e sub s).curResult = s.curResult := rfl
@[simp] theorem raise_ocFrom (e : Exc) (sub : BitVec 3) (s : State) : (raise e sub s).ocFrom = s.ocFrom := rfl
@[simp] theorem raise_ocTo (e : Exc) (sub : BitVec 3) (s : State) : (raise e sub s).ocTo = s.ocTo := rfl
@[simp] theorem raise_ocLen (e : Exc) (sub : BitVec 3) (s : State) : (raise e sub s).ocLen = s.ocLen := rfl
@[simp] theorem raise_vstate (e : Exc) (sub : BitVec 3) (s : State) : (raise e sub s).vstate = s.vstate := rfl
@[simp] theorem raise_probeCfg (e : Exc) (sub : BitVec 3) (s : State) : (raise e sub s).probeCfg = s.probeCfg := rfl
@[simp] theorem raise_fmt (e : Exc) (sub : BitVec 3) (s : State) : (raise e sub s).fmt = s.fmt := rfl
@[simp] theorem raise_tagtab (e : Exc) (sub : BitVec 3) (s : State) : (raise e sub s).tagtab = s.tagtab := rfl
@[simp] theorem raise_dpDim (e : Exc) (sub : BitVec 3) (s : State) : (raise e sub s).dpDim = s.dpDim := rfl
@[simp] theorem raise_dpCfg (e : Exc) (sub : BitVec 3) (s : State) : (raise e sub s).dpCfg = s.dpCfg := rfl
@[simp] theorem raise_seed (e : Exc) (sub : BitVec 3) (s : State) : (raise e sub s).seed = s.seed := rfl
@[simp] theorem raise_lcgA (e : Exc) (sub : BitVec 3) (s : State) : (raise e sub s).lcgA = s.lcgA := rfl
@[simp] theorem raise_lcgB (e : Exc) (sub : BitVec 3) (s : State) : (raise e sub s).lcgB = s.lcgB := rfl
@[simp] theorem raise_ciphCfg (e : Exc) (sub : BitVec 3) (s : State) : (raise e sub s).ciphCfg = s.ciphCfg := rfl
@[simp] theorem raise_ciphOff (e : Exc) (sub : BitVec 3) (s : State) : (raise e sub s).ciphOff = s.ciphOff := rfl
@[simp] theorem raise_ciphLen (e : Exc) (sub : BitVec 3) (s : State) : (raise e sub s).ciphLen = s.ciphLen := rfl
@[simp] theorem raise_ktlen (e : Exc) (sub : BitVec 3) (s : State) : (raise e sub s).ktlen = s.ktlen := rfl
@[simp] theorem raise_lprog (e : Exc) (sub : BitVec 3) (s : State) : (raise e sub s).lprog = s.lprog := rfl
@[simp] theorem raise_kr (e : Exc) (sub : BitVec 3) (s : State) : (raise e sub s).kr = s.kr := rfl
@[simp] theorem raise_kt (e : Exc) (sub : BitVec 3) (s : State) : (raise e sub s).kt = s.kt := rfl
@[simp] theorem raise_v (e : Exc) (sub : BitVec 3) (s : State) : (raise e sub s).v = s.v := rfl
@[simp] theorem raise_src (e : Exc) (sub : BitVec 3) (s : State) : (raise e sub s).src = s.src := rfl
@[simp] theorem raise_out (e : Exc) (sub : BitVec 3) (s : State) : (raise e sub s).out = s.out := rfl
@[simp] theorem raise_host (e : Exc) (sub : BitVec 3) (s : State) : (raise e sub s).host = s.host := rfl
@[simp] theorem raise_busData (e : Exc) (sub : BitVec 3) (s : State) : (raise e sub s).busData = s.busData := rfl

@[simp] theorem raise_status_done (e : Exc) (sub : BitVec 3) (s : State) : (raise e sub s).status.done = true := rfl
@[simp] theorem raise_status_err (e : Exc) (sub : BitVec 3) (s : State) : (raise e sub s).status.err = true := rfl
@[simp] theorem raise_status_early (e : Exc) (sub : BitVec 3) (s : State) : (raise e sub s).status.early = false := rfl
@[simp] theorem raise_status_ovalid (e : Exc) (sub : BitVec 3) (s : State) : (raise e sub s).status.ovalid = false := rfl
@[simp] theorem raise_status_ecode (e : Exc) (sub : BitVec 3) (s : State) : (raise e sub s).status.ecode = e.code := rfl
@[simp] theorem raise_status_subcode (e : Exc) (sub : BitVec 3) (s : State) : (raise e sub s).status.subcode = if e = .formatError then sub else 0 := rfl
@[simp] theorem raise_status_vused (e : Exc) (sub : BitVec 3) (s : State) : (raise e sub s).status.vused = 0 := rfl

/-! ## `clearStatus` -/

@[simp] theorem clearStatus_cmd (s : State) : (clearStatus s).cmd = s.cmd := rfl
@[simp] theorem clearStatus_status (s : State) : (clearStatus s).status = Status.clear := rfl
@[simp] theorem clearStatus_ie (s : State) : (clearStatus s).ie = s.ie := rfl
@[simp] theorem clearStatus_srcLen (s : State) : (clearStatus s).srcLen = s.srcLen := rfl
@[simp] theorem clearStatus_outLen (s : State) : (clearStatus s).outLen = s.outLen := rfl
@[simp] theorem clearStatus_opos (s : State) : (clearStatus s).opos = s.opos := rfl
@[simp] theorem clearStatus_cur (s : State) : (clearStatus s).cur = s.cur := rfl
@[simp] theorem clearStatus_curResult (s : State) : (clearStatus s).curResult = s.curResult := rfl
@[simp] theorem clearStatus_ocFrom (s : State) : (clearStatus s).ocFrom = s.ocFrom := rfl
@[simp] theorem clearStatus_ocTo (s : State) : (clearStatus s).ocTo = s.ocTo := rfl
@[simp] theorem clearStatus_ocLen (s : State) : (clearStatus s).ocLen = s.ocLen := rfl
@[simp] theorem clearStatus_vstate (s : State) : (clearStatus s).vstate = s.vstate := rfl
@[simp] theorem clearStatus_probeCfg (s : State) : (clearStatus s).probeCfg = s.probeCfg := rfl
@[simp] theorem clearStatus_fmt (s : State) : (clearStatus s).fmt = s.fmt := rfl
@[simp] theorem clearStatus_tagtab (s : State) : (clearStatus s).tagtab = s.tagtab := rfl
@[simp] theorem clearStatus_dpDim (s : State) : (clearStatus s).dpDim = s.dpDim := rfl
@[simp] theorem clearStatus_dpCfg (s : State) : (clearStatus s).dpCfg = s.dpCfg := rfl
@[simp] theorem clearStatus_seed (s : State) : (clearStatus s).seed = s.seed := rfl
@[simp] theorem clearStatus_lcgA (s : State) : (clearStatus s).lcgA = s.lcgA := rfl
@[simp] theorem clearStatus_lcgB (s : State) : (clearStatus s).lcgB = s.lcgB := rfl
@[simp] theorem clearStatus_ciphCfg (s : State) : (clearStatus s).ciphCfg = s.ciphCfg := rfl
@[simp] theorem clearStatus_ciphOff (s : State) : (clearStatus s).ciphOff = s.ciphOff := rfl
@[simp] theorem clearStatus_ciphLen (s : State) : (clearStatus s).ciphLen = s.ciphLen := rfl
@[simp] theorem clearStatus_ktlen (s : State) : (clearStatus s).ktlen = s.ktlen := rfl
@[simp] theorem clearStatus_lprog (s : State) : (clearStatus s).lprog = s.lprog := rfl
@[simp] theorem clearStatus_kr (s : State) : (clearStatus s).kr = s.kr := rfl
@[simp] theorem clearStatus_kt (s : State) : (clearStatus s).kt = s.kt := rfl
@[simp] theorem clearStatus_v (s : State) : (clearStatus s).v = s.v := rfl
@[simp] theorem clearStatus_src (s : State) : (clearStatus s).src = s.src := rfl
@[simp] theorem clearStatus_out (s : State) : (clearStatus s).out = s.out := rfl
@[simp] theorem clearStatus_host (s : State) : (clearStatus s).host = s.host := rfl
@[simp] theorem clearStatus_busData (s : State) : (clearStatus s).busData = s.busData := rfl

/-! ## `withCursor` -/

@[simp] theorem withCursor_cmd (s : State) (c : BitCursor) : (withCursor s c).cmd = s.cmd := rfl
@[simp] theorem withCursor_status (s : State) (c : BitCursor) : (withCursor s c).status = s.status := rfl
@[simp] theorem withCursor_ie (s : State) (c : BitCursor) : (withCursor s c).ie = s.ie := rfl
@[simp] theorem withCursor_srcLen (s : State) (c : BitCursor) : (withCursor s c).srcLen = s.srcLen := rfl
@[simp] theorem withCursor_outLen (s : State) (c : BitCursor) : (withCursor s c).outLen = s.outLen := rfl
@[simp] theorem withCursor_opos (s : State) (c : BitCursor) : (withCursor s c).opos = s.opos := rfl
@[simp] theorem withCursor_cur (s : State) (c : BitCursor) : (withCursor s c).cur = c := rfl
@[simp] theorem withCursor_curResult (s : State) (c : BitCursor) : (withCursor s c).curResult = s.curResult := rfl
@[simp] theorem withCursor_ocFrom (s : State) (c : BitCursor) : (withCursor s c).ocFrom = s.ocFrom := rfl
@[simp] theorem withCursor_ocTo (s : State) (c : BitCursor) : (withCursor s c).ocTo = s.ocTo := rfl
@[simp] theorem withCursor_ocLen (s : State) (c : BitCursor) : (withCursor s c).ocLen = s.ocLen := rfl
@[simp] theorem withCursor_vstate (s : State) (c : BitCursor) : (withCursor s c).vstate = s.vstate := rfl
@[simp] theorem withCursor_probeCfg (s : State) (c : BitCursor) : (withCursor s c).probeCfg = s.probeCfg := rfl
@[simp] theorem withCursor_fmt (s : State) (c : BitCursor) : (withCursor s c).fmt = s.fmt := rfl
@[simp] theorem withCursor_tagtab (s : State) (c : BitCursor) : (withCursor s c).tagtab = s.tagtab := rfl
@[simp] theorem withCursor_dpDim (s : State) (c : BitCursor) : (withCursor s c).dpDim = s.dpDim := rfl
@[simp] theorem withCursor_dpCfg (s : State) (c : BitCursor) : (withCursor s c).dpCfg = s.dpCfg := rfl
@[simp] theorem withCursor_seed (s : State) (c : BitCursor) : (withCursor s c).seed = s.seed := rfl
@[simp] theorem withCursor_lcgA (s : State) (c : BitCursor) : (withCursor s c).lcgA = s.lcgA := rfl
@[simp] theorem withCursor_lcgB (s : State) (c : BitCursor) : (withCursor s c).lcgB = s.lcgB := rfl
@[simp] theorem withCursor_ciphCfg (s : State) (c : BitCursor) : (withCursor s c).ciphCfg = s.ciphCfg := rfl
@[simp] theorem withCursor_ciphOff (s : State) (c : BitCursor) : (withCursor s c).ciphOff = s.ciphOff := rfl
@[simp] theorem withCursor_ciphLen (s : State) (c : BitCursor) : (withCursor s c).ciphLen = s.ciphLen := rfl
@[simp] theorem withCursor_ktlen (s : State) (c : BitCursor) : (withCursor s c).ktlen = s.ktlen := rfl
@[simp] theorem withCursor_lprog (s : State) (c : BitCursor) : (withCursor s c).lprog = s.lprog := rfl
@[simp] theorem withCursor_kr (s : State) (c : BitCursor) : (withCursor s c).kr = s.kr := rfl
@[simp] theorem withCursor_kt (s : State) (c : BitCursor) : (withCursor s c).kt = s.kt := rfl
@[simp] theorem withCursor_v (s : State) (c : BitCursor) : (withCursor s c).v = s.v := rfl
@[simp] theorem withCursor_src (s : State) (c : BitCursor) : (withCursor s c).src = s.src := rfl
@[simp] theorem withCursor_out (s : State) (c : BitCursor) : (withCursor s c).out = s.out := rfl
@[simp] theorem withCursor_host (s : State) (c : BitCursor) : (withCursor s c).host = s.host := rfl
@[simp] theorem withCursor_busData (s : State) (c : BitCursor) : (withCursor s c).busData = s.busData := rfl

/-! ## `startDecode` -/

@[simp] theorem startDecode_cmd (f : Format) (s : State) : (startDecode f s).cmd = s.cmd := rfl
@[simp] theorem startDecode_ie (f : Format) (s : State) : (startDecode f s).ie = s.ie := rfl
@[simp] theorem startDecode_srcLen (f : Format) (s : State) : (startDecode f s).srcLen = s.srcLen := rfl
@[simp] theorem startDecode_outLen (f : Format) (s : State) : (startDecode f s).outLen = s.outLen := rfl
@[simp] theorem startDecode_opos (f : Format) (s : State) : (startDecode f s).opos = 0 := rfl
@[simp] theorem startDecode_cur (f : Format) (s : State) : (startDecode f s).cur = BitCursor.fresh f.order f.refill := rfl
@[simp] theorem startDecode_curResult (f : Format) (s : State) : (startDecode f s).curResult = s.curResult := rfl
@[simp] theorem startDecode_ocFrom (f : Format) (s : State) : (startDecode f s).ocFrom = s.ocFrom := rfl
@[simp] theorem startDecode_ocTo (f : Format) (s : State) : (startDecode f s).ocTo = s.ocTo := rfl
@[simp] theorem startDecode_ocLen (f : Format) (s : State) : (startDecode f s).ocLen = s.ocLen := rfl
@[simp] theorem startDecode_vstate (f : Format) (s : State) : (startDecode f s).vstate = s.vstate := rfl
@[simp] theorem startDecode_probeCfg (f : Format) (s : State) : (startDecode f s).probeCfg = s.probeCfg := rfl
@[simp] theorem startDecode_fmt (f : Format) (s : State) : (startDecode f s).fmt = s.fmt := rfl
@[simp] theorem startDecode_tagtab (f : Format) (s : State) : (startDecode f s).tagtab = s.tagtab := rfl
@[simp] theorem startDecode_dpDim (f : Format) (s : State) : (startDecode f s).dpDim = s.dpDim := rfl
@[simp] theorem startDecode_dpCfg (f : Format) (s : State) : (startDecode f s).dpCfg = s.dpCfg := rfl
@[simp] theorem startDecode_seed (f : Format) (s : State) : (startDecode f s).seed = s.seed := rfl
@[simp] theorem startDecode_lcgA (f : Format) (s : State) : (startDecode f s).lcgA = s.lcgA := rfl
@[simp] theorem startDecode_lcgB (f : Format) (s : State) : (startDecode f s).lcgB = s.lcgB := rfl
@[simp] theorem startDecode_ciphCfg (f : Format) (s : State) : (startDecode f s).ciphCfg = s.ciphCfg := rfl
@[simp] theorem startDecode_ciphOff (f : Format) (s : State) : (startDecode f s).ciphOff = s.ciphOff := rfl
@[simp] theorem startDecode_ciphLen (f : Format) (s : State) : (startDecode f s).ciphLen = s.ciphLen := rfl
@[simp] theorem startDecode_ktlen (f : Format) (s : State) : (startDecode f s).ktlen = s.ktlen := rfl
@[simp] theorem startDecode_lprog (f : Format) (s : State) : (startDecode f s).lprog = s.lprog := rfl
@[simp] theorem startDecode_kr (f : Format) (s : State) : (startDecode f s).kr = s.kr := rfl
@[simp] theorem startDecode_kt (f : Format) (s : State) : (startDecode f s).kt = s.kt := rfl
@[simp] theorem startDecode_v (f : Format) (s : State) : (startDecode f s).v = s.v := rfl
@[simp] theorem startDecode_src (f : Format) (s : State) : (startDecode f s).src = s.src := rfl
@[simp] theorem startDecode_out (f : Format) (s : State) : (startDecode f s).out = s.out.zeroFill s.outLen.toNat := rfl
@[simp] theorem startDecode_host (f : Format) (s : State) : (startDecode f s).host = s.host := rfl
@[simp] theorem startDecode_busData (f : Format) (s : State) : (startDecode f s).busData = s.busData := rfl

@[simp] theorem startDecode_status_done (f : Format) (s : State) : (startDecode f s).status.done = s.status.done := rfl
@[simp] theorem startDecode_status_err (f : Format) (s : State) : (startDecode f s).status.err = s.status.err := rfl
@[simp] theorem startDecode_status_early (f : Format) (s : State) : (startDecode f s).status.early = false := rfl
@[simp] theorem startDecode_status_ovalid (f : Format) (s : State) : (startDecode f s).status.ovalid = s.status.ovalid := rfl
@[simp] theorem startDecode_status_ecode (f : Format) (s : State) : (startDecode f s).status.ecode = s.status.ecode := rfl
@[simp] theorem startDecode_status_subcode (f : Format) (s : State) : (startDecode f s).status.subcode = s.status.subcode := rfl
@[simp] theorem startDecode_status_vused (f : Format) (s : State) : (startDecode f s).status.vused = s.status.vused := rfl

/-! ## `resetRegisters` -/

@[simp] theorem resetRegisters_cmd (s : State) : (resetRegisters s).cmd = State.reset.cmd := rfl
@[simp] theorem resetRegisters_status (s : State) : (resetRegisters s).status = State.reset.status := rfl
@[simp] theorem resetRegisters_ie (s : State) : (resetRegisters s).ie = State.reset.ie := rfl
@[simp] theorem resetRegisters_srcLen (s : State) : (resetRegisters s).srcLen = State.reset.srcLen := rfl
@[simp] theorem resetRegisters_outLen (s : State) : (resetRegisters s).outLen = State.reset.outLen := rfl
@[simp] theorem resetRegisters_opos (s : State) : (resetRegisters s).opos = State.reset.opos := rfl
@[simp] theorem resetRegisters_cur (s : State) : (resetRegisters s).cur = State.reset.cur := rfl
@[simp] theorem resetRegisters_curResult (s : State) : (resetRegisters s).curResult = State.reset.curResult := rfl
@[simp] theorem resetRegisters_ocFrom (s : State) : (resetRegisters s).ocFrom = State.reset.ocFrom := rfl
@[simp] theorem resetRegisters_ocTo (s : State) : (resetRegisters s).ocTo = State.reset.ocTo := rfl
@[simp] theorem resetRegisters_ocLen (s : State) : (resetRegisters s).ocLen = State.reset.ocLen := rfl
@[simp] theorem resetRegisters_vstate (s : State) : (resetRegisters s).vstate = State.reset.vstate := rfl
@[simp] theorem resetRegisters_probeCfg (s : State) : (resetRegisters s).probeCfg = State.reset.probeCfg := rfl
@[simp] theorem resetRegisters_fmt (s : State) : (resetRegisters s).fmt = State.reset.fmt := rfl
@[simp] theorem resetRegisters_tagtab (s : State) : (resetRegisters s).tagtab = State.reset.tagtab := rfl
@[simp] theorem resetRegisters_dpDim (s : State) : (resetRegisters s).dpDim = State.reset.dpDim := rfl
@[simp] theorem resetRegisters_dpCfg (s : State) : (resetRegisters s).dpCfg = State.reset.dpCfg := rfl
@[simp] theorem resetRegisters_seed (s : State) : (resetRegisters s).seed = State.reset.seed := rfl
@[simp] theorem resetRegisters_lcgA (s : State) : (resetRegisters s).lcgA = State.reset.lcgA := rfl
@[simp] theorem resetRegisters_lcgB (s : State) : (resetRegisters s).lcgB = State.reset.lcgB := rfl
@[simp] theorem resetRegisters_ciphCfg (s : State) : (resetRegisters s).ciphCfg = State.reset.ciphCfg := rfl
@[simp] theorem resetRegisters_ciphOff (s : State) : (resetRegisters s).ciphOff = State.reset.ciphOff := rfl
@[simp] theorem resetRegisters_ciphLen (s : State) : (resetRegisters s).ciphLen = State.reset.ciphLen := rfl
@[simp] theorem resetRegisters_ktlen (s : State) : (resetRegisters s).ktlen = State.reset.ktlen := rfl
@[simp] theorem resetRegisters_lprog (s : State) : (resetRegisters s).lprog = State.reset.lprog := rfl
@[simp] theorem resetRegisters_kr (s : State) : (resetRegisters s).kr = State.reset.kr := rfl
@[simp] theorem resetRegisters_kt (s : State) : (resetRegisters s).kt = State.reset.kt := rfl
@[simp] theorem resetRegisters_v (s : State) : (resetRegisters s).v = State.reset.v := rfl
@[simp] theorem resetRegisters_src (s : State) : (resetRegisters s).src = s.src := rfl
@[simp] theorem resetRegisters_out (s : State) : (resetRegisters s).out = s.out := rfl
@[simp] theorem resetRegisters_host (s : State) : (resetRegisters s).host = s.host := rfl
@[simp] theorem resetRegisters_busData (s : State) : (resetRegisters s).busData = s.busData := rfl

end Sys2Proof.Machine
end

