-- ==== Sys2Proof/Laws/Ops.lean ====
section
/-! SUPPORT. One lemma per shared operation that says everything it can do; the provers cite these instead
of unfolding the operations. -/

namespace Sys2Proof.Machine

/-! ## Exceptions and the command interface -/

/-- Taking an exception writes `STATUS` alone (60_exceptions.md R345). -/
theorem raise_eq (e : Exc) (s : State) :
    raise e 0 s = { s with status := (raise e 0 s).status } := rfl

theorem trap_eq (e : Exc) (s : State) : trap e s = .next (raise e 0 s) := rfl

/-- Everything a `CMD` write can come to (40_commands.md R132). -/
theorem startCommand_cases (w : Word) (s : State) :
    (s.status.err = true ∧ field w.toNat 0 8 = 1 ∧ startCommand w s = .run .clear { s with cmd := w })
    ∨ (s.status.err = true ∧ field w.toNat 0 8 = 2 ∧ startCommand w s = .run .sreset { s with cmd := w })
    ∨ (s.status.err = true ∧ field w.toNat 0 8 ≠ 1 ∧ field w.toNat 0 8 ≠ 2
        ∧ startCommand w s = .settled { s with cmd := w })
    ∨ (s.status.err = false ∧ (∃ e, decodeCmd w = .error e)
        ∧ startCommand w s = .settled (raise .illegalCommand 0 (clearResultFlags { s with cmd := w })))
    ∨ (s.status.err = false ∧ ∃ i, decodeCmd w = .ok i
        ∧ startCommand w s = .run i (clearResultFlags { s with cmd := w })) := by
  unfold startCommand commandUnderError commandAccepted
  cases he : s.status.err
  · cases hd : decodeCmd w with
    | error e => simp
    | ok i => simp
  · by_cases h1 : field w.toNat 0 8 = 1
    · simp [h1]
    · by_cases h2 : field w.toNat 0 8 = 2
      · simp [h2]
      · simp [h1, h2]

/-- A step settles the host's move or runs the instruction the move started (40_commands.md R130). -/
theorem step_cases (s : State) :
    (∃ s', nextMove s = .settled s' ∧ step s = .next s')
    ∨ ∃ i s', nextMove s = .run i s' ∧ step s = exec i s' := by
  unfold step
  cases h : nextMove s with
  | settled s' => exact .inl ⟨s', rfl, rfl⟩
  | run i s' => exact .inr ⟨i, s', rfl, rfl⟩

theorem nextMove_nil (s : State) (h : s.host = []) : nextMove s = .settled s := by
  simp [nextMove, h]

theorem nextMove_cons (s : State) (m : HostMove) (rest : List HostMove) (h : s.host = m :: rest) :
    nextMove s = hostMove m { s with host := rest } := by
  simp [nextMove, h]

/-! ## Token actions -/

theorem TokenEnd.result_emitted (s : State) : (TokenEnd.emitted s).result = .next s := rfl

theorem TokenEnd.result_ended (s : State) : (TokenEnd.ended s).result = .next s := rfl

theorem TokenEnd.result_raised (e : Exc) (s : State) :
    (TokenEnd.raised e s).result = .next (raise e 0 s) := rfl

/-- The overrun rule (43_token_decoder.md R186). -/
theorem afterHeader_cases (s : State) (t : TokenEnd) :
    (overrun s = true ∧ afterHeader s t = .raised .truncatedInput s)
    ∨ (overrun s = false ∧ afterHeader s t = t) := by
  unfold afterHeader
  cases overrun s <;> simp

theorem inOut_iff (s : State) (a n : Nat) : inOut s a n = true ↔ a + n ≤ s.outLen.toNat := by
  simp [inOut]

/-- Everything a store at `OPOS` can do (43_token_decoder.md R194). -/
theorem emitBytes_cases (bs : List Byte) (s : State) :
    (s.opos.toNat + bs.length ≤ s.outLen.toNat
      ∧ emitBytes bs s = .emitted { s with
          out := s.out.writeBytes s.opos.toNat bs, opos := s.opos + BitVec.ofNat 32 bs.length })
    ∨ (s.outLen.toNat < s.opos.toNat + bs.length ∧ emitBytes bs s = .raised .boundsViolation s) := by
  unfold emitBytes
  by_cases h : s.opos.toNat + bs.length ≤ s.outLen.toNat
  · simp [inOut, h]
  · exact .inr ⟨by omega, by simp [inOut, h]⟩

/-- Everything a fill can do (43_token_decoder.md R195). -/
theorem emitFill_cases (unit : List Byte) (count : Nat) (s : State) :
    (count = 0 ∧ emitFill unit count s = .raised .unrecognizedControlCode s)
    ∨ (count ≠ 0 ∧ emitFill unit count s = emitBytes (List.replicate count unit).flatten s) := by
  unfold emitFill
  by_cases h : count = 0 <;> simp [h]

/-- The repeated unit: its length, and its byte at every place. -/
theorem length_flatten_replicate (count : Nat) (unit : List Byte) :
    (List.replicate count unit).flatten.length = count * unit.length := by
  simp [List.length_flatten]

theorem getD_flatten_replicate (count : Nat) (unit : List Byte) (j : Nat) (h : j < count * unit.length) :
    (List.replicate count unit).flatten.getD j 0 = unit.getD (j % unit.length) 0 := by
  induction count generalizing j with
  | zero => simp at h
  | succ count ih =>
    rw [List.replicate_succ, List.flatten_cons]
    by_cases hj : j < unit.length
    · rw [Nat.mod_eq_of_lt hj, List.getD_append _ _ _ _ hj]
    · rw [List.getD_append_right _ _ _ _ (by omega), ih _ (by rw [Nat.succ_mul] at h; omega)]
      congr 1
      conv_rhs => rw [show j = (j - unit.length) + unit.length by omega, Nat.add_mod_right]

/-- Everything `OverlapCopy` can do (42_overlapcopy.md R170). -/
theorem overlapCopy_cases (s : State) (src dst len : Nat) :
    ((dst ≤ src ∨ s.outLen.toNat < dst + len) ∧ overlapCopy s src dst len = none)
    ∨ (src < dst ∧ dst + len ≤ s.outLen.toNat
      ∧ overlapCopy s src dst len = some (s.out.copyUp src dst len)) := by
  unfold overlapCopy
  by_cases h1 : dst ≤ src
  · exact .inl ⟨.inl h1, by simp [h1]⟩
  · by_cases h2 : dst + len ≤ s.outLen.toNat
    · exact .inr ⟨by omega, h2, by simp [h1, inOut, h2]⟩
    · exact .inl ⟨.inr (by omega), by simp [h1, inOut, h2]⟩

/-- Everything a copy can do (43_token_decoder.md R196). -/
theorem emitCopy_cases (offset length : Nat) (s : State) :
    (length = 0 ∧ emitCopy offset length s = .raised .unrecognizedControlCode s)
    ∨ (length ≠ 0 ∧ (offset = 0 ∨ s.opos.toNat < offset ∨ s.outLen.toNat < s.opos.toNat + length)
      ∧ emitCopy offset length s = .raised .boundsViolation s)
    ∨ (length ≠ 0 ∧ offset ≠ 0 ∧ offset ≤ s.opos.toNat ∧ s.opos.toNat + length ≤ s.outLen.toNat
      ∧ emitCopy offset length s = .emitted { s with
          out := s.out.copyUp (s.opos.toNat - offset) s.opos.toNat length
          opos := s.opos + BitVec.ofNat 32 length }) := by
  unfold emitCopy
  by_cases h1 : length = 0
  · exact .inl ⟨h1, by simp [h1]⟩
  · by_cases h2 : offset = 0 ∨ s.opos.toNat < offset
    · refine .inr (.inl ⟨h1, ?_, by simp only [if_neg h1, if_pos h2]⟩)
      rcases h2 with h2 | h2
      · exact .inl h2
      · exact .inr (.inl h2)
    · rw [if_neg h1, if_neg h2]
      rcases overlapCopy_cases s (s.opos.toNat - offset) s.opos.toNat length with ⟨h3, h4⟩ | ⟨_, h4, h5⟩
      · refine .inr (.inl ⟨h1, ?_, by rw [h4]⟩)
        rcases h3 with h3 | h3
        · omega
        · exact .inr (.inr h3)
      · exact .inr (.inr ⟨h1, by omega, by omega, h4, by rw [h5]⟩)

/-- A code with no meaning (43_token_decoder.md R203). -/
theorem undefinedCode_cases (s : State) :
    (overrun s = true ∧ undefinedCode s = .raised .truncatedInput s)
    ∨ (overrun s = false ∧ undefinedCode s = .raised .unrecognizedControlCode s) :=
  afterHeader_cases s _

/-! ## The decode loop -/

theorem decodeLoop_zero (more : State → Bool) (body : State → TokenEnd) (s : State) :
    decodeLoop more body 0 s = .done s := rfl

theorem decodeLoop_stop (more : State → Bool) (body : State → TokenEnd) (n : Nat) (s : State)
    (h : more s = false) : decodeLoop more body n s = .done s := by
  cases n <;> simp [decodeLoop, h]

/-- The state a decode ended in. -/
def DecodeEnd.state : DecodeEnd → State
  | .done s => s
  | .raised _ s => s

/-- What every iteration keeps holds at the end: where a decode loop starts from `P`, an emitting iteration
keeps `P`, an iteration that leaves the loop gives `Q`, and a state of `P` with nothing more to do is one
of `Q`, it ends in `Q`, for as much fuel as the measure `m` of the start. -/
theorem decodeLoop_rule (more : State → Bool) (body : State → TokenEnd) (P : State → Prop)
    (Q : DecodeEnd → Prop) (m : State → Nat)
    (stop : ∀ s, P s → more s = false → Q (.done s))
    (emit : ∀ s s', P s → more s = true → body s = .emitted s' → P s' ∧ m s' < m s)
    (fin : ∀ s s', P s → more s = true → body s = .ended s' → Q (.done s'))
    (exn : ∀ s e s', P s → more s = true → body s = .raised e s' → Q (.raised e s')) :
    ∀ n s, P s → m s < n → Q (decodeLoop more body n s) := by
  intro n
  induction n with
  | zero => intro s _ h; omega
  | succ n ih =>
    intro s hp hm
    cases hmore : more s with
    | false => rw [decodeLoop_stop _ _ _ _ hmore]; exact stop s hp hmore
    | true =>
      cases hb : body s with
      | emitted s' =>
        obtain ⟨h1, h2⟩ := emit s s' hp hmore hb
        simpa [decodeLoop, hmore, hb] using ih s' h1 (by omega)
      | ended s' => simpa [decodeLoop, hmore, hb] using fin s s' hp hmore hb
      | raised e s' => simpa [decodeLoop, hmore, hb] using exn s e s' hp hmore hb

end Sys2Proof.Machine

namespace Sys2Proof

/-! ## The copy and the lane stores -/

/-- The law of the copy loop inside its destination: the bytes between `src` and `dst`, repeated
(42_overlapcopy.md R171). -/
theorem Memory.read_copyUp (m : Memory) (src dst len i : Nat) (h : src < dst) (hi : i < len) :
    (m.copyUp src dst len).read .out (dst + i) = m.read .out (src + i % (dst - src)) := by
  have hloop : ∀ (len : Nat) (m : Memory) (src dst i : Nat), src < dst → i < len →
      (m.copyUp src dst len).read .out (dst + i) = (m.copyUp src dst len).read .out (src + i) := by
    intro len
    induction len with
    | zero => intro m src dst i _ hi; omega
    | succ len ih =>
      intro m src dst i h hi
      simp only [Memory.copyUp]
      cases i with
      | zero =>
        simp only [Nat.add_zero]
        rw [Memory.read_copyUp_outside _ _ _ _ _ _ (by omega),
          Memory.read_write_self, Memory.read_copyUp_outside _ _ _ _ _ _ (by omega),
          Memory.read_write_other _ _ _ _ _ (by omega)]
      | succ i =>
        have := ih (m.write dst (m.read .out src)) (src + 1) (dst + 1) i (by omega) (by omega)
        rw [show dst + (i + 1) = dst + 1 + i by omega, this, show src + 1 + i = src + (i + 1) by omega]
  induction i using Nat.strongRecOn with
  | ind i ih =>
    rw [hloop len m src dst i h hi]
    by_cases hlt : i < dst - src
    · rw [Nat.mod_eq_of_lt hlt, Memory.read_copyUp_outside _ _ _ _ _ _ (by omega)]
    · have h1 := ih (i - (dst - src)) (by omega) (by omega)
      rw [show src + i = dst + (i - (dst - src)) by omega, h1]
      congr 2
      conv_rhs => rw [show i = (i - (dst - src)) + (dst - src) by omega, Nat.add_mod_right]

end Sys2Proof

namespace Sys2Proof.Machine

/-- Everything the lane loop of CIPHER does: no byte outside the lanes, and every lane combined once with
its own key bytes (47_stream_cipher.md R280). -/
theorem cipherLanes_outside (comb lw n a : Nat) (ks : List Byte) (m : Memory) (x : Nat)
    (h : x < a ∨ a + n * lw ≤ x) : (cipherLanes comb lw n a ks m).read .out x = m.read .out x := by
  induction n generalizing a ks m with
  | zero => rfl
  | succ n ih =>
    rw [Nat.succ_mul] at h
    rw [cipherLanes, ih _ _ _ (by omega), Memory.read_writeLE_outside _ _ _ _ _ _ (by omega)]

theorem cipherLanes_lane (comb lw n a : Nat) (ks : List Byte) (m : Memory) (j : Nat) (h : j < n) :
    (cipherLanes comb lw n a ks m).readLE .out (a + j * lw) lw
      = combine comb lw (m.readLE .out (a + j * lw) lw) (leValue ((ks.drop (j * lw)).take lw))
          % 2 ^ (8 * lw) := by
  induction n generalizing a ks m j with
  | zero => omega
  | succ n ih =>
    rw [cipherLanes]
    cases j with
    | zero =>
      rw [Nat.zero_mul, Nat.add_zero, List.drop_zero]
      rw [Memory.readLE_congr .out _ (m.writeLE a lw _) a lw
        (fun x h1 h2 => cipherLanes_outside _ _ _ _ _ _ _ (by omega)), Memory.readLE_writeLE]
    | succ j =>
      have := ih (a + lw) (ks.drop lw)
        (m.writeLE a lw (combine comb lw (m.readLE .out a lw) (leValue (ks.take lw)))) j (by omega)
      rw [Nat.succ_mul, show a + (j * lw + lw) = a + lw + j * lw by omega, this, List.drop_drop,
        show lw + j * lw = j * lw + lw by omega]
      congr 2
      exact Memory.readLE_congr _ _ _ _ _ (fun x h1 h2 => Memory.read_writeLE_outside _ _ _ _ _ _ (by omega))

/-- Everything the block loop of LANE does to `OUT` outside its blocks (48_lane_transform.md R313). -/
theorem laneBlocks_outside (os : List LaneOp) (n a : Nat) (p : Vector DWord 8 × Memory) (x : Nat)
    (h : x < a ∨ a + 8 * n ≤ x) : (laneBlocks os n a p).2.read .out x = p.2.read .out x := by
  induction n generalizing a p with
  | zero => rfl
  | succ n ih =>
    rw [laneBlocks, ih _ _ (by omega)]
    exact Memory.read_writeLE_outside _ _ _ _ _ _ (by omega)

/-! ## Canonical memories -/

theorem wf_emitBytes (bs : List Byte) (s s' : State) (hw : s.out.wf = true)
    (h : emitBytes bs s = .emitted s') : s'.out.wf = true := by
  rcases emitBytes_cases bs s with ⟨h1, h2⟩ | ⟨_, h2⟩
  · rw [h2] at h
    injection h with h
    subst h
    have := s.outLen.isLt
    exact Memory.wf_writeBytes _ _ _ (by omega) hw
  · rw [h2] at h; simp at h

theorem wf_emitCopy (offset length : Nat) (s s' : State) (hw : s.out.wf = true)
    (h : emitCopy offset length s = .emitted s') : s'.out.wf = true := by
  rcases emitCopy_cases offset length s with ⟨_, h2⟩ | ⟨_, _, h2⟩ | ⟨_, _, _, h1, h2⟩
  · rw [h2] at h; simp at h
  · rw [h2] at h; simp at h
  · rw [h2] at h
    injection h with h
    subst h
    have := s.outLen.isLt
    exact Memory.wf_copyUp _ _ _ _ (by omega) hw

theorem wf_cipherLanes (comb lw n a : Nat) (ks : List Byte) (m : Memory) (ha : a + n * lw ≤ 2 ^ 32)
    (h : m.wf = true) : (cipherLanes comb lw n a ks m).wf = true := by
  induction n generalizing a ks m with
  | zero => exact h
  | succ n ih =>
    rw [Nat.succ_mul] at ha
    exact ih _ _ _ (by omega) (Memory.wf_writeLE _ _ _ _ (by omega) h)

theorem wf_laneBlocks (os : List LaneOp) (n a : Nat) (p : Vector DWord 8 × Memory)
    (ha : a + 8 * n ≤ 2 ^ 32) (h : p.2.wf = true) : (laneBlocks os n a p).2.wf = true := by
  induction n generalizing a p with
  | zero => exact h
  | succ n ih => exact ih _ _ (by omega) (Memory.wf_writeLE _ _ _ _ (by omega) h)

/-- The memory right after reset is in canonical form. -/
theorem reset_memoryWf : State.reset.src.wf = true ∧ State.reset.out.wf = true := ⟨rfl, rfl⟩

end Sys2Proof.Machine
end

