-- ==== Sys2Proof/Laws/PerInstr.lean ====
section
/-! SUPPORT. Statements made once per constructor of `Instr`. -/

namespace Sys2Proof

@[simp] theorem length_fieldBits (o : BitOrder) (n v : Nat) : (fieldBits o n v).length = n := by
  cases o <;> simp [fieldBits]

/-- A tag has one to three bits (10_state.md R39). -/
theorem length_tagBits (f : Format) (k : PfxKind) (h : (tagFor f k).isSome = true) :
    1 ≤ (tagBits f k).length ∧ (tagBits f k).length ≤ 3 := by
  obtain ⟨t, ht⟩ := Option.isSome_iff_exists.mp h
  have hm : t ∈ tagCandidates := List.mem_of_find?_eq_some ht
  have hall : ∀ t ∈ tagCandidates, 1 ≤ t.length ∧ t.length ≤ 3 := by decide
  simpa [tagBits, ht] using hall t hm

@[simp] theorem length_encodeByt (f : Format) (t : BytToken) :
    (encodeByt f t).length = 8 * (encodeBytBytes f t).length := by
  unfold encodeByt
  induction encodeBytBytes f t with
  | nil => rfl
  | cons b bs ih => simp only [List.flatMap_cons, List.length_append, length_fieldBits, ih,
      List.length_cons]; omega

theorem length_explicitBytes (form : CountForm) (n : Nat) : (explicitBytes form n).length ≤ 2 := by
  cases form <;> simp [explicitBytes]

/-- The magnitude code of a delta in range is below 511, so its unary prefix has at most 8 one-bits
(46_delta_pixel.md R255, R256). -/
theorem prefixLen_le (f : Format) (d : Int) (h : deltaWf f d = true) : prefixLen (deltaCode f d) ≤ 8 := by
  have hu : deltaCode f d ≤ 510 := by
    unfold deltaWf at h
    unfold deltaCode
    split at h
    · simp_all
    · simp only [Bool.and_eq_true, decide_eq_true_eq] at h
      rename_i hs
      simp only [hs]
      split
      · contradiction
      · split <;> omega
  have h9 : Nat.log2 (deltaCode f d + 1) < 9 := (Nat.log2_lt (by omega)).mpr (by omega)
  unfold prefixLen
  omega

/-- A prefix-family format's offset and count widths (43_token_decoder.md R182). -/
theorem Format.wf_pfx (f : Format) (h : f.wf = true) (hf : (f.family == .pfx) = true) :
    1 ≤ f.offw ∧ f.offw ≤ 16 ∧ 1 ≤ f.cntw ∧ f.cntw ≤ 8 := by
  have hp : f.family = .pfx := by simpa using hf
  simp [Format.wf, hp] at h
  omega

namespace Laws

/-- The least and the greatest number of bits an instruction's encoding takes (30_encoding.md R100, R105,
R108, R111, R112, R114); the payload of a literal run is not part of its header. -/
def EncodedLength.bounds : Instr → Nat × Nat
  | .nop | .clear | .sreset | .bcinit _ _ | .bcpeek _ | .bctake _ | .bcalign | .ocopy | .decode _
  | .probe | .keygen _ | .cipher | .lane => (32, 32)
  | .pfxLit _ | .pfxRun2 _ | .pfxRun3 _ => (9, 11)
  | .pfxCopy _ _ _ => (3, 43)
  | .pfxTerm => (2, 19)
  | .bytTerm => (8, 8)
  | .bytLitrun _ _ => (8, 24)
  | .bytFillb _ _ _ => (16, 32)
  | .bytFillw _ _ _ _ => (24, 40)
  | .bytCopys _ _ _ => (16, 32)
  | .bytCopyl _ _ _ => (24, 40)
  | .dpxElem _ _ => (3, 20)
  | .dpxApair _ _ => (16, 16)
  | .lopEnd | .lopAdd _ _ _ | .lopSub _ _ _ | .lopXor _ _ _ => (16, 16)

/-- A well-formed instruction's encoding has a length within the bounds of its space (30_encoding.md
R100). -/
def EncodedLength.Statement (i : Instr) : Prop :=
  ∀ f : Format, f.wf = true → i.wf f = true → tagged f i = true →
    (EncodedLength.bounds i).1 ≤ (encode f i).size ∧ (encode f i).size ≤ (EncodedLength.bounds i).2

theorem EncodedLength.nop : Statement .nop := fun _ _ _ _ => ⟨le_refl _, le_refl _⟩

theorem EncodedLength.clear : Statement .clear := fun _ _ _ _ => ⟨le_refl _, le_refl _⟩

theorem EncodedLength.sreset : Statement .sreset := fun _ _ _ _ => ⟨le_refl _, le_refl _⟩

theorem EncodedLength.bcinit (o : BitOrder) (r : RefillWidth) : Statement (.bcinit o r) :=
  fun _ _ _ _ => ⟨le_refl _, le_refl _⟩

theorem EncodedLength.bcpeek (n : BitVec 6) : Statement (.bcpeek n) :=
  fun _ _ _ _ => ⟨le_refl _, le_refl _⟩

theorem EncodedLength.bctake (n : BitVec 6) : Statement (.bctake n) :=
  fun _ _ _ _ => ⟨le_refl _, le_refl _⟩

theorem EncodedLength.bcalign : Statement .bcalign := fun _ _ _ _ => ⟨le_refl _, le_refl _⟩

theorem EncodedLength.ocopy : Statement .ocopy := fun _ _ _ _ => ⟨le_refl _, le_refl _⟩

theorem EncodedLength.decode (v : Fin 4) : Statement (.decode v) :=
  fun _ _ _ _ => ⟨le_refl _, le_refl _⟩

theorem EncodedLength.probe : Statement .probe := fun _ _ _ _ => ⟨le_refl _, le_refl _⟩

theorem EncodedLength.keygen (t : KeyTarget) : Statement (.keygen t) :=
  fun _ _ _ _ => ⟨le_refl _, le_refl _⟩

theorem EncodedLength.cipher : Statement .cipher := fun _ _ _ _ => ⟨le_refl _, le_refl _⟩

theorem EncodedLength.lane : Statement .lane := fun _ _ _ _ => ⟨le_refl _, le_refl _⟩

theorem EncodedLength.pfxLit (v : Byte) : Statement (.pfxLit v) := by
  intro f _ _ ht
  have := length_tagBits f .lit ht
  simp [encode, encodePfx, Encoded.size, bounds]; omega

theorem EncodedLength.pfxRun2 (v : Byte) : Statement (.pfxRun2 v) := by
  intro f _ _ ht
  have := length_tagBits f .run2 ht
  simp [encode, encodePfx, Encoded.size, bounds]; omega

theorem EncodedLength.pfxRun3 (v : Byte) : Statement (.pfxRun3 v) := by
  intro f _ _ ht
  have := length_tagBits f .run3 ht
  simp [encode, encodePfx, Encoded.size, bounds]; omega

theorem EncodedLength.pfxCopy (o l : BitVec 16) (form : CountForm) : Statement (.pfxCopy o l form) := by
  intro f hf hw ht
  have := length_tagBits f .copy ht
  simp only [Instr.wf, Bool.and_eq_true] at hw
  have := Format.wf_pfx f hf hw.1.1.1
  cases form <;> simp [encode, encodePfx, Encoded.size, bounds] <;> omega

theorem EncodedLength.pfxTerm : Statement .pfxTerm := by
  intro f hf hw ht
  have := length_tagBits f .copy ht
  have := Format.wf_pfx f hf hw
  simp [encode, encodePfx, Encoded.size, bounds]; omega

theorem EncodedLength.bytTerm : Statement .bytTerm := by
  intro f _ _ _; simp [encode, encodeBytBytes, Encoded.size, bounds]

theorem EncodedLength.bytLitrun (n : BitVec 16) (form : CountForm) : Statement (.bytLitrun n form) := by
  intro f _ _ _
  have := length_explicitBytes form n.toNat
  simp [encode, encodeBytBytes, Encoded.size, bounds]; omega

theorem EncodedLength.bytFillb (n : BitVec 16) (form : CountForm) (v : Byte) :
    Statement (.bytFillb n form v) := by
  intro f _ _ _
  have := length_explicitBytes form n.toNat
  simp [encode, encodeBytBytes, Encoded.size, bounds]; omega

theorem EncodedLength.bytFillw (n : BitVec 16) (form : CountForm) (u0 u1 : Byte) :
    Statement (.bytFillw n form u0 u1) := by
  intro f _ _ _
  have := length_explicitBytes form n.toNat
  simp [encode, encodeBytBytes, Encoded.size, bounds]; omega

theorem EncodedLength.bytCopys (l : BitVec 16) (form : CountForm) (o : Byte) :
    Statement (.bytCopys l form o) := by
  intro f _ _ _
  have := length_explicitBytes form l.toNat
  simp [encode, encodeBytBytes, Encoded.size, bounds]; omega

theorem EncodedLength.bytCopyl (l : BitVec 16) (form : CountForm) (o : BitVec 16) :
    Statement (.bytCopyl l form o) := by
  intro f _ _ _
  have := length_explicitBytes form l.toNat
  simp [encode, encodeBytBytes, Encoded.size, bounds]; omega

theorem EncodedLength.dpxElem (sel : Predictor) (d : Int) : Statement (.dpxElem sel d) := by
  intro f _ hw _
  simp only [Instr.wf, Bool.and_eq_true] at hw
  have := prefixLen_le f d hw.2
  simp only [encode, encodeElem, Encoded.size, bounds, List.length_append, length_fieldBits,
    List.length_replicate, List.length_cons, List.length_nil]
  split <;> simp <;> omega

theorem EncodedLength.dpxApair (r v : Byte) : Statement (.dpxApair r v) := by
  intro f _ _ _; simp [encode, encodePair, Encoded.size, bounds]

theorem EncodedLength.lopEnd : Statement .lopEnd := fun _ _ _ _ => ⟨le_refl _, le_refl _⟩

theorem EncodedLength.lopAdd (w : LaneWidth) (d s : Fin 8) : Statement (.lopAdd w d s) :=
  fun _ _ _ _ => ⟨le_refl _, le_refl _⟩

theorem EncodedLength.lopSub (w : LaneWidth) (d s : Fin 8) : Statement (.lopSub w d s) :=
  fun _ _ _ _ => ⟨le_refl _, le_refl _⟩

theorem EncodedLength.lopXor (w : LaneWidth) (d s : Fin 8) : Statement (.lopXor w d s) :=
  fun _ _ _ _ => ⟨le_refl _, le_refl _⟩

end Laws

end Sys2Proof
end

