-- ==== Sys2Proof/Tests/Slice0.lean ====
section
/-! SUPPORT. The package's own tests: ill-formed terms that WellFormed refuses, a hand-written encoding of
every constructor, one or two small steps per instruction with results taken from spec/, and a witness for
the hypotheses of every statement of the certificate. -/

namespace Sys2Proof.Tests

open Sys2Proof.Machine

/-- The reset formats of the three families (10_state.md R53 with the family replaced). -/
def pfxFmt : Format := tableFormat .pfx

/-- The byte-controlled one. -/
def bytFmt : Format := tableFormat .byt

/-- The delta one. -/
def deltaFmt : Format := tableFormat .delta

/-! ## WellFormed refuses -/

theorem test_wf_bit_count : Instr.wf pfxFmt (.bctake 33) = false := by decide
theorem test_wf_bit_count_peek : Instr.wf pfxFmt (.bcpeek 63) = false := by decide
theorem test_wf_family_pfx : Instr.wf bytFmt (.pfxLit 0x41) = false := by decide
theorem test_wf_family_byt : Instr.wf pfxFmt .bytTerm = false := by decide
theorem test_wf_family_delta : Instr.wf pfxFmt (.dpxApair 0 0) = false := by decide
theorem test_wf_copy_offset_zero : Instr.wf pfxFmt (.pfxCopy 0 3 .inline) = false := by decide
theorem test_wf_copy_offset_wide : Instr.wf pfxFmt (.pfxCopy 4096 3 .inline) = false := by decide
theorem test_wf_copy_escape_code : Instr.wf pfxFmt (.pfxCopy 1 15 .inline) = false := by decide
theorem test_wf_copy_count_wide :
    Instr.wf { pfxFmt with escEn := false } (.pfxCopy 1 16 .inline) = false := by decide
theorem test_wf_copy_no_escape :
    Instr.wf { pfxFmt with escEn := false } (.pfxCopy 1 3 .explicit) = false := by decide
theorem test_wf_copys_below_bias :
    Instr.wf { bytFmt with lenbias := 3 } (.bytCopys 2 .inline 1) = false := by decide
theorem test_wf_litrun_wide : Instr.wf bytFmt (.bytLitrun 64 .inline) = false := by decide
theorem test_wf_litrun_is_term : Instr.wf bytFmt (.bytLitrun 0 .inline) = false := by decide
theorem test_wf_copys_is_term :
    Instr.wf { bytFmt with term := 0x85 } (.bytCopys 5 .inline 2) = false := by decide
theorem test_wf_delta_zigzag : Instr.wf deltaFmt (.dpxElem .left 256) = false := by decide
theorem test_wf_delta_sign :
    Instr.wf { deltaFmt with signBit := true } (.dpxElem .left (-511)) = false := by decide
theorem test_wf_format_offw : Format.wf { pfxFmt with offw := 17 } = false := by decide
theorem test_wf_format_cntw : Format.wf { pfxFmt with cntw := 0 } = false := by decide
theorem test_wf_format_lenbias : Format.wf { pfxFmt with lenbias := 16 } = false := by decide

/-! ## Every constructor's encoding, written out from 30_encoding.md -/

theorem test_decode_nop : decodeCmd 0b00000000000000000000000000000000 = .ok .nop := rfl
theorem test_decode_clear : decodeCmd 0b00000000000000000000000000000001 = .ok .clear := rfl
theorem test_decode_sreset : decodeCmd 0b00000000000000000000000000000010 = .ok .sreset := rfl
theorem test_decode_bcinit :
    decodeCmd 0b00000000000000000000010100010000 = .ok (.bcinit .lsb .w4) := rfl
theorem test_decode_bcpeek : decodeCmd 0b00000000000000000000010000010001 = .ok (.bcpeek 4) := rfl
theorem test_decode_bctake : decodeCmd 0b00000000000000000010000000010010 = .ok (.bctake 32) := rfl
theorem test_decode_bcalign : decodeCmd 0b00000000000000000000000000010011 = .ok .bcalign := rfl
theorem test_decode_ocopy : decodeCmd 0b00000000000000000000000000011000 = .ok .ocopy := rfl
theorem test_decode_decode : decodeCmd 0b00000000000000000000001100100000 = .ok (.decode 3) := rfl
theorem test_decode_probe : decodeCmd 0b00000000000000000000000000100001 = .ok .probe := rfl
theorem test_decode_keygen : decodeCmd 0b00000000000000000000000100110000 = .ok (.keygen .kr) := rfl
theorem test_decode_cipher : decodeCmd 0b00000000000000000000000000110001 = .ok .cipher := rfl
theorem test_decode_lane : decodeCmd 0b00000000000000000000000000110010 = .ok .lane := rfl
theorem test_decode_end : decodeLop 0b0000000000000000 = .ok .stop := rfl
theorem test_decode_add : decodeLop 0b0010100000100000 = .ok (.add .l16 0 1) := rfl
theorem test_decode_sub : decodeLop 0b0100110111100000 = .ok (.sub .l16 5 7) := rfl
theorem test_decode_xor : decodeLop 0b0111100001000000 = .ok (.xor .l64 0 2) := rfl

/-- The bits of a token as the spec prints them, first consumed bit first. -/
def bits (s : String) : List Bool := (s.toList.filter (· ≠ ' ')).map (· == '1')

theorem test_decode_pfx_lit : decode pfxFmt (.stream (bits "0 01000001")) = .ok (.pfxLit 0x41) := by
  decide
theorem test_decode_pfx_run2 : decode pfxFmt (.stream (bits "110 01010101")) = .ok (.pfxRun2 0x55) := by
  decide
theorem test_decode_pfx_run3 : decode pfxFmt (.stream (bits "111 10101010")) = .ok (.pfxRun3 0xAA) := by
  decide
theorem test_decode_pfx_copy :
    decode pfxFmt (.stream (bits "10 000000000001 0011")) = .ok (.pfxCopy 1 3 .inline) := by decide
theorem test_decode_pfx_copy_explicit :
    decode pfxFmt (.stream (bits "10 000000000001 1111 0000000000010100"))
      = .ok (.pfxCopy 1 20 .explicit) := by decide
theorem test_decode_pfx_term : decode pfxFmt (.stream (bits "10 000000000000")) = .ok .pfxTerm := by
  decide
theorem test_decode_byt_term : decode bytFmt (.stream (bits "00000000")) = .ok .bytTerm := by
  decide
theorem test_decode_byt_litrun :
    decode bytFmt (.stream (bits "00000011")) = .ok (.bytLitrun 3 .inline) := by decide
theorem test_decode_byt_litrun_explicit :
    decode bytFmt (.stream (bits "00111111 00000010 00000001"))
      = .ok (.bytLitrun 0x0102 .explicit) := by decide
theorem test_decode_byt_fillb :
    decode bytFmt (.stream (bits "01000100 11111111")) = .ok (.bytFillb 4 .inline 0xFF) := by decide
theorem test_decode_byt_fillw :
    decode bytFmt (.stream (bits "01100010 10101011 11001101"))
      = .ok (.bytFillw 2 .inline 0xAB 0xCD) := by decide
theorem test_decode_byt_copys :
    decode bytFmt (.stream (bits "10000101 00000010")) = .ok (.bytCopys 5 .inline 2) := by decide
theorem test_decode_byt_copyl :
    decode bytFmt (.stream (bits "11000100 00000010 00000001"))
      = .ok (.bytCopyl 4 .inline 0x0102) := by decide
theorem test_decode_dpx_elem :
    decode deltaFmt (.stream (bits "11 11110 0101")) = .ok (.dpxElem .ref 10) := by decide
theorem test_decode_dpx_elem_negative :
    decode deltaFmt (.stream (bits "10 10 0")) = .ok (.dpxElem .upLeft (-1)) := by decide
theorem test_decode_dpx_apair :
    decode deltaFmt (.alpha (bits "00000010 10000000")) = .ok (.dpxApair 2 0x80) := by decide
theorem test_decode_reserved_opcode : decodeCmd 0x00000003 = .error .reservedOpcode := rfl
theorem test_decode_reserved_micro_op : decodeLop 0x8000 = .error .reservedMicroOp := rfl
theorem test_table_word_command : decodeTableWord 32 0x120 = some (.decode 1) := rfl
theorem test_table_word_token : decodeTableWord 8 0x40 = some (.bytFillb 0 .inline 0) := by decide

/-! ## Small steps -/

/-- The state one step leads to. -/
def after (s : State) : State :=
  match step s with
  | .next t => t
  | _ => s

/-- The state the command `w` leads to. -/
def command (w : Word) (s : State) : State := after { s with host := [.writeReg 0x000 w] }

/-- The state an instruction leads to. -/
def run (i : Instr) (s : State) : State :=
  match exec i s with
  | .next t => t
  | _ => s

/-- The first `n` bytes of `OUT`. -/
def outBytes (n : Nat) (s : State) : List Byte := s.out.readBytes .out 0 n

/-- Reset, with source bytes and an output length. -/
def withSource (bs : List Byte) (outLen : Word) : State :=
  { State.reset with src := Memory.ofBytes bs, srcLen := BitVec.ofNat 32 bs.length, outLen := outLen }

/-- Reset, with output bytes in place. -/
def withOut (bs : List Byte) : State :=
  { State.reset with out := Memory.ofBytes bs, outLen := BitVec.ofNat 32 bs.length }

/-- Vector V1. -/
theorem test_nop : statusWord (command 0x00000000 State.reset) = 0x00000002 := by decide

/-- The example of 40_commands.md R137. -/
theorem test_clear : statusWord (command 0x00000001 (raise .boundsViolation 0 State.reset)) = 0 := by
  decide

/-- R132: with `ERR = 1` a CLEAR is decoded from its low byte alone. -/
theorem test_clear_any_upper_bits :
    statusWord (command 0xFFFFFF01 (raise .boundsViolation 0 State.reset)) = 0 := by decide

/-- The example of 40_commands.md R138. -/
theorem test_sreset :
    let t := command 0x00000002 { State.reset with ktlen := 9, fmt := Vector.replicate 4 0 }
    (t.fmt[0], t.tagtab[0], t.ktlen, t.cmd) = (0x00081180, 0xB7EE1111, 1, 0) := by decide

/-- R346: any other command is refused. -/
theorem test_sticky_error :
    let t := command 0x00000510 (raise .truncatedInput 0 State.reset)
    (t.cmd, statusWord t, t.cur.mode) = (0x510, 0x00000306, 0) := by decide

/-- R104: a reserved opcode raises IllegalCommand. -/
theorem test_illegal_word : statusWord (command 0x00000003 State.reset) = 0x00000606 := by decide

/-- The example of 41_bitcursor.md R160. -/
theorem test_bcinit : (command 0x00000510 State.reset).cur.mode = 0b101 := by decide

/-- The example of 41_bitcursor.md R161. -/
theorem test_bcpeek :
    let t := command 0x00000411 (withSource [0xA5, 0x3C] 0)
    (t.curResult, bitpos t.cur) = (0xA, 0) := by decide

/-- The example of 41_bitcursor.md R162, both reads. -/
theorem test_bctake :
    let t := command 0x00000712 (command 0x00000312 (withSource [0xA5, 0x3C] 0))
    (t.curResult, t.cur.bpos, t.cur.cbits, t.cur.cache) = (0x14, 2, 6, 0xF0000000) := by decide

/-- R153: under LSB-first the first bit is bit 0. -/
theorem test_bctake_lsb :
    (command 0x00000412 (command 0x00000110 (withSource [0xA5, 0x3C] 0))).curResult = 5 := by decide

/-- The example of 41_bitcursor.md R163. -/
theorem test_bcalign :
    let t := command 0x00000013 (command 0x00000712 (command 0x00000312 (withSource [0xA5, 0x3C] 0)))
    (t.cur.cbits, t.cur.cache, t.cur.bpos) = (0, 0, 2) := by decide

/-- R163: the read after it returns zero-fill and sets `OVR`. -/
theorem test_bcalign_then_take :
    let t := command 0x00000812
      { withSource [0xA5, 0x3C] 0 with cur := { bpos := 2, cache := 0, cbits := 0, mode := 0 } }
    (t.curResult, statusWord t) = (0, 0x22) := by decide

/-- Vector V20. -/
theorem test_ocopy :
    let t := command 0x00000018
      { withOut [0x41, 0x42, 0x43, 0, 0, 0, 0, 0] with ocFrom := 1, ocTo := 3, ocLen := 5 }
    (outBytes 8 t, statusWord t) = ([0x41, 0x42, 0x43, 0x42, 0x43, 0x42, 0x43, 0x42], 0x12) := by
  decide

/-- Vector V29: the sum is over the integers. -/
theorem test_ocopy_no_wrap :
    statusWord (command 0x00000018 { withOut [0x41, 0x42, 0x43, 0, 0, 0, 0, 0] with
      ocFrom := 0, ocTo := 0xFFFFFFFF, ocLen := 2 }) = 0x106 := by decide

/-- The example of 43_token_decoder.md R180. -/
theorem test_decode :
    let t := command 0x00000020 (withSource [0x20, 0xC0, 0x02, 0x60] 4)
    (outBytes 4 t, statusWord t, bitpos t.cur) = ([0x41, 0x41, 0x41, 0x41], 0x12, 27) := by decide

/-- The scenario of 44_token_byte.md R219. -/
theorem test_decode_scenario :
    let t := command 0x00000020
      { withSource [0x03, 0x11, 0x22, 0x33, 0x85, 0x02, 0x44, 0xFF, 0x00] 16 with
        fmt := Vector.replicate 4 0x00081181 }
    (outBytes 16 t, t.opos, statusWord t)
      = ([0x11, 0x22, 0x33, 0x22, 0x33, 0x22, 0x33, 0x22, 0xFF, 0xFF, 0xFF, 0xFF, 0, 0, 0, 0], 12, 0x1A) := by
  decide +kernel

/-- The scenario of 45_variant_prober.md R236. -/
theorem test_probe :
    let t := command 0x00000021
      { withSource [0x03, 0x11, 0x22, 0x33, 0x85, 0x02, 0x44, 0xFF, 0x00] 16 with
        fmt := #v[0x00081180, 0x00081181, 0, 0], probeCfg := 2 }
    (t.opos, t.vstate, statusWord t) = (12, 1, 0x0001001A) := by decide +kernel

/-- 45_variant_prober.md R237 (a). -/
theorem test_probe_format_error :
    let t := command 0x00000021
      { withSource [0x03, 0x11, 0x22, 0x33, 0x85, 0x02, 0x44, 0xFF, 0x00] 16 with
        fmt := #v[0x00081180, 0x00081181, 0, 0], probeCfg := 0x22 }
    (t.vstate, statusWord t) = (0, 0x00004506) := by decide +kernel

/-- The examples of 47_stream_cipher.md R300. -/
theorem test_keygen_kt :
    let t := command 0x00000030 { State.reset with seed := 1, lcgA := 3, lcgB := 5, ktlen := 10 }
    (t.kt[0], t.kt[3], t.kt[4], t.kt[8], t.kt[10], statusWord t) = (8, 0, 0x1D, 0x5C, 0, 2) := by
  decide +kernel

theorem test_keygen_kr :
    let t := command 0x00000130 { State.reset with seed := 0x12345678, lcgA := 0x00010DCD, lcgB := 1 }
    (t.kr[0], t.kr[6]) = (0xE37E370692C55619, 0x7812CACA2D1914ED) := by decide

/-- 47_stream_cipher.md R291 (a), the 8-byte SUB row, first lane. -/
theorem test_cipher_sub :
    let t := command 0x00000031 { withOut [0x10, 0x11, 0x12, 0x13, 0x14, 0x15, 0x16, 0x17] with
      seed := 0x12345678, lcgA := 0x00010DCD, lcgB := 1, ciphCfg := 0x28, ciphLen := 8 }
    outBytes 8 t = [0xF7, 0xBA, 0x4C, 0x80, 0x0D, 0xDE, 0x97, 0x33] := by decide

/-- 47_stream_cipher.md R291 (b): a window with a tail. -/
theorem test_cipher_window :
    let t := command 0x00000031
      { withOut [0x10, 0x11, 0x12, 0x13, 0x14, 0x15, 0x16, 0x17, 0x18, 0x19, 0x1A] with
        seed := 0x12345678, lcgA := 0x00010DCD, lcgB := 1, ciphCfg := 0x10, ciphOff := 3, ciphLen := 7 }
    outBytes 11 t = [0x10, 0x11, 0x12, 0x2C, 0x6A, 0xDA, 0xA8, 0x1D, 0x4F, 0x19, 0x1A] := by decide

/-- Vector V124, first block: the register image of 48_lane_transform.md R320. -/
theorem test_lane :
    let t := command 0x00000032 { withOut [0xFF, 0x01, 0x80, 0x7F, 0x00, 0x10, 0xFE, 0xFF, 0x11] with
      lprog := #v[0x21607820, 0, 0, 0], ciphLen := 9
      kr := #v[0x0807060504030201, 0x00000001000000FF, 0x1111111111111111, 0, 0, 0, 0] }
    (outBytes 9 t, t.v[1], t.kr[0])
      = ([0xFE, 0x03, 0x83, 0x7B, 0x05, 0x16, 0xF9, 0xF7, 0x11], 0x1918171615141312, 0x0807060504030201) := by
  decide

/-- 48_lane_transform.md R320: slots after the first END are never examined. -/
theorem test_lane_after_end :
    statusWord (command 0x00000032 { withOut [1] with lprog := #v[0x00002020, 0x00008000, 0, 0] }) = 0x12 := by
  decide

/-- Reset with four bytes of output produced and room for eight. -/
def midOutput : State :=
  { withOut [0x11, 0x22, 0x33, 0x44, 0, 0, 0, 0] with
    src := Memory.ofBytes [0x61, 0x62, 0x63, 0x64], srcLen := 4, opos := 4 }

theorem test_pfx_lit : outBytes 6 (run (.pfxLit 0x55) midOutput) = [0x11, 0x22, 0x33, 0x44, 0x55, 0] := by
  decide
theorem test_pfx_run2 : outBytes 7 (run (.pfxRun2 0x55) midOutput)
    = [0x11, 0x22, 0x33, 0x44, 0x55, 0x55, 0] := by decide
theorem test_pfx_run3 : outBytes 8 (run (.pfxRun3 0x55) midOutput)
    = [0x11, 0x22, 0x33, 0x44, 0x55, 0x55, 0x55, 0] := by decide
theorem test_pfx_copy : outBytes 8 (run (.pfxCopy 2 3 .inline) midOutput)
    = [0x11, 0x22, 0x33, 0x44, 0x33, 0x44, 0x33, 0] := by decide
theorem test_pfx_copy_too_far : statusWord (run (.pfxCopy 5 3 .inline) midOutput) = 0x106 := by
  decide
theorem test_pfx_term : (run .pfxTerm midOutput).status.early = true := by decide
theorem test_byt_term : (run .bytTerm midOutput).status.early = true := by decide
theorem test_byt_litrun : outBytes 8 (run (.bytLitrun 3 .inline) midOutput)
    = [0x11, 0x22, 0x33, 0x44, 0x61, 0x62, 0x63, 0] := by decide +kernel
theorem test_byt_litrun_short :
    statusWord (run (.bytLitrun 4 .inline) { midOutput with srcLen := 3 }) = 0x306 := by decide
theorem test_byt_fillb : outBytes 8 (run (.bytFillb 2 .inline 0xFF) midOutput)
    = [0x11, 0x22, 0x33, 0x44, 0xFF, 0xFF, 0, 0] := by decide
theorem test_byt_fillb_zero : statusWord (run (.bytFillb 0 .inline 0xFF) midOutput) = 0x206 := by
  decide
theorem test_byt_fillw : outBytes 8 (run (.bytFillw 2 .inline 0xAB 0xCD) midOutput)
    = [0x11, 0x22, 0x33, 0x44, 0xAB, 0xCD, 0xAB, 0xCD] := by decide
theorem test_byt_copys : outBytes 8 (run (.bytCopys 4 .inline 1) midOutput)
    = [0x11, 0x22, 0x33, 0x44, 0x44, 0x44, 0x44, 0x44] := by decide
theorem test_byt_copys_offset_zero : statusWord (run (.bytCopys 4 .inline 0) midOutput) = 0x106 := by
  decide
theorem test_byt_copyl : outBytes 8 (run (.bytCopyl 3 .inline 4) midOutput)
    = [0x11, 0x22, 0x33, 0x44, 0x11, 0x22, 0x33, 0] := by decide

/-- A 2 by 2 image of one channel with three samples decoded (46_delta_pixel.md R262). -/
def image : State := { withOut [0x0A, 0x0C, 0x0B, 0] with dpDim := 0x00020002, dpCfg := 1, opos := 3 }

theorem test_dpx_elem : outBytes 4 (run (.dpxElem .upLeft (-1)) image) = [0x0A, 0x0C, 0x0B, 0x09] := by
  decide

/-- 46_delta_pixel.md R257: `p = 0`, `d = −1` gives 0xFF; R253: `REF` is 0 outside the image. -/
theorem test_dpx_elem_wraps : outBytes 1 (run (.dpxElem .left (-1)) { image with opos := 0 }) = [0xFF] := by
  decide

/-- A 2 by 2 image of four channels after its colour pass, stored bottom-to-top (46_delta_pixel.md R265). -/
def alphaImage : State :=
  { withOut (List.replicate 16 0) with dpDim := 0x00020002, dpCfg := 0x00000054, opos := 12 }

theorem test_dpx_apair :
    outBytes 16 (run (.dpxApair 2 0x80) alphaImage)
      = [0, 0, 0, 0x80, 0, 0, 0, 0, 0, 0, 0, 0x80, 0, 0, 0, 0x80] := by decide
theorem test_dpx_apair_too_long : statusWord (run (.dpxApair 4 0x80) alphaImage) = 0x106 := by
  decide

/-- A literal run of three zero bytes, stored where the next step runs it (44_token_byte.md R214). -/
theorem test_fetch_word_token :
    outBytes 3 (after (State.reset.withFetchWord 8 0x03)) = [0, 0, 0]
      ∧ statusWord (after (State.reset.withFetchWord 8 0x03)) = 0x12 := by decide

/-- `ADD.W V0, V1` (30_encoding.md R122) over a block of zeros. -/
theorem test_fetch_word_micro_op : statusWord (after (State.reset.withFetchWord 16 0x2820)) = 0x12 := by decide

/-- The registers of the examples of 48_lane_transform.md R315 to R317. -/
def lanes : State :=
  { State.reset with v := #v[0xFFFE10007F8001FF, 0x0807060504030201, 0, 0, 0, 0, 0, 0] }

theorem test_lop_end : (run .lopEnd lanes).v = lanes.v := by decide
theorem test_lop_add_b : (run (.lopAdd .l8 0 1) lanes).v[0] = 0x0705160583830300 := by decide
theorem test_lop_add_w : (run (.lopAdd .l16 0 1) lanes).v[0] = 0x0805160583830400 := by decide
theorem test_lop_sub_b : (run (.lopSub .l8 0 1) lanes).v[0] = 0xF7F70AFB7B7DFFFE := by decide
theorem test_lop_sub_d : (run (.lopSub .l32 0 1) lanes).v[0] = 0xF7F709FB7B7CFFFE := by decide
theorem test_lop_xor : (run (.lopXor .l8 0 1) lanes).v[0] = 0xF7F916057B8303FE := by decide

/-- 47_stream_cipher.md R286, the initialisation check for seed 5489. -/
theorem test_mt_init : (mtInit 5489).mt.getD 3 0 = 0x2835583A := by decide

/-- 47_stream_cipher.md R285, the outputs for `SEED = 1`, `A = 3`, `B = 5`. -/
theorem test_lcg : lcgWords 3 5 6 1 = [0x8, 0x1D, 0x5C, 0x119, 0x350, 0x9F5] := by decide

/-! ## Witnesses

One theorem per statement with hypotheses: states and operands that meet them, at the edge of each clause. -/

/-- Reset with one pending host move. -/
def pending (m : HostMove) : State := { State.reset with host := [m] }

/-- The same with a sticky error. -/
def pendingUnderError (m : HostMove) : State := { raise .boundsViolation 0 State.reset with host := [m] }

theorem witness_ResetGivesEveryRegisterItsValue : (pending .reset).host = .reset :: [] := rfl

theorem witness_RegisterMapIsTheTable :
    (∀ r, offsetOf r ≠ (0x084 : BitVec 12).toNat) ∧ (∀ r, offsetOf r ≠ (0x0FC : BitVec 12).toNat)
      ∧ (∀ r, offsetOf r ≠ (0x240 : BitVec 12).toNat) ∧ (∀ r, offsetOf r ≠ (0xFFF : BitVec 12).toNat)
      ∧ (pending (.writeReg 0x084 7)).host = .writeReg 0x084 7 :: []
      ∧ (pending (.readReg 0xFFF)).host = .readReg 0xFFF :: [] := by
  refine ⟨?_, ?_, ?_, ?_, rfl, rfl⟩ <;> intro r <;> cases r <;> simp [offsetOf] <;> omega

theorem witness_HostWriteReadsBackMasked :
    (regAt 0x008 = some .ctrl ∧ Reg.ctrl ≠ .cmd ∧ readOnly .ctrl = false
        ∧ (pending (.writeReg 0x008 0xFFFFFFFF)).host = .writeReg 0x008 0xFFFFFFFF :: [])
      ∧ (regAt 0x23C = some (.vHi 7) ∧ Reg.vHi 7 ≠ .cmd ∧ readOnly (.vHi 7) = true
        ∧ (pending (.writeReg 0x23C 1)).host = .writeReg 0x23C 1 :: []) := by decide

theorem witness_HostMovesReadAndWriteOneItem :
    (regAt 0x03C = some .probeCfg ∧ (pending (.readReg 0x03C)).host = .readReg 0x03C :: [])
      ∧ (pending (.readSrc 0xFFFFFFFF)).host = .readSrc 0xFFFFFFFF :: []
      ∧ (pending (.readOut 0)).host = .readOut 0 :: []
      ∧ (pending (.writeSrc 0xFFFFFFFF 1)).host = .writeSrc 0xFFFFFFFF 1 :: []
      ∧ (pending (.writeOut 0 1)).host = .writeOut 0 1 :: [] ∧ State.reset.host = [] := by decide

theorem witness_InterruptFollowsDone :
    (pending (.writeReg 0x008 0xFFFFFFFE)).host = .writeReg 0x008 0xFFFFFFFE :: []
      ∧ (0xFFFFFFFE : Word).getLsbD 0 = false := by decide

theorem witness_CommandWriteRunsTheDecodedCommand :
    (writesCmd (pendingUnderError (.writeReg 0x000 0xFFFFFF01)) 0xFFFFFF01 []
        ∧ (pendingUnderError (.writeReg 0x000 0xFFFFFF01)).status.err = true
        ∧ (0xFFFFFF01 : Word).toNat % 256 = 0x01)
      ∧ (writesCmd (pendingUnderError (.writeReg 0x000 0x02)) 0x02 []
        ∧ (pendingUnderError (.writeReg 0x000 0x02)).status.err = true ∧ (0x02 : Word).toNat % 256 = 0x02)
      ∧ (writesCmd (pendingUnderError (.writeReg 0x000 0x03)) 0x03 []
        ∧ (pendingUnderError (.writeReg 0x000 0x03)).status.err = true
        ∧ (0x03 : Word).toNat % 256 ≠ 0x01 ∧ (0x03 : Word).toNat % 256 ≠ 0x02)
      ∧ (writesCmd (pending (.writeReg 0x000 0x03)) 0x03 []
        ∧ (pending (.writeReg 0x000 0x03)).status.err = false ∧ decodeCmd 0x03 = .error .reservedOpcode)
      ∧ (writesCmd (pending (.writeReg 0x000 0x32)) 0x32 []
        ∧ (pending (.writeReg 0x000 0x32)).status.err = false ∧ decodeCmd 0x32 = .ok .lane) :=
  ⟨⟨rfl, rfl, rfl⟩, ⟨rfl, rfl, rfl⟩, ⟨rfl, rfl, by decide, by decide⟩, ⟨rfl, rfl, rfl⟩, ⟨rfl, rfl, rfl⟩⟩

/-- Each way a command word is illegal. -/
theorem witness_IllegalCommandWordsRaise :
    illegalWord 0x00010000 ∧ illegalWord 0x00000033 ∧ illegalWord 0x00000132 ∧ illegalWord 0x00000610
      ∧ illegalWord 0x00000810 ∧ illegalWord 0x00002111 ∧ illegalWord 0x00004012
      ∧ illegalWord 0x00000420 ∧ illegalWord 0x00000230
      ∧ writesCmd (pending (.writeReg 0x000 0x33)) 0x33 []
      ∧ (pending (.writeReg 0x000 0x33)).status.err = false := by
  refine ⟨?_, ?_, ?_, ?_, ?_, ?_, ?_, ?_, ?_, rfl, rfl⟩ <;> unfold illegalWord <;> decide

theorem witness_CommandAndMicroOpRoundTrip :
    isCommand (.bctake 32) = true ∧ Instr.wf pfxFmt (.bctake 32) = true
      ∧ isMicroOp (.lopXor .l64 7 7) = true ∧ Instr.wf pfxFmt (.lopXor .l64 7 7) = true := by decide

theorem witness_DecodedWordsEncodeBack :
    decodeCmd 0x00000320 = .ok (.decode 3) ∧ decodeLop 0x7FE0 = .ok (.xor .l64 7 7) := ⟨rfl, rfl⟩

theorem witness_PrefixTokenRoundTrip :
    pfxFmt.wf = true ∧ Instr.wf pfxFmt (PfxToken.toInstr (.copy 4095 14 .inline)) = true
      ∧ tagged pfxFmt (PfxToken.toInstr (.copy 4095 14 .inline)) = true
      ∧ Instr.wf pfxFmt (PfxToken.toInstr (.copy 1 65535 .explicit)) = true := by decide

theorem witness_ByteTokenRoundTrip :
    Instr.wf { bytFmt with offw := 31, cntw := 0 } (BytToken.toInstr (.litrun 62 .inline)) = true
      ∧ Instr.wf bytFmt (BytToken.toInstr (.copyl 65535 .explicit 65535)) = true := by decide

theorem witness_DeltaCodeRoundTrip :
    Instr.wf { deltaFmt with offw := 0, cntw := 15 } (DeltaElem.toInstr { sel := .up, delta := -255 }) = true
      ∧ Instr.wf { deltaFmt with signBit := true } (DeltaElem.toInstr { sel := .ref, delta := 510 }) = true := by
  decide

/-- A reader over two bytes. -/
def reader (o : BitOrder) : Reader := { order := o, width := .w4, src := Memory.ofBytes [0xA5, 0x3C], len := 2 }

theorem witness_SplitTakeEqualsWholeTake :
    8 + 24 ≤ 32 ∧ (reader .msb).order = .msb ∧ (reader .lsb).order = .lsb := by decide

theorem witness_TakeReadsTheStreamBits :
    let c : BitCursor := { bpos := 0xFFFFFFF4, cache := 0, cbits := 0, mode := 0 }
    c.cbits = 0 ∧ c.bpos.toNat + 8 + 4 ≤ 2 ^ 32 := by decide

theorem witness_BitPositionCountsConsumedBits :
    (BitCursor.fresh .msb .w4).bpos.toNat + 4 * 32 < 2 ^ 32 := by decide

theorem witness_StrayCacheBitsAreNeverReturned :
    let c : BitCursor := { bpos := 1, cache := 0xA0000000, cbits := 4, mode := 0 }
    sameValidBits .msb c { c with cache := 0xAFFFFFFF } ∧ cacheClean .msb c := by
  refine ⟨by unfold sameValidBits; decide, by decide, fun i h1 h2 => ?_⟩
  have h3 : 4 ≤ i := h1
  interval_cases i <;> rfl

theorem witness_CursorCommandsComplete :
    State.reset.cur.cbits.toNat ≤ 32 ∧ State.reset.cur.refill? = some .w1
      ∧ State.reset.srcLen.toNat ≤ 2 ^ 31 - 1 ∧ (32 : BitVec 6).toNat ≤ 32
      ∧ State.reset.cur.mode.toNat / 2 ≠ 3 := by decide

theorem witness_CursorCommandsRejectBadConfiguration :
    32 < (33 : BitVec 6).toNat
      ∧ 32 < ({ bpos := 0, cache := 0, cbits := 33, mode := 0 } : BitCursor).cbits.toNat
      ∧ ({ bpos := 0, cache := 0, cbits := 0, mode := 6 } : BitCursor).mode.toNat / 2 = 3
      ∧ 2 ^ 31 - 1 < ({ State.reset with srcLen := 0x80000000 } : State).srcLen.toNat := by decide

/-- Reset with eight bytes of output and the operands of OCOPY. -/
def copying (src dst len : Word) : State :=
  { State.reset with outLen := 8, ocFrom := src, ocTo := dst, ocLen := len }

theorem witness_OcopyRepeatsTheBytesBetween :
    2 ^ 31 - 1 < ({ State.reset with outLen := 0x80000000 } : State).outLen.toNat
      ∧ (copying 3 3 1).outLen.toNat ≤ 2 ^ 31 - 1 ∧ (copying 3 3 1).ocTo.toNat ≤ (copying 3 3 1).ocFrom.toNat
      ∧ (copying 1 3 6).outLen.toNat < (copying 1 3 6).ocTo.toNat + (copying 1 3 6).ocLen.toNat
      ∧ (copying 1 3 5).ocFrom.toNat < (copying 1 3 5).ocTo.toNat
      ∧ (copying 1 3 5).ocTo.toNat + (copying 1 3 5).ocLen.toNat ≤ (copying 1 3 5).outLen.toNat := by decide

/-- `midOutput` with the buffer full. -/
def fullOutput : State := { midOutput with opos := 8 }

/-- `midOutput` with a cursor that has consumed zero-fill. -/
def overran : State := { midOutput with cur := { bpos := 5, cache := 0, cbits := 0, mode := 0 } }

theorem witness_LiteralTokensEmitTheirBytes :
    overrun midOutput = false ∧ overrun fullOutput = false
      ∧ fullOutput.outLen.toNat < fullOutput.opos.toNat + 1
      ∧ midOutput.opos.toNat + 1 ≤ midOutput.outLen.toNat
      ∧ (0 : BitVec 16).toNat = 0
      ∧ ((5 : BitVec 16).toNat ≠ 0 ∧ midOutput.outLen.toNat < midOutput.opos.toNat + (5 : BitVec 16).toNat)
      ∧ ((4 : BitVec 16).toNat ≠ 0
        ∧ midOutput.opos.toNat + (4 : BitVec 16).toNat ≤ midOutput.outLen.toNat
        ∧ overrun { midOutput with srcLen := 3 } = false
        ∧ bitpos midOutput.cur + 8 * ((4 : BitVec 16).toNat : Int)
          > 8 * (({ midOutput with srcLen := 3 } : State).srcLen.toNat : Int))
      ∧ (bitpos midOutput.cur + 8 * ((4 : BitVec 16).toNat : Int) ≤ 8 * (midOutput.srcLen.toNat : Int)
        ∧ midOutput.cur.refill? = some .w1) := by decide

theorem witness_FillTokensRepeatTheirUnit :
    overrun midOutput = false
      ∧ fillToken (.bytFillb 0 .inline 7) = some ([7], 0)
      ∧ (fillToken (.bytFillw 3 .inline 7 8) = some ([7, 8], 3) ∧ 3 ≠ 0
        ∧ midOutput.outLen.toNat < midOutput.opos.toNat + 3 * [(7 : Byte), 8].length)
      ∧ (fillToken (.bytFillw 2 .inline 7 8) = some ([7, 8], 2) ∧ 2 ≠ 0
        ∧ midOutput.opos.toNat + 2 * [(7 : Byte), 8].length ≤ midOutput.outLen.toNat)
      ∧ (fillToken (.pfxRun3 7) = some ([7], 3)
        ∧ midOutput.opos.toNat + 3 * [(7 : Byte)].length ≤ midOutput.outLen.toNat) := by decide

theorem witness_CopyTokensRepeatProducedBytes :
    overrun midOutput = false
      ∧ copyToken (.bytCopys 0 .inline 1) = some (1, 0)
      ∧ copyToken (.bytCopyl 1 .inline 0) = some (0, 1)
      ∧ (copyToken (.pfxCopy 5 1 .inline) = some (5, 1) ∧ midOutput.opos.toNat < 5)
      ∧ (copyToken (.pfxCopy 4 5 .inline) = some (4, 5) ∧ 4 ≤ midOutput.opos.toNat
        ∧ midOutput.outLen.toNat < midOutput.opos.toNat + 5)
      ∧ (copyToken (.bytCopys 4 .inline 4) = some (4, 4) ∧ 4 ≠ 0 ∧ 4 ≤ midOutput.opos.toNat
        ∧ midOutput.opos.toNat + 4 ≤ midOutput.outLen.toNat) := by decide

theorem witness_OverrunTokensAreTruncated :
    isRaisingToken (.bytLitrun 0 .inline) = true ∧ isRaisingToken (.dpxApair 0 0) = true
      ∧ overrun overran = true := by decide

/-- Four sources whose first code is the literal 0x41, FILLB, the delta element of 46_delta_pixel.md R262,
and an alpha pair, each fetched whole. -/
theorem witness_LoopsRunWhatTheyFetch :
    (fetchPfx pfxFmt (readerFor pfxFmt (withSource [0x20, 0x80] 4)) State.reset.cur).1 = .ok (.lit 0x41)
      ∧ (fetchByt bytFmt (readerFor bytFmt (withSource [0x44, 0xFF] 4)) State.reset.cur).1
        = .fillb 4 .inline 0xFF
      ∧ (fetchElem deltaFmt (readerFor deltaFmt (withSource [0xFC, 0xA6] 4)) State.reset.cur).1
        = .ok { sel := .ref, delta := 10 }
      ∧ (fetchPair (readerFor deltaFmt (withSource [2, 0x80] 4)) State.reset.cur).1
        = { runm1 := 2, value := 0x80 }
      ∧ moreOutput (withSource [] 0) = false ∧ moreOutput (withSource [0x00] 4) = true
      ∧ pfxStep pfxFmt (withSource [0x80, 0x00] 4)
        = .ended (setEarly (withCursor (withSource [0x80, 0x00] 4)
            { bpos := 2, cache := 0, cbits := 2, mode := 0 }))
      ∧ (∃ u, pfxStep pfxFmt (withSource [0x20, 0x80] 4) = .emitted u)
      ∧ ∃ u, pfxStep pfxFmt (withSource [0x20] 4) = .raised .truncatedInput u := by
  refine ⟨rfl, rfl, rfl, rfl, rfl, rfl, rfl, ⟨_, rfl⟩, ⟨_, rfl⟩⟩

theorem witness_UndefinedCodesRaise :
    tagLen 0x07EE1111 (take (readerFor pfxFmt (withSource [0xE0] 4)) 3 State.reset.cur).1 = 0
      ∧ (take (readerFor deltaFmt (withSource [0x3F, 0xE0] 1)) 9
          (take (readerFor deltaFmt (withSource [0x3F, 0xE0] 1)) 2 State.reset.cur).2).1 = 511 := by decide

theorem witness_IllegalSlotsAreRefused :
    illegalSlot { State.reset with fmt := Vector.replicate 4 3 } 0
      ∧ illegalSlot { State.reset with fmt := Vector.replicate 4 0x00081198 } 1
      ∧ illegalSlot { State.reset with fmt := Vector.replicate 4 0x00081000 } 2
      ∧ illegalSlot { State.reset with fmt := Vector.replicate 4 0x00081182, dpCfg := 0 } 3
      ∧ illegalSlot { State.reset with fmt := Vector.replicate 4 0x00081182, dpCfg := 5 } 3
      ∧ illegalSlot { State.reset with fmt := Vector.replicate 4 0x00081182, dpCfg := 0x43 } 3
      ∧ illegalSlot { State.reset with fmt := Vector.replicate 4 0x00081182, outLen := 5, dpDim := 0x00020002 } 3
      ∧ ¬ lengthsLegal { State.reset with outLen := 0x80000000 } := by
  refine ⟨?_, ?_, ?_, ?_, ?_, ?_, ?_, ?_⟩ <;> (first | unfold illegalSlot | unfold lengthsLegal) <;> decide

theorem witness_EmptyDecodeAndProbeComplete :
    let s : State := { State.reset with probeCfg := 0x21 }
    s.outLen = 0 ∧ lengthsLegal s ∧ (∀ v : Fin 4, ¬ illegalSlot s v) ∧ probeConfigured s
      ∧ probePlaus s = 2 := by
  refine ⟨rfl, by unfold lengthsLegal; decide, by unfold illegalSlot; decide, ?_, rfl⟩
  unfold probeConfigured lengthsLegal; decide

/-- A source that is one literal run of two bytes. -/
def literalSource : State :=
  { withSource [0x02, 0x41, 0x42] 2 with fmt := Vector.replicate 4 0x00081181 }

theorem witness_DecodeCopiesALiteralRun :
    lengthsLegal literalSource ∧ ¬ illegalSlot literalSource 0 ∧ fmtFamily literalSource 0 = 1
      ∧ literalSource.outLen.toNat = 2 ∧ (literalSource.src.read .src 0).toNat = 2
      ∧ literalSource.fmt[(0 : Fin 4)].toNat / 2 ^ 24 ≠ 2 ∧ 2 + 1 ≤ literalSource.srcLen.toNat := by
  refine ⟨by unfold lengthsLegal; decide, by unfold illegalSlot; decide, rfl, rfl, rfl, by decide, by decide⟩

theorem witness_DecodeEndsFullEarlyOrRaised :
    literalSource.status.err = false ∧ lengthsLegal literalSource ∧ ¬ illegalSlot literalSource 0 := by
  refine ⟨rfl, by unfold lengthsLegal; decide, by unfold illegalSlot; decide⟩

theorem witness_DecodeStartsFromScratch :
    lengthsLegal literalSource ∧ ¬ illegalSlot literalSource 0 ∧ literalSource.out.wf = true
      ∧ Memory.wf [(0, 0x77)] = true
      ∧ (∀ a, literalSource.outLen.toNat ≤ a → Memory.listed [(0, 0x77)] a = literalSource.out.listed a)
      ∧ ∀ a, literalSource.outLen.toNat ≤ a →
        Memory.read .out [(0, 0x77)] a = literalSource.out.read .out a := by
  have h : ∀ a, literalSource.outLen.toNat ≤ a →
      Memory.listed [(0, 0x77)] a = literalSource.out.listed a := fun a h => by
    have h2 : 2 ≤ a := h
    rw [Memory.listed_cons, if_neg (by omega)]; rfl
  exact ⟨by unfold lengthsLegal; decide, by unfold illegalSlot; decide, rfl, by decide, h,
    fun a ha => Memory.read_congr _ _ _ _ (h a ha)⟩

/-- The alpha image's geometry under a delta slot. -/
def alphaSlot : State := { alphaImage with fmt := Vector.replicate 4 0x00081182 }

theorem witness_DecodeRunsItsFamilysLoop :
    (slotFormat State.reset 0 = some pfxFmt ∧ fmtFamily State.reset 0 = 0)
      ∧ (slotFormat literalSource 0 = some bytFmt ∧ fmtFamily literalSource 0 = 1
        ∧ lengthsLegal literalSource)
      ∧ ((slotFormat alphaSlot 0).isSome = true ∧ fmtFamily alphaSlot 0 = 2 ∧ dpAlpha alphaSlot = true)
      ∧ dpAlpha State.reset = false := by
  refine ⟨⟨by decide, rfl⟩, ⟨by decide, rfl, by unfold lengthsLegal; decide⟩, ⟨by decide, rfl, rfl⟩, rfl⟩

theorem witness_FuelNeverEndsADecode :
    decodeFuel alphaImage ≤ 100 ∧ imageLegal alphaImage ∧ dpAlpha alphaImage = true := by
  refine ⟨by decide, by unfold imageLegal; decide, rfl⟩

/-- Two candidates (45_variant_prober.md R236). -/
def twoCandidates : State :=
  { withSource [0x03, 0x11, 0x22, 0x33, 0x85, 0x02, 0x44, 0xFF, 0x00] 16 with
    fmt := #v[0x00081180, 0x00081181, 0, 0], probeCfg := 2 }

theorem witness_ProbeAcceptsTheFirstPlausible :
    twoCandidates.status.err = false ∧ probeConfigured twoCandidates
      ∧ ∀ v : Fin 4, v.val < probeCount twoCandidates → ¬ illegalSlot twoCandidates v := by
  refine ⟨rfl, by unfold probeConfigured lengthsLegal; decide, by unfold illegalSlot; decide⟩

theorem witness_PlausibilityIsTheNamedPredicate :
    (0x01 : Word).toNat / 16 % 4 = 0 ∧ (0x0311 : Word).toNat / 16 % 4 = 1 ∧ (0x21 : Word).toNat / 16 % 4 = 2
      ∧ plausible { State.reset with cur := { bpos := 2, cache := 0, cbits := 7, mode := 0 }, srcLen := 2 } = true
      ∧ plausible { State.reset with probeCfg := 0x0311, srcLen := 3 } = true
      ∧ plausible { State.reset with probeCfg := 0x0311, srcLen := 4 } = false := by decide

theorem witness_ProbeRejectsBadConfiguration :
    ¬ probeConfigured { State.reset with probeCfg := 0 }
      ∧ ¬ probeConfigured { State.reset with probeCfg := 0x31 }
      ∧ ¬ probeConfigured { State.reset with vstate := 1 }
      ∧ (0 : Fin 4).val < probeCount { State.reset with fmt := Vector.replicate 4 3 }
      ∧ illegalSlot { State.reset with fmt := Vector.replicate 4 3 } 0 := by
  refine ⟨?_, ?_, ?_, by decide, by unfold illegalSlot; decide⟩ <;> unfold probeConfigured lengthsLegal <;> decide

theorem witness_ElementReadsItsUnaryPrefix :
    let e := readerFor deltaFmt (withSource [0xFC, 0xA6] 4)
    let c1 := (take e 2 State.reset.cur).2
    4 ≤ 8
      ∧ (∀ j < 4, (take e 1 (afterBits e j c1)).1 = 1) ∧ (take e 1 (afterBits e 4 c1)).1 = 0 := by decide

theorem witness_DeltaElementWritesItsSample :
    imageLegal image ∧ overrun image = false ∧ 1 < dpHeight image ∧ 1 < dpWidth image
      ∧ 0 < (if dpAlpha image then 3 else dpChannels image)
      ∧ image.opos.toNat = (1 * dpWidth image + 1) * (if dpAlpha image then 3 else dpChannels image) + 0 := by
  refine ⟨by unfold imageLegal; decide, ?_⟩; decide

theorem witness_AlphaPairFillsItsRun :
    imageLegal alphaImage ∧ dpAlpha alphaImage = true ∧ overrun alphaImage = false
      ∧ 0 ≤ dpWidth alphaImage * dpHeight alphaImage
      ∧ alphaImage.opos.toNat = 3 * (dpWidth alphaImage * dpHeight alphaImage) + 0
      ∧ 0 + ((3 : Byte).toNat + 1) ≤ dpWidth alphaImage * dpHeight alphaImage
      ∧ dpWidth alphaImage * dpHeight alphaImage < 0 + ((4 : Byte).toNat + 1) := by
  refine ⟨by unfold imageLegal; decide, ?_⟩; decide

theorem witness_SampleAddressesTileTheBuffer :
    imageLegal alphaImage ∧ 1 < dpHeight alphaImage ∧ 1 < dpWidth alphaImage ∧ 3 < dpChannels alphaImage := by
  refine ⟨by unfold imageLegal; decide, ?_⟩; decide

/-- A table cipher over two bytes with ADD. -/
def tableCipher : State :=
  { withOut [0xFF, 0xFF] with ciphCfg := 0x12, ciphLen := 2, kt := Vector.replicate 256 1 }

theorem witness_CipherTransformsWholeLanes : cipherConfigured tableCipher ∧ windowInside tableCipher := by
  refine ⟨by unfold cipherConfigured; decide, by unfold windowInside; decide⟩

theorem witness_CipherAndKeygenRejections :
    ¬ cipherConfigured { State.reset with ciphCfg := 0x03 }
      ∧ ¬ cipherConfigured { State.reset with ciphCfg := 0x0C }
      ∧ ¬ cipherConfigured { State.reset with ciphCfg := 0x30 }
      ∧ ¬ cipherConfigured { State.reset with ciphCfg := 0x02, ktlen := 257 }
      ∧ cipherConfigured { State.reset with ciphOff := 1 }
      ∧ ¬ windowInside { State.reset with ciphOff := 1 }
      ∧ ({ State.reset with ktlen := 0 } : State).ktlen.toNat < 1
      ∧ 256 < ({ State.reset with ktlen := 257 } : State).ktlen.toNat := by
  refine ⟨?_, ?_, ?_, ?_, ?_, ?_, by decide, by decide⟩ <;>
    (first | unfold cipherConfigured | unfold windowInside) <;> decide

theorem witness_KeyStreamIsTheGeneratorsBytes :
    0 < 1 ∧ ciphSource State.reset = 0 ∧ ciphSource { State.reset with ciphCfg := 1 } = 1
      ∧ ciphSource { State.reset with ciphCfg := 2 } = 2 := by decide

theorem witness_MersenneGeneratorIsTheRecurrence :
    1 ≤ 31 ∧ 31 ≤ 31 ∧ (List.replicate 624 (0 : Word)).length = 624 ∧ (mtInit 0).mti = 624
      ∧ ({ mt := [], mti := 623 } : MtState).mti ≠ 624 := by
  refine ⟨by decide, by decide, List.length_replicate, rfl, by decide⟩

theorem witness_CipherRoundTrips :
    cipherConfigured tableCipher ∧ windowInside tableCipher ∧ ciphComb tableCipher = 1
      ∧ ciphComb { tableCipher with ciphCfg := 0x02 } = 0 ∧ ciphComb { tableCipher with ciphCfg := 0x22 } = 2 := by
  refine ⟨by unfold cipherConfigured; decide, by unfold windowInside; decide, rfl, rfl, rfl⟩

theorem witness_KeygenExpandsTheSeed :
    1 ≤ ({ State.reset with ktlen := 256 } : State).ktlen.toNat
      ∧ ({ State.reset with ktlen := 256 } : State).ktlen.toNat ≤ 256 := by decide

theorem witness_IllegalMicroOpsAreRefused :
    illegalSlotWord 0x8000 ∧ illegalSlotWord 0x2001 ∧ illegalSlotWord 0x0100
      ∧ (∃ w ∈ (lopSlots { State.reset with lprog := #v[0x80002020, 0, 0, 0] }).takeWhile (fun w => w ≠ 0),
        illegalSlotWord w)
      ∧ lopProgram [0x2020, 0x0000, 0x8000] = .ok [.add .l8 0 1] := by
  refine ⟨?_, ?_, ?_, ⟨0x8000, by decide, ?_⟩, rfl⟩ <;> unfold illegalSlotWord <;> decide

/-- One block and a program of two operations. -/
def laneState : State :=
  { withOut [1, 2, 3, 4, 5, 6, 7, 8] with ciphLen := 8, lprog := #v[0x78402820, 0, 0, 0] }

theorem witness_LaneRunsTheProgramOverBlocks :
    lopProgram (lopSlots laneState) = .ok [.add .l16 0 1, .xor .l64 0 2]
      ∧ laneState.outLen.toNat ≤ 2 ^ 31 - 1 ∧ windowInside laneState
      ∧ ¬ windowInside { laneState with ciphOff := 1 }
      ∧ 2 ^ 31 - 1 < ({ laneState with outLen := 0x80000000 } : State).outLen.toNat := by
  refine ⟨rfl, by decide, ?_, ?_, by decide⟩ <;> unfold windowInside <;> decide

theorem witness_InverseProgramRestoresOut :
    laneState.outLen.toNat ≤ 2 ^ 31 - 1 ∧ windowInside laneState
      ∧ lopProgram (lopSlots laneState) = .ok [.add .l16 0 1, .xor .l64 0 2]
      ∧ [LaneOp.add .l16 0 1, .xor .l64 0 2].all keyed = true
      ∧ lopProgram (lopSlots { laneState with lprog := #v[0x48207840, 0, 0, 0] })
        = .ok (([LaneOp.add .l16 0 1, .xor .l64 0 2].map inverseOp).reverse) := by
  refine ⟨by decide, by unfold windowInside; decide, rfl, rfl, rfl⟩

theorem witness_OnlyListedInstructionsWriteEachRegister :
    exec .nop State.reset = .next (finish State.reset) ∧ Instr.nop ≠ .sreset ∧ Instr.nop ≠ .probe
      ∧ writesCursor .nop = false ∧ writesMode .nop = false ∧ writesMode (.bctake 3) = false ∧ writesResult .nop = false ∧ writesOpos .nop = false
      ∧ writesOut .nop = false ∧ writesKeys .nop = false ∧ writesVectors .nop = false :=
  ⟨rfl, by decide, by decide, rfl, rfl, rfl, rfl, rfl, rfl, rfl, rfl⟩

theorem witness_CommandsStayInsideTheLengths :
    isCommand (.decode 0) = true
      ∧ sameInside literalSource { literalSource with out := [(2, 0x77)] } := by
  refine ⟨rfl, rfl, fun _ _ => rfl, fun a h => ?_⟩
  have h2 : a < 2 := h
  refine Memory.read_congr _ _ _ _ ?_
  show Memory.listed [(2, 0x77)] a = none
  rw [Memory.listed_cons, if_neg (by omega)]; rfl

theorem witness_StepKeepsTheInvariant :
    State.Inv literalSource ∧ step literalSource = .next literalSource := by
  refine ⟨by unfold State.Inv; decide, rfl⟩

end Sys2Proof.Tests
end

section
/-! PROOFS. What a token can do to the state, and from it what a decode can do: the frame and the canonical
form of `OUT` go through the decode loops once, here. -/

namespace Sys2Proof.Machine

open Sys2Proof

/-! ## Tokens -/

/-- The exceptions a token can raise; the other two belong to PROBE (60_exceptions.md R340). -/
def Exc.ofToken : Exc → Bool
  | .implausibleResult | .formatError => false
  | _ => true

/-- Everything a token, element or pair can do from the state its fetch left: output at `OPOS`, the early end,
or an exception with nothing written (43_token_decoder.md R194 to R197). -/
inductive TokenActs (s : State) : TokenEnd → Prop
  | emitted (m : Memory) (p : Word) (hm : s.out.wf = true → m.wf = true) :
      TokenActs s (.emitted { s with out := m, opos := p })
  | ended : TokenActs s (.ended (setEarly s))
  | raised (e : Exc) (he : e.ofToken = true) : TokenActs s (.raised e s)

theorem TokenActs.afterHeader {s : State} {r : TokenEnd} (h : TokenActs s r) :
    TokenActs s (afterHeader s r) := by
  obtain ⟨_, hr⟩ | ⟨_, hr⟩ := afterHeader_cases s r
  · rw [hr]; exact .raised _ rfl
  · rwa [hr]

theorem tokenActs_undefinedCode (s : State) : TokenActs s (undefinedCode s) :=
  TokenActs.afterHeader (.raised _ rfl)

theorem tokenActs_emitBytes (bs : List Byte) (s : State) : TokenActs s (emitBytes bs s) := by
  obtain ⟨_, hr⟩ | ⟨_, hr⟩ := emitBytes_cases bs s
  · have hwf := fun hw => wf_emitBytes bs s _ hw hr
    rw [hr]; exact .emitted _ _ hwf
  · rw [hr]; exact .raised _ rfl

theorem tokenActs_emitFill (unit : List Byte) (count : Nat) (s : State) :
    TokenActs s (emitFill unit count s) := by
  obtain ⟨_, hr⟩ | ⟨_, hr⟩ := emitFill_cases unit count s
  · rw [hr]; exact .raised _ rfl
  · rw [hr]; exact tokenActs_emitBytes _ s

theorem tokenActs_emitCopy (offset length : Nat) (s : State) : TokenActs s (emitCopy offset length s) := by
  obtain ⟨_, hr⟩ | ⟨_, _, hr⟩ | ⟨_, _, _, _, hr⟩ := emitCopy_cases offset length s
  · rw [hr]; exact .raised _ rfl
  · rw [hr]; exact .raised _ rfl
  · have hwf := fun hw => wf_emitCopy offset length s _ hw hr
    rw [hr]; exact .emitted _ _ hwf

theorem tokenActs_dpxElem (sel : Predictor) (delta : Int) (s : State) :
    TokenActs s (dpxElem sel delta s) := by
  refine TokenActs.afterHeader ?_
  split
  case isTrue h =>
    have hlt : elemAddr s < 2 ^ 32 := by have := (inOut_iff s _ 1).mp h; omega
    exact .emitted _ _ (Memory.wf_write _ _ _ hlt)
  case isFalse => exact .raised _ rfl

/-- The run of an alpha pair keeps the canonical form where every byte of it lies in `OUT`. -/
theorem wf_writeAlpha (s : State) (val : Byte) (q run : Nat) (m : Memory)
    (h : ∀ i < run, alphaAddr s (q + i) < 2 ^ 32) (hm : m.wf = true) :
    (writeAlpha s val q run m).wf = true := by
  induction run generalizing q m with
  | zero => exact hm
  | succ run ih =>
    refine ih (q + 1) _ (fun i hi => ?_) (Memory.wf_write _ _ _ (h 0 (by omega)) hm)
    have := h (i + 1) (by omega)
    rwa [show q + (i + 1) = q + 1 + i by omega] at this

theorem alphaInOut_lt {s : State} {q run : Nat} (h : alphaInOut s q run = true) :
    ∀ i < run, alphaAddr s (q + i) < 2 ^ 32 := by
  intro i hi
  have hin := (inOut_iff s _ 1).mp (List.all_eq_true.mp h i (List.mem_range.mpr hi))
  omega

theorem tokenActs_dpxApair (runm1 value : Byte) (s : State) : TokenActs s (dpxApair runm1 value s) := by
  refine TokenActs.afterHeader ?_
  split
  case isTrue h => exact .emitted _ _ (wf_writeAlpha s value _ _ _ (alphaInOut_lt h.2))
  case isFalse => exact .raised _ rfl

theorem tokenActs_pfxRun (t : PfxToken) (s : State) : TokenActs s (pfxRun t s) := by
  cases t with
  | lit v => exact (tokenActs_emitBytes _ s).afterHeader
  | run2 v => exact (tokenActs_emitFill _ _ s).afterHeader
  | run3 v => exact (tokenActs_emitFill _ _ s).afterHeader
  | copy o l form => exact (tokenActs_emitCopy _ _ s).afterHeader
  | term => exact .ended

/-! ## The payload of a literal run -/

theorem take_mode (e : Reader) (n : Nat) (c : BitCursor) : (take e n c).2.mode = c.mode := by
  rw [take_cursor, afterTake1_mode]

theorem takeBytes_mode (e : Reader) (n : Nat) (c : BitCursor) : (takeBytes e n c).2.mode = c.mode := by
  induction n generalizing c with
  | zero => rfl
  | succ n ih => exact (ih _).trans (take_mode e 8 c)

/-- What a token does that also moves the cursor through `SRC`, in the mode the cursor has. -/
def TokenMoves (s : State) (r : TokenEnd) : Prop :=
  ∃ c : BitCursor, c.mode = s.cur.mode ∧ TokenActs (withCursor s c) r

theorem TokenActs.moves {s : State} {r : TokenEnd} (h : TokenActs s r) : TokenMoves s r :=
  ⟨s.cur, rfl, h⟩

theorem tokenMoves_emitPayload (n : Nat) (s : State) : TokenMoves s (emitPayload n s) := by
  unfold emitPayload
  split
  · exact TokenActs.moves (.raised _ rfl)
  · exact ⟨_, takeBytes_mode _ n s.cur, tokenActs_emitBytes _ _⟩

theorem TokenMoves.afterHeader {s : State} {r : TokenEnd} (h : TokenMoves s r) :
    TokenMoves s (afterHeader s r) := by
  obtain ⟨_, hr⟩ | ⟨_, hr⟩ := afterHeader_cases s r
  · rw [hr]; exact TokenActs.moves (.raised _ rfl)
  · rwa [hr]

theorem tokenMoves_bytLitrun (count : BitVec 16) (s : State) : TokenMoves s (bytLitrun count s) := by
  refine TokenMoves.afterHeader ?_
  split_ifs
  · exact TokenActs.moves (.raised _ rfl)
  · exact tokenMoves_emitPayload _ s
  · exact TokenActs.moves (.raised _ rfl)
  · exact TokenActs.moves (.raised _ rfl)

theorem tokenMoves_bytRun (t : BytToken) (s : State) : TokenMoves s (bytRun t s) := by
  cases t with
  | term => exact TokenActs.moves .ended
  | litrun n form => exact tokenMoves_bytLitrun n s
  | fillb n form v => exact (tokenActs_emitFill _ _ s).afterHeader.moves
  | fillw n form u0 u1 => exact (tokenActs_emitFill _ _ s).afterHeader.moves
  | copys l form o => exact (tokenActs_emitCopy _ _ s).afterHeader.moves
  | copyl l form o => exact (tokenActs_emitCopy _ _ s).afterHeader.moves

/-! ## One iteration of a decode loop -/

/-- One iteration fetches, which moves the cursor alone, and then does what the token does. -/
def IterationActs (body : State → TokenEnd) : Prop :=
  ∀ s, ∃ c : BitCursor, TokenActs (withCursor s c) (body s)

theorem iterationActs_pfxStep (f : Format) : IterationActs (pfxStep f) := by
  intro s
  refine ⟨(fetchPfx f (readerFor f s) s.cur).2, ?_⟩
  unfold pfxStep pfxFetched
  split
  · exact tokenActs_undefinedCode _
  · exact tokenActs_pfxRun _ _

theorem iterationActs_bytStep (f : Format) : IterationActs (bytStep f) := by
  intro s
  obtain ⟨c, _, h⟩ := tokenMoves_bytRun (fetchByt f (readerFor f s) s.cur).1
    (withCursor s (fetchByt f (readerFor f s) s.cur).2)
  exact ⟨c, h⟩

theorem iterationActs_elemStep (f : Format) : IterationActs (elemStep f) := by
  intro s
  refine ⟨(fetchElem f (readerFor f s) s.cur).2, ?_⟩
  unfold elemStep elemFetched
  split
  · exact tokenActs_undefinedCode _
  · exact tokenActs_dpxElem _ _ _

theorem iterationActs_pairStep (f : Format) : IterationActs (pairStep f) :=
  fun _ => ⟨_, tokenActs_dpxApair _ _ _⟩

/-! ## A whole decode -/

/-- `t` differs from `s` in what a decode writes while it runs: the cursor, `OPOS`, `OUT`, kept canonical, and
`EARLY`. -/
inductive DecodeReaches (s : State) : State → Prop
  | intro (early : Bool) (c : BitCursor) (p : Word) (m : Memory) (hm : s.out.wf = true → m.wf = true) :
      DecodeReaches s { s with status := { s.status with early := early }, cur := c, opos := p, out := m }

theorem DecodeReaches.refl (s : State) : DecodeReaches s s :=
  .intro s.status.early s.cur s.opos s.out id

theorem DecodeReaches.trans {s t u : State} (h : DecodeReaches s t) (h' : DecodeReaches t u) :
    DecodeReaches s u := by
  cases h with | intro early c p m hm =>
  cases h' with | intro early' c' p' m' hm' =>
  exact .intro early' c' p' m' (hm' ∘ hm)

theorem decodeReaches_withCursor (s : State) (c : BitCursor) : DecodeReaches s (withCursor s c) :=
  .intro s.status.early c s.opos s.out id

/-- Where a decode from `s` can end: in a state it reaches, by an exception only if a token can raise it. -/
inductive DecodeEnds (s : State) : DecodeEnd → Prop
  | done (t : State) (h : DecodeReaches s t) : DecodeEnds s (.done t)
  | raised (e : Exc) (t : State) (he : e.ofToken = true) (h : DecodeReaches s t) :
      DecodeEnds s (.raised e t)

theorem DecodeEnds.from_reached {s t : State} {r : DecodeEnd} (hst : DecodeReaches s t)
    (h : DecodeEnds t r) : DecodeEnds s r := by
  cases h with
  | done u h => exact .done u (hst.trans h)
  | raised e u he h => exact .raised e u he (hst.trans h)

/-- What one iteration can do, the loop can do (43_token_decoder.md R181). -/
theorem decodeEnds_decodeLoop (more : State → Bool) {body : State → TokenEnd} (hbody : IterationActs body)
    (n : Nat) (s : State) : DecodeEnds s (decodeLoop more body n s) := by
  induction n generalizing s with
  | zero => exact .done s (.refl s)
  | succ n ih =>
    rw [decodeLoop]
    split
    case isFalse => exact .done s (.refl s)
    case isTrue =>
      obtain ⟨c, h⟩ := hbody s
      cases hr : body s with
      | emitted t =>
        rw [hr] at h
        cases h with | emitted m p hm =>
        exact (ih _).from_reached (.intro s.status.early c p m hm)
      | ended t =>
        rw [hr] at h
        cases h with | ended =>
        exact .done _ (.intro true c s.opos s.out id)
      | raised e t =>
        rw [hr] at h
        cases h with | raised _ he =>
        exact .raised e _ he (decodeReaches_withCursor s c)

theorem decodeEnds_deltaDecode (f : Format) (s : State) : DecodeEnds s (deltaDecode f s) := by
  have h := decodeEnds_decodeLoop moreElems (iterationActs_elemStep f) (decodeFuel s) s
  unfold deltaDecode
  generalize decodeLoop moreElems (elemStep f) (decodeFuel s) s = r at h ⊢
  cases h with
  | raised e t he ht => exact .raised e t he ht
  | done t ht =>
    dsimp only
    split
    · exact (decodeEnds_decodeLoop morePairs (iterationActs_pairStep f) _ _).from_reached
        (ht.trans (decodeReaches_withCursor t _))
    · exact .done t ht

theorem decodeEnds_runFamily (f : Format) (s : State) : DecodeEnds s (runFamily f s) := by
  unfold runFamily
  cases f.family with
  | pfx => exact decodeEnds_decodeLoop _ (iterationActs_pfxStep f) _ s
  | byt => exact decodeEnds_decodeLoop _ (iterationActs_bytStep f) _ s
  | delta => exact decodeEnds_deltaDecode f s

theorem decodeReaches_startDecode (f : Format) (s : State) : DecodeReaches s (startDecode f s) :=
  .intro false _ 0 _ (Memory.wf_zeroFill s.out s.outLen.toNat s.outLen.isLt.le)

/-- Everything `Decode(v)` can do (43_token_decoder.md R181). -/
theorem decodeEnds_decodeSlot (v : Fin 4) (s : State) : DecodeEnds s (decodeSlot v s) := by
  unfold decodeSlot
  split
  · exact .raised _ s rfl (.refl s)
  · exact (decodeEnds_runFamily _ _).from_reached (decodeReaches_startDecode _ s)

end Sys2Proof.Machine
end

section
/-! PROOFS. What each instruction can do, one inversion lemma per instruction that has checks: the next state
is one of the states named. The frame (O56) and the invariant (O59) are read off these. -/

namespace Sys2Proof.Machine

open Sys2Proof

theorem next_inj {s t : State} (h : (.next s : Result) = .next t) : t = s := by
  injection h with h
  exact h.symm

/-- `t` is `s` with an exception taken that a command or a token can raise by itself. -/
def Traps (s t : State) : Prop := ∃ e : Exc, e.ofToken = true ∧ t = raise e 0 s

theorem traps_of_trap {e : Exc} {s t : State} (he : e.ofToken = true) (h : trap e s = .next t) : Traps s t :=
  ⟨e, he, next_inj h⟩

/-! ## The cursor commands -/

theorem execBcpeek_cases {n : BitVec 6} {s t : State} (h : execBcpeek n s = .next t) :
    Traps s t ∨ ∃ r, t = finish { s with curResult := r } := by
  unfold execBcpeek at h
  split at h
  · exact .inl (traps_of_trap rfl h)
  · exact .inr ⟨_, next_inj h⟩

theorem execBctake_cases {n : BitVec 6} {s t : State} (h : execBctake n s = .next t) :
    Traps s t
      ∨ ∃ r c, c.mode = s.cur.mode ∧ t = finish { s with curResult := r, cur := c } := by
  unfold execBctake at h
  split at h
  · exact .inl (traps_of_trap rfl h)
  · exact .inr ⟨_, _, take_mode _ _ _, next_inj h⟩

theorem execBcalign_cases {s t : State} (h : execBcalign s = .next t) :
    Traps s t ∨ t = finish { s with cur := alignByte s.cur } := by
  unfold execBcalign at h
  split_ifs at h
  · exact .inr (next_inj h)
  · exact .inl (traps_of_trap rfl h)

/-! ## The commands that write `OUT` in place -/

theorem execOcopy_cases {s t : State} (h : execOcopy s = .next t) :
    Traps s t
      ∨ ∃ m, (s.out.wf = true → m.wf = true) ∧ t = finishValid { s with out := m } := by
  unfold execOcopy at h
  split_ifs at h
  · obtain ⟨_, hm⟩ | ⟨_, hle, hm⟩ := overlapCopy_cases s s.ocFrom.toNat s.ocTo.toNat s.ocLen.toNat
    · rw [hm] at h
      exact .inl (traps_of_trap rfl h)
    · rw [hm] at h
      have hlen := s.outLen.isLt
      exact .inr ⟨_, Memory.wf_copyUp _ _ _ _ (by omega), next_inj h⟩
  · exact .inl (traps_of_trap rfl h)

/-- The lanes of CIPHER lie inside its window. -/
theorem wf_cipherOut {s : State} (hin : inOut s s.ciphOff.toNat s.ciphLen.toNat = true)
    (hw : s.out.wf = true) : (cipherOut s).wf = true := by
  have hle := (inOut_iff s _ _).mp hin
  have hlen := s.outLen.isLt
  have hlanes := Nat.div_mul_le_self s.ciphLen.toNat (ciphLaneBytes s)
  exact wf_cipherLanes _ _ _ _ _ _ (by omega) hw

theorem execCipher_cases {s t : State} (h : execCipher s = .next t) :
    Traps s t
      ∨ ∃ m, (s.out.wf = true → m.wf = true) ∧ t = finishValid { s with out := m } := by
  unfold execCipher at h
  split_ifs at h with _ hin
  · exact .inr ⟨_, wf_cipherOut hin, next_inj h⟩
  · exact .inl (traps_of_trap rfl h)
  · exact .inl (traps_of_trap rfl h)

/-- The blocks of LANE lie inside its window. -/
theorem wf_laneRun {s : State} (os : List LaneOp) (hin : inOut s s.ciphOff.toNat s.ciphLen.toNat = true)
    (hw : s.out.wf = true) : (laneRun os s).2.wf = true := by
  have hle := (inOut_iff s _ _).mp hin
  have hlen := s.outLen.isLt
  exact wf_laneBlocks os _ _ _ (by omega) hw

theorem execLane_cases {s t : State} (h : execLane s = .next t) :
    Traps s t
      ∨ ∃ v m, (s.out.wf = true → m.wf = true) ∧ t = finishValid { s with v := v, out := m } := by
  unfold execLane at h
  by_cases hlen : outLenLegal s = true
  · rw [if_pos hlen] at h
    split at h
    · exact .inl (traps_of_trap rfl h)
    · split_ifs at h with hin
      · exact .inr ⟨_, _, wf_laneRun _ hin, next_inj h⟩
      · exact .inl (traps_of_trap rfl h)
  · rw [if_neg hlen] at h
    exact .inl (traps_of_trap rfl h)

theorem execKeygen_cases {target : KeyTarget} {s t : State} (h : execKeygen target s = .next t) :
    Traps s t ∨ ∃ kr kt, t = finish { s with kr := kr, kt := kt } := by
  cases target with
  | kt =>
    unfold execKeygen keygenTable at h
    split_ifs at h
    · exact .inr ⟨s.kr, _, next_inj h⟩
    · exact .inl (traps_of_trap rfl h)
  | kr => exact .inr ⟨_, s.kt, next_inj h⟩

/-! ## DECODE and PROBE -/

theorem execDecode_cases {v : Fin 4} {s t : State} (h : execDecode v s = .next t) :
    ∃ u, DecodeReaches s u ∧ (Traps u t
      ∨ t = finishDecode (BitVec.ofNat 2 v.val) u) := by
  unfold execDecode at h
  split_ifs at h
  · have hend := decodeEnds_decodeSlot v s
    generalize decodeSlot v s = r at h hend
    cases hend with
    | done u hu => exact ⟨u, hu, .inr (next_inj h)⟩
    | raised e u he hu => exact ⟨u, hu, .inl (traps_of_trap he h)⟩
  · exact ⟨s, .refl s, .inl (traps_of_trap rfl h)⟩

/-- The codes PROBE can report as the cause of a failed candidate (60_exceptions.md R340). -/
theorem code_le_four_of_ofToken {e : Exc} (h : e.ofToken = true) (hi : e = .illegalCommand → False) :
    e.code.toNat ≤ 4 := by
  cases e with
  | boundsViolation | unrecognizedControlCode | truncatedInput => decide
  | implausibleResult | formatError => exact absurd h (by decide)
  | illegalCommand => exact (hi rfl).elim

/-- How a PROBE can end: an illegal command, no acceptable candidate, or an accepted one (45_variant_prober.md
R230). -/
inductive ProbeEnds (s : State) : State → Prop
  | illegal (u : State) (h : DecodeReaches s u) : ProbeEnds s (raise .illegalCommand 0 u)
  | failed (last : BitVec 3) (u : State) (hlast : last.toNat ≤ 4) (h : DecodeReaches s u) :
      ProbeEnds s (raise .formatError last u)
  | accepted (v : Fin 4) (u : State) (h : DecodeReaches s u) : ProbeEnds s (acceptSlot v u)

theorem probeEnds_of_probeLoop {s t u : State} (n m k : Nat) {last : BitVec 3} (hlast : last.toNat ≤ 4)
    (hu : DecodeReaches s u) (h : probeLoop n m k last u = .next t) : ProbeEnds s t := by
  induction m generalizing k last u with
  | zero =>
    rw [next_inj h]
    exact .failed last u hlast hu
  | succ m ih =>
    rw [probeLoop] at h
    have hend := decodeEnds_decodeSlot (candidate u n k) u
    split at h
    case h_1 w hw =>
      rw [hw] at hend
      cases hend with | raised _ _ _ hr =>
      rw [next_inj h]
      exact .illegal w (hu.trans hr)
    case h_2 e w hne hw =>
      rw [hw] at hend
      cases hend with | raised _ _ he hr =>
      exact ih _ (code_le_four_of_ofToken he hne) (hu.trans hr) h
    case h_3 w hw =>
      rw [hw] at hend
      cases hend with | done _ hr =>
      split_ifs at h
      · rw [next_inj h]
        exact .accepted _ w (hu.trans hr)
      · exact ih _ (by decide) (hu.trans hr) h

theorem execProbe_cases {s t : State} (h : execProbe s = .next t) : ProbeEnds s t := by
  unfold execProbe at h
  split_ifs at h
  · exact probeEnds_of_probeLoop _ _ _ (by decide) (.refl s) h
  · rw [next_inj h]
    exact .illegal s (.refl s)

end Sys2Proof.Machine
end

section
/-! PROOFS. The register map's "written by" column over every instruction (O56; 10_state.md R22). -/

namespace Sys2Proof.Machine

open Sys2Proof

/-- What an instruction other than SRESET may write, register by register: a field not named stands as it
was. -/
structure WritesListed (i : Instr) (s t : State) : Prop where
  frame : t = { s with
    status := t.status, cur := t.cur, curResult := t.curResult, opos := t.opos
    vstate := t.vstate, out := t.out, kr := t.kr, kt := t.kt, v := t.v } := by rfl
  cursor : writesCursor i = false → t.cur = s.cur := by intros; rfl
  mode : writesMode i = false → t.cur.mode = s.cur.mode := by intros; rfl
  position : i = .bcalign → t.cur.bpos = s.cur.bpos := by intros; rfl
  result : writesResult i = false → t.curResult = s.curResult := by intros; rfl
  opos : writesOpos i = false → t.opos = s.opos := by intros; rfl
  vstate : i ≠ .probe → t.vstate = s.vstate := by intros; rfl
  out : writesOut i = false → t.out = s.out := by intros; rfl
  keys : writesKeys i = false → t.kr = s.kr ∧ t.kt = s.kt := by exact fun _ => ⟨rfl, rfl⟩
  vectors : writesVectors i = false → t.v = s.v := by intros; rfl

/-- Every instruction may write `STATUS`. -/
theorem writesListed_status (i : Instr) (s : State) (st : Status) : WritesListed i s { s with status := st } :=
  {}

theorem Traps.writesListed {s t : State} (h : Traps s t) (i : Instr) : WritesListed i s t := by
  obtain ⟨e, _, rfl⟩ := h
  exact writesListed_status i s _

theorem writesOut_of_writesOpos {i : Instr} (h : writesOpos i = true) : writesOut i = true := by
  simp [writesOut, h]

/-- An instruction that runs a token writes what the token does; one that moves the cursor keeps its mode. -/
theorem TokenActs.writesListed {i : Instr} {s t : State} {c : BitCursor} {r : TokenEnd}
    (h : TokenActs (withCursor s c) r) (hmode : c.mode = s.cur.mode)
    (hcur : writesCursor i = false → c = s.cur) (hopos : writesOpos i = true)
    (hr : r.result = .next t) : WritesListed i s t := by
  have hout := writesOut_of_writesOpos hopos
  have hpos : i = .bcalign → c.bpos = s.cur.bpos := by rintro rfl; cases hopos
  cases h with
  | emitted m p _ =>
    rw [next_inj hr]
    exact { cursor := hcur, mode := fun _ => hmode, position := hpos
            opos := by simp [hopos], out := by simp [hout] }
  | ended =>
    rw [next_inj hr]
    exact { cursor := hcur, mode := fun _ => hmode, position := hpos }
  | raised e _ =>
    rw [next_inj hr]
    exact { cursor := hcur, mode := fun _ => hmode, position := hpos }

/-- A token that leaves the cursor where it stands. -/
theorem TokenActs.writesListed_still {i : Instr} {s t : State} {r : TokenEnd} (h : TokenActs s r)
    (hopos : writesOpos i = true) (hr : r.result = .next t) : WritesListed i s t :=
  TokenActs.writesListed (c := s.cur) h rfl (fun _ => rfl) hopos hr

theorem writesListed_execBytLitrun {count : BitVec 16} {form : CountForm} {s t : State}
    (h : execBytLitrun count s = .next t) : WritesListed (.bytLitrun count form) s t := by
  obtain ⟨c, hmode, hacts⟩ := tokenMoves_bytLitrun count s
  exact hacts.writesListed hmode nofun rfl h

/-- An instruction that runs a whole decode writes what the decode does; only PROBE writes `VSTATE` too. -/
theorem DecodeReaches.writesListed {i : Instr} {s u : State} (h : DecodeReaches s u)
    (hcur : writesCursor i = true) (hmode : writesMode i = true) (hopos : writesOpos i = true) (st : Status)
    (vs : BitVec 2) (hvs : i ≠ .probe → vs = u.vstate) :
    WritesListed i s { u with status := st, vstate := vs } := by
  have hout := writesOut_of_writesOpos hopos
  have hpos : i ≠ .bcalign := by rintro rfl; cases hopos
  cases h with | intro early c p m _ =>
  exact { cursor := by simp [hcur], mode := by simp [hmode], position := fun h => absurd h hpos
          opos := by simp [hopos], out := by simp [hout], vstate := hvs }

theorem writesListed_execDecode {v : Fin 4} {s t : State} (h : execDecode v s = .next t) :
    WritesListed (.decode v) s t := by
  obtain ⟨u, hu, ⟨e, _, rfl⟩ | rfl⟩ := execDecode_cases h
  · exact hu.writesListed rfl rfl rfl _ u.vstate fun _ => rfl
  · exact hu.writesListed rfl rfl rfl _ u.vstate fun _ => rfl

theorem writesListed_execProbe {s t : State} (h : execProbe s = .next t) : WritesListed .probe s t := by
  cases execProbe_cases h with
  | illegal u hu => exact hu.writesListed rfl rfl rfl _ u.vstate fun _ => rfl
  | failed last u _ hu => exact hu.writesListed rfl rfl rfl _ u.vstate fun _ => rfl
  | accepted v u hu => exact hu.writesListed rfl rfl rfl _ _ fun hne => absurd rfl hne

theorem writesListed_exec {i : Instr} {s t : State} (hi : i ≠ .sreset) (h : exec i s = .next t) :
    WritesListed i s t := by
  cases i with
  | nop => rw [next_inj h]; exact writesListed_status _ s _
  | clear => rw [next_inj h]; exact writesListed_status _ s _
  | sreset => exact absurd rfl hi
  | bcinit o r =>
    rw [next_inj h]
    exact { cursor := nofun, mode := nofun, position := nofun }
  | bcpeek n =>
    obtain ht | ⟨r, rfl⟩ := execBcpeek_cases h
    · exact ht.writesListed _
    · exact { result := nofun }
  | bctake n =>
    obtain ht | ⟨r, c, hmode, rfl⟩ := execBctake_cases h
    · exact ht.writesListed _
    · exact { cursor := nofun, mode := fun _ => hmode, position := nofun, result := nofun }
  | bcalign =>
    obtain ht | rfl := execBcalign_cases h
    · exact ht.writesListed _
    · exact { cursor := nofun }
  | ocopy =>
    obtain ht | ⟨m, _, rfl⟩ := execOcopy_cases h
    · exact ht.writesListed _
    · exact { out := nofun }
  | decode v => exact writesListed_execDecode h
  | probe => exact writesListed_execProbe h
  | keygen target =>
    obtain ht | ⟨kr, kt, rfl⟩ := execKeygen_cases h
    · exact ht.writesListed _
    · exact { keys := nofun }
  | cipher =>
    obtain ht | ⟨m, _, rfl⟩ := execCipher_cases h
    · exact ht.writesListed _
    · exact { out := nofun }
  | lane =>
    obtain ht | ⟨v, m, _, rfl⟩ := execLane_cases h
    · exact ht.writesListed _
    · exact { out := nofun, vectors := nofun }
  | pfxLit v => exact (tokenActs_pfxRun (.lit v) s).writesListed_still rfl h
  | pfxRun2 v => exact (tokenActs_pfxRun (.run2 v) s).writesListed_still rfl h
  | pfxRun3 v => exact (tokenActs_pfxRun (.run3 v) s).writesListed_still rfl h
  | pfxCopy o l form => exact (tokenActs_pfxRun (.copy o l form) s).writesListed_still rfl h
  | pfxTerm => rw [next_inj h]; exact writesListed_status _ s _
  | bytTerm => rw [next_inj h]; exact writesListed_status _ s _
  | bytLitrun n form => exact writesListed_execBytLitrun h
  | bytFillb n form v => exact (tokenActs_emitFill _ _ s).afterHeader.writesListed_still rfl h
  | bytFillw n form u0 u1 => exact (tokenActs_emitFill _ _ s).afterHeader.writesListed_still rfl h
  | bytCopys l form o => exact (tokenActs_emitCopy _ _ s).afterHeader.writesListed_still rfl h
  | bytCopyl l form o => exact (tokenActs_emitCopy _ _ s).afterHeader.writesListed_still rfl h
  | dpxElem sel d => exact (tokenActs_dpxElem sel d s).writesListed_still rfl h
  | dpxApair r v => exact (tokenActs_dpxApair r v s).writesListed_still rfl h
  | lopEnd => rw [next_inj h]; exact { vectors := nofun }
  | lopAdd w d r => rw [next_inj h]; exact { vectors := nofun }
  | lopSub w d r => rw [next_inj h]; exact { vectors := nofun }
  | lopXor w d r => rw [next_inj h]; exact { vectors := nofun }

theorem exec_src {i : Instr} {s t : State} (h : exec i s = .next t) : t.src = s.src := by
  by_cases hi : i = .sreset
  · subst hi
    rw [next_inj h, resetRegisters_src]
  · rw [(writesListed_exec hi h).frame]

/-- Settles O56: each instruction by its own inversion lemma. -/
theorem onlyListedInstructionsWriteEachRegister : Obligations.OnlyListedInstructionsWriteEachRegister := by
  intro i s t h
  refine ⟨exec_src h, fun hi => ?_⟩
  have hw := writesListed_exec hi h
  exact ⟨hw.frame, hw.cursor, hw.mode, hw.position, hw.result, hw.opos, hw.vstate, hw.out, hw.keys,
    hw.vectors⟩

end Sys2Proof.Machine
end

section
/-! PROOFS. The invariant of the machine (O58, O59): what a settled host move keeps, what the prologue hands a
command, and what every command makes of it. -/

namespace Sys2Proof.Machine

open Sys2Proof

theorem memoryWf_iff (s : State) : s.memoryWf = true ↔ s.src.wf = true ∧ s.out.wf = true := by
  simp [State.memoryWf]

theorem reservedZero_iff (s : State) : s.reservedZero = true ↔
    s.probeCfg &&& probeCfgMask = s.probeCfg ∧ s.dpCfg &&& dpCfgMask = s.dpCfg
      ∧ ∀ v : Fin 4, s.fmt[v] &&& fmtMask = s.fmt[v] := by
  simp [State.reservedZero, and_assoc]

theorem reset_reservedZero : State.reset.reservedZero = true := by decide

/-! ## `STATUS` -/

theorem legal_clear : Status.clear.legal = true := by decide

/-- A legal `STATUS` without an error is clear once the prologue has cleared its result flags
(40_commands.md R132). -/
theorem clearResultFlags_status_of_legal {s : State} (h : s.status.legal = true) (he : s.status.err = false) :
    (clearResultFlags s).status = Status.clear := by
  obtain ⟨hcodes, _⟩ := Bool.and_eq_true_iff.mp h
  simp only [Status.codesLegal, he, Bool.and_eq_true, beq_iff_eq] at hcodes
  obtain ⟨⟨_, hec⟩, hsub⟩ := hcodes
  have hcode : s.status.ecode = 0 := by simpa using hec.symm
  have hcause : s.status.subcode = 0 := by simpa [hcode] using hsub
  simp [clearResultFlags, Status.clear, he, hcode, hcause]

/-- A raise leaves a legal `STATUS` whatever stood there (60_exceptions.md R345). -/
theorem legal_raise {e : Exc} (he : e.ofToken = true) (s : State) : (raise e 0 s).status.legal = true := by
  cases e with
  | implausibleResult | formatError => exact absurd he (by decide)
  | boundsViolation | unrecognizedControlCode | truncatedInput | illegalCommand => rfl

theorem Traps.legal {s t : State} (h : Traps s t) : t.status.legal = true := by
  obtain ⟨e, he, rfl⟩ := h
  exact legal_raise he s

theorem legal_raise_formatError {last : BitVec 3} (h : last.toNat ≤ 4) (s : State) :
    (raise .formatError last s).status.legal = true := by
  simp [raise, Status.legal, Status.codesLegal, Status.flagsLegal, Exc.code, h]

theorem legal_finish {s : State} (h : s.status = Status.clear) : (finish s).status.legal = true := by
  simp only [finish, h]
  decide

theorem legal_finishValid {s : State} (h : s.status = Status.clear) :
    (finishValid s).status.legal = true := by
  simp only [finishValid, h]
  decide

theorem legal_finishDecode {s u : State} (hs : s.status = Status.clear) (h : DecodeReaches s u)
    (v : BitVec 2) : (finishDecode v u).status.legal = true := by
  cases h
  simp [finishDecode, hs, Status.clear, Status.legal, Status.codesLegal, Status.flagsLegal]

/-! ## What every command keeps -/

theorem plainCmd_ok {arg : Nat} {i j : Instr} (h : plainCmd arg i = .ok j) : j = i := by
  unfold plainCmd at h
  split at h
  · injection h with h; exact h.symm
  · cases h

theorem countCmd_ok {arg : Nat} {i : BitVec 6 → Instr} {j : Instr} (h : countCmd arg i = .ok j) :
    ∃ n, j = i n := by
  unfold countCmd at h
  split_ifs at h
  injection h with h
  exact ⟨_, h.symm⟩

theorem bcinitCmd_ok {arg : Nat} {j : Instr} (h : bcinitCmd arg = .ok j) : ∃ o r, j = .bcinit o r := by
  unfold bcinitCmd at h
  split at h
  · cases h
  · split at h
    · cases h
    · injection h with h
      exact ⟨_, _, h.symm⟩

theorem decodeArgCmd_ok {arg : Nat} {j : Instr} (h : decodeArgCmd arg = .ok j) : ∃ v, j = .decode v := by
  unfold decodeArgCmd at h
  split_ifs at h
  injection h with h
  exact ⟨_, h.symm⟩

theorem keygenCmd_ok {arg : Nat} {j : Instr} (h : keygenCmd arg = .ok j) : ∃ target, j = .keygen target := by
  unfold keygenCmd at h
  by_cases harg : field arg 1 7 ≠ 0
  · rw [if_pos harg] at h; cases h
  · rw [if_neg harg] at h
    injection h with h
    exact ⟨_, h.symm⟩

/-- A `CMD` write starts commands only (30_encoding.md R100, R102). -/
theorem isCommand_of_decodeCmd {w : Word} {i : Instr} (h : decodeCmd w = .ok i) : isCommand i = true := by
  unfold decodeCmd at h
  split at h
  · cases h
  · split at h
    · rw [plainCmd_ok h]; rfl
    · rw [plainCmd_ok h]; rfl
    · rw [plainCmd_ok h]; rfl
    · obtain ⟨o, r, rfl⟩ := bcinitCmd_ok h; rfl
    · obtain ⟨n, rfl⟩ := countCmd_ok h; rfl
    · obtain ⟨n, rfl⟩ := countCmd_ok h; rfl
    · rw [plainCmd_ok h]; rfl
    · rw [plainCmd_ok h]; rfl
    · obtain ⟨v, rfl⟩ := decodeArgCmd_ok h; rfl
    · rw [plainCmd_ok h]; rfl
    · obtain ⟨target, rfl⟩ := keygenCmd_ok h; rfl
    · rw [plainCmd_ok h]; rfl
    · rw [plainCmd_ok h]; rfl
    · cases h

theorem exec_status_legal {i : Instr} {s t : State} (hi : isCommand i = true) (hs : s.status = Status.clear)
    (h : exec i s = .next t) : t.status.legal = true := by
  cases i with
  | nop => rw [next_inj h]; exact legal_finish hs
  | clear => rw [next_inj h]; exact legal_clear
  | sreset => rw [next_inj h]; exact legal_clear
  | bcinit o r => rw [next_inj h]; exact legal_finish hs
  | bcpeek n =>
    obtain ht | ⟨r, rfl⟩ := execBcpeek_cases h
    · exact ht.legal
    · exact legal_finish hs
  | bctake n =>
    obtain ht | ⟨r, c, _, rfl⟩ := execBctake_cases h
    · exact ht.legal
    · exact legal_finish hs
  | bcalign =>
    obtain ht | rfl := execBcalign_cases h
    · exact ht.legal
    · exact legal_finish hs
  | ocopy =>
    obtain ht | ⟨m, _, rfl⟩ := execOcopy_cases h
    · exact ht.legal
    · exact legal_finishValid hs
  | decode v =>
    obtain ⟨u, hu, ht | rfl⟩ := execDecode_cases h
    · exact ht.legal
    · exact legal_finishDecode hs hu _
  | probe =>
    cases execProbe_cases h with
    | illegal u hu => exact legal_raise rfl u
    | failed last u hlast hu => exact legal_raise_formatError hlast u
    | accepted v u hu => exact legal_finishDecode hs hu _
  | keygen target =>
    obtain ht | ⟨kr, kt, rfl⟩ := execKeygen_cases h
    · exact ht.legal
    · exact legal_finish hs
  | cipher =>
    obtain ht | ⟨m, _, rfl⟩ := execCipher_cases h
    · exact ht.legal
    · exact legal_finishValid hs
  | lane =>
    obtain ht | ⟨v, m, _, rfl⟩ := execLane_cases h
    · exact ht.legal
    · exact legal_finishValid hs
  | _ => cases hi

theorem Traps.out_eq {s t : State} (h : Traps s t) : t.out = s.out := by
  obtain ⟨e, _, rfl⟩ := h
  exact raise_out e 0 s

theorem DecodeReaches.wf_out {s u : State} (h : DecodeReaches s u) (hw : s.out.wf = true) :
    u.out.wf = true := by
  cases h with | intro early c p m hm =>
  exact hm hw

theorem exec_wf_out {i : Instr} {s t : State} (hi : isCommand i = true) (hw : s.out.wf = true)
    (h : exec i s = .next t) : t.out.wf = true := by
  have hkeep : writesOut i = false → i ≠ .sreset → t.out.wf = true := fun hout hne => by
    rwa [(writesListed_exec hne h).out hout]
  cases i with
  | sreset => rw [next_inj h]; exact hw
  | ocopy =>
    obtain ht | ⟨m, hm, rfl⟩ := execOcopy_cases h
    · rwa [ht.out_eq]
    · exact hm hw
  | decode v =>
    obtain ⟨u, hu, ht | rfl⟩ := execDecode_cases h
    · rw [ht.out_eq]; exact hu.wf_out hw
    · exact hu.wf_out hw
  | probe =>
    cases execProbe_cases h with
    | illegal u hu => exact hu.wf_out hw
    | failed last u _ hu => exact hu.wf_out hw
    | accepted v u hu => exact hu.wf_out hw
  | cipher =>
    obtain ht | ⟨m, hm, rfl⟩ := execCipher_cases h
    · rwa [ht.out_eq]
    · exact hm hw
  | lane =>
    obtain ht | ⟨v, m, hm, rfl⟩ := execLane_cases h
    · rwa [ht.out_eq]
    · exact hm hw
  | nop | clear | bcinit _ _ | bcpeek _ | bctake _ | bcalign | keygen _ => exact hkeep rfl nofun
  | _ => cases hi

theorem exec_reservedZero {i : Instr} {s t : State} (hz : s.reservedZero = true) (h : exec i s = .next t) :
    t.reservedZero = true := by
  by_cases hi : i = .sreset
  · subst hi
    rw [next_inj h]
    exact reset_reservedZero
  · rw [(writesListed_exec hi h).frame]
    exact hz

/-! ## The host's moves -/

/-- What a pending move owes the invariant: a settled state meets it, and a command starts with canonical
memories, the reserved bits 0 and `STATUS` clear, but for CLEAR and SRESET, which a sticky error lets through
(40_commands.md R132). -/
def Pending.Inv : Pending → Prop
  | .settled s => s.Inv
  | .run i s => s.memoryWf = true ∧ s.reservedZero = true
      ∧ (i = .clear ∨ i = .sreset ∨ (isCommand i = true ∧ s.status = Status.clear))

theorem startCommand_inv {w : Word} {s : State} (h : s.Inv) : (startCommand w s).Inv := by
  obtain ⟨hmem, hz, hst⟩ := h
  obtain ⟨_, _, hr⟩ | ⟨_, _, hr⟩ | ⟨_, _, _, hr⟩ | ⟨_, _, hr⟩ | ⟨he, i, hd, hr⟩ := startCommand_cases w s
  · rw [hr]; exact ⟨hmem, hz, .inl rfl⟩
  · rw [hr]; exact ⟨hmem, hz, .inr (.inl rfl)⟩
  · rw [hr]; exact ⟨hmem, hz, hst⟩
  · rw [hr]; exact ⟨hmem, hz, legal_raise rfl _⟩
  · rw [hr]
    exact ⟨hmem, hz, .inr (.inr ⟨isCommand_of_decodeCmd hd, clearResultFlags_status_of_legal hst he⟩)⟩

/-- A host write reaches neither the memories nor `STATUS`. -/
theorem writeReg_frame (s : State) (r : Reg) (x : Word) :
    (writeReg s r x).status = s.status ∧ (writeReg s r x).src = s.src ∧ (writeReg s r x).out = s.out
      ∧ (writeReg s r x).busData = s.busData ∧ (writeReg s r x).host = s.host := by
  cases r <;> exact ⟨rfl, rfl, rfl, rfl, rfl⟩

theorem and_mask_idem (x m : Word) : (x &&& m) &&& m = x &&& m := by
  rw [BitVec.and_assoc, BitVec.and_self]

theorem writeReg_reservedZero {s : State} (r : Reg) (x : Word) (h : s.reservedZero = true) :
    (writeReg s r x).reservedZero = true := by
  obtain ⟨hp, hd, hf⟩ := (reservedZero_iff s).mp h
  cases r with
  | probeCfg => exact (reservedZero_iff _).mpr ⟨and_mask_idem x _, hd, hf⟩
  | dpCfg => exact (reservedZero_iff _).mpr ⟨hp, and_mask_idem x _, hf⟩
  | fmt v =>
    refine (reservedZero_iff _).mpr ⟨hp, hd, fun v' => ?_⟩
    simp only [writeReg, Fin.getElem_fin, Vector.getElem_set]
    split
    · exact and_mask_idem x _
    · exact hf v'
  | _ => exact h

theorem writeReg_inv {s : State} (r : Reg) (x : Word) (h : s.Inv) : (writeReg s r x).Inv := by
  obtain ⟨hmem, hz, hst⟩ := h
  obtain ⟨hstatus, hsrc, hout, _⟩ := writeReg_frame s r x
  refine ⟨?_, writeReg_reservedZero r x hz, by rwa [hstatus]⟩
  rw [State.memoryWf, hsrc, hout]
  exact hmem

theorem resetRegisters_inv {s : State} (h : s.memoryWf = true) : (resetRegisters s).Inv :=
  ⟨h, reset_reservedZero, legal_clear⟩

/-- Settles O58: the reset table's values have no reserved bit, and nothing is listed or flagged. -/
theorem resetMeetsTheInvariant : Obligations.ResetMeetsTheInvariant := by
  obtain ⟨hsrc, hout⟩ := reset_memoryWf
  exact ⟨(memoryWf_iff _).mpr ⟨hsrc, hout⟩, reset_reservedZero, legal_clear⟩

theorem hostWriteReg_inv (o : BitVec 12) (x : Word) {s : State} (h : s.Inv) : (hostWriteReg o x s).Inv := by
  unfold hostWriteReg
  split
  · exact h
  · exact startCommand_inv h
  · exact writeReg_inv _ x h

theorem hostMove_inv (m : HostMove) {s : State} (h : s.Inv) : (hostMove m s).Inv := by
  obtain ⟨hmem, hz, hst⟩ := h
  obtain ⟨hsrc, hout⟩ := (memoryWf_iff s).mp hmem
  cases m with
  | writeReg o x => exact hostWriteReg_inv o x ⟨hmem, hz, hst⟩
  | readReg o => exact ⟨hmem, hz, hst⟩
  | writeSrc a b => exact ⟨(memoryWf_iff _).mpr ⟨Memory.wf_write _ _ _ a.isLt hsrc, hout⟩, hz, hst⟩
  | readSrc a => exact ⟨hmem, hz, hst⟩
  | writeOut a b => exact ⟨(memoryWf_iff _).mpr ⟨hsrc, Memory.wf_write _ _ _ a.isLt hout⟩, hz, hst⟩
  | readOut a => exact ⟨hmem, hz, hst⟩
  | reset => exact resetRegisters_inv hmem

theorem nextMove_inv {s : State} (h : s.Inv) : (nextMove s).Inv := by
  cases hm : s.host with
  | nil => rw [nextMove_nil s hm]; exact h
  | cons m rest => rw [nextMove_cons s m rest hm]; exact hostMove_inv m h

/-- What the prologue handed over, the command turns into the invariant again. -/
theorem exec_inv {i : Instr} {s t : State} (hp : (Pending.run i s).Inv) (h : exec i s = .next t) :
    t.Inv := by
  obtain ⟨hmem, hz, hi⟩ := hp
  obtain ⟨hsrc, hout⟩ := (memoryWf_iff s).mp hmem
  have hcmd : isCommand i = true := by
    obtain rfl | rfl | ⟨hc, _⟩ := hi
    · rfl
    · rfl
    · exact hc
  refine ⟨(memoryWf_iff t).mpr ⟨?_, exec_wf_out hcmd hout h⟩, exec_reservedZero hz h, ?_⟩
  · rwa [exec_src h]
  · obtain rfl | rfl | ⟨_, hs⟩ := hi
    · rw [next_inj h]; exact legal_clear
    · rw [next_inj h]; exact legal_clear
    · exact exec_status_legal hcmd hs h

/-- Settles O59: the host's move keeps the invariant up to a command's start, and the command restores it. -/
theorem stepKeepsTheInvariant : Obligations.StepKeepsTheInvariant := by
  intro s t hs h
  have hp := nextMove_inv hs
  obtain ⟨s', hm, hstep⟩ | ⟨i, s', hm, hstep⟩ := step_cases s
  · rw [hm] at hp
    rw [hstep] at h
    rw [next_inj h]
    exact hp
  · rw [hm] at hp
    rw [hstep] at h
    exact exec_inv hp h

end Sys2Proof.Machine
end

section
/-! PROOFS. The register map and the reads and writes of the host (10_state.md R21, R22, R53). -/

namespace Sys2Proof.Machine

open Sys2Proof

/-! ## Words and halves -/

/-- A field of `n` bits shown in a word: the low bits of what was written (10_state.md R21). -/
theorem setWidth_setWidth_eq_and (x : Word) (n : Nat) (hn : n ≤ 32) :
    (x.setWidth n).setWidth 32 = x &&& BitVec.ofNat 32 (2 ^ n - 1) := by
  apply BitVec.eq_of_toNat_eq
  have hle : 2 ^ n ≤ 2 ^ 32 := Nat.pow_le_pow_right (by decide) hn
  have hlt := Nat.mod_lt x.toNat (Nat.two_pow_pos n)
  rw [BitVec.toNat_and, BitVec.toNat_ofNat, Nat.mod_eq_of_lt (by omega : 2 ^ n - 1 < 2 ^ 32),
    Nat.and_two_pow_sub_one_eq_mod, BitVec.toNat_setWidth, BitVec.toNat_setWidth,
    Nat.mod_eq_of_lt (by omega : x.toNat % 2 ^ n < 2 ^ 32)]

theorem ofNat_toNat_getLsbD_zero (x : Word) : BitVec.ofNat 32 (x.getLsbD 0).toNat = x &&& 1 := by
  apply BitVec.eq_of_toNat_eq
  have hbit : (x.getLsbD 0).toNat = x.toNat % 2 := by
    rw [BitVec.getLsbD, Nat.testBit_zero]
    obtain h | h := Nat.mod_two_eq_zero_or_one x.toNat <;> simp [h]
  rw [BitVec.toNat_and, BitVec.toNat_ofNat, hbit]
  exact (Nat.mod_eq_of_lt (by omega)).trans (Nat.and_one_is_mod _).symm

@[simp] theorem and_allOnes_word (x : Word) : x &&& 0xFFFFFFFF = x := BitVec.and_allOnes

@[simp] theorem lowHalf_joinHalves (hi lo : Word) : lowHalf (joinHalves hi lo) = lo := by
  ext i hi'
  simp [lowHalf, joinHalves]

@[simp] theorem highHalf_joinHalves (hi lo : Word) : highHalf (joinHalves hi lo) = hi := by
  ext i hi'
  simp [highHalf, joinHalves, show 32 + i < 64 by omega, show i < 64 by omega, BitVec.getLsbD_eq_getElem hi']

/-- The four bytes of a `KT` window put together again (10_state.md R49). -/
theorem leValue_bytes (x : Word) : BitVec.ofNat 32
    (leValue [x.extractLsb' 0 8, x.extractLsb' 8 8, x.extractLsb' 16 8, x.extractLsb' 24 8]) = x := by
  apply BitVec.eq_of_toNat_eq
  have hx := x.isLt
  simp [leValue, BitVec.extractLsb'_toNat, Nat.shiftRight_eq_div_pow]
  omega

/-! ## A host write, register by register -/

theorem getElem_set_self_fin {α : Type} {n : Nat} (xs : Vector α n) (i : Fin n) (a : α) :
    (xs.set i a)[i] = a :=
  Vector.getElem_set_self _

theorem getElem_set_ne_fin {α : Type} {n : Nat} (xs : Vector α n) {i j : Fin n} (a : α) (h : j ≠ i) :
    (xs.set i a)[j] = xs[j] :=
  Vector.getElem_set_ne _ _ (fun heq => h (Fin.ext heq.symm))

theorem ktByte_setKtWord_self (s : State) (w : Fin 64) (x : Word) (b : Fin 4) :
    ktByte { s with kt := setKtWord s.kt w x } w b = x.extractLsb' (8 * b.val) 8 := by
  fin_cases b <;> simp [ktByte, setKtWord]

theorem ktByte_setKtWord_other (s : State) {w w' : Fin 64} (x : Word) (b : Fin 4) (h : w' ≠ w) :
    ktByte { s with kt := setKtWord s.kt w x } w' b = ktByte s w' b := by
  have hb := b.isLt
  have hne : w.val ≠ w'.val := fun heq => h (Fin.ext heq.symm)
  have h0 : 4 * w.val ≠ 4 * w'.val + b.val := by omega
  have h1 : ∀ k < 4, 4 * w.val + k ≠ 4 * w'.val + b.val := by omega
  simp [ktByte, setKtWord, h0, h1]

/-- What a register written by the host reads back as (10_state.md R21). -/
theorem readReg_writeReg_self (s : State) (r : Reg) (x : Word) (hr : r ≠ .cmd) :
    readReg (writeReg s r x) r = if readOnly r then readReg s r else x &&& writableBits r := by
  have hall := (and_allOnes_word x).symm
  cases r with
  | cmd => exact absurd rfl hr
  | status | curResult | vLo _ | vHi _ => rfl
  | ctrl => exact ofNat_toNat_getLsbD_zero x
  | curCbits | ciphCfg => exact setWidth_setWidth_eq_and x 6 (by decide)
  | curMode => exact setWidth_setWidth_eq_and x 3 (by decide)
  | vstate => exact setWidth_setWidth_eq_and x 2 (by decide)
  | ktlen => exact setWidth_setWidth_eq_and x 9 (by decide)
  | probeCfg | dpCfg => rfl
  | fmt v => exact getElem_set_self_fin s.fmt v _
  | tagtab v => exact (getElem_set_self_fin s.tagtab v x).trans hall
  | lprog i => exact (getElem_set_self_fin s.lprog i x).trans hall
  | krLo j =>
    refine Eq.trans ?_ hall
    simp only [readReg, writeReg, getElem_set_self_fin, lowHalf_joinHalves]
  | krHi j =>
    refine Eq.trans ?_ hall
    simp only [readReg, writeReg, getElem_set_self_fin, highHalf_joinHalves]
  | kt w =>
    refine Eq.trans ?_ hall
    simp only [readReg, writeReg, ktByte_setKtWord_self]
    exact leValue_bytes x
  | _ => exact hall

/-- A host write changes no other register but `STATUS`, whose `OVR` is computed (10_state.md R54). -/
theorem readReg_writeReg_other (s : State) (r r' : Reg) (x : Word) (hne : r' ≠ r) (hst : r' ≠ .status) :
    readReg (writeReg s r x) r' = readReg s r' := by
  cases r with
  | fmt v =>
    cases r' with
    | fmt v' => exact getElem_set_ne_fin s.fmt _ (fun h => hne (h ▸ rfl))
    | status => exact absurd rfl hst
    | _ => rfl
  | tagtab v =>
    cases r' with
    | tagtab v' => exact getElem_set_ne_fin s.tagtab _ (fun h => hne (h ▸ rfl))
    | status => exact absurd rfl hst
    | _ => rfl
  | lprog i =>
    cases r' with
    | lprog i' => exact getElem_set_ne_fin s.lprog _ (fun h => hne (h ▸ rfl))
    | status => exact absurd rfl hst
    | _ => rfl
  | krLo j =>
    cases r' with
    | krLo j' => exact congrArg lowHalf (getElem_set_ne_fin s.kr _ (fun h => hne (h ▸ rfl)))
    | krHi j' =>
      simp only [readReg, writeReg]
      by_cases h : j' = j
      · subst h; simp only [getElem_set_self_fin, highHalf_joinHalves]
      · rw [getElem_set_ne_fin s.kr _ h]
    | status => exact absurd rfl hst
    | _ => rfl
  | krHi j =>
    cases r' with
    | krHi j' => exact congrArg highHalf (getElem_set_ne_fin s.kr _ (fun h => hne (h ▸ rfl)))
    | krLo j' =>
      simp only [readReg, writeReg]
      by_cases h : j' = j
      · subst h; simp only [getElem_set_self_fin, lowHalf_joinHalves]
      · rw [getElem_set_ne_fin s.kr _ h]
    | status => exact absurd rfl hst
    | _ => rfl
  | kt w =>
    cases r' with
    | kt w' =>
      have h : w' ≠ w := fun h => hne (h ▸ rfl)
      simp only [readReg, writeReg, ktByte_setKtWord_other s x _ h]
    | status => exact absurd rfl hst
    | _ => rfl
  | _ =>
    cases r' with
    | status => exact absurd rfl hst
    -- the same register, or one held in another field of the state
    | _ => first | exact absurd rfl hne | rfl

/-- A host write of a register that is not `CMD` only writes it. -/
theorem step_writeReg {s : State} {rest : List HostMove} {o : BitVec 12} {r : Reg} {x : Word}
    (ho : regAt o = some r) (hr : r ≠ .cmd) (hs : s.host = .writeReg o x :: rest) :
    step s = .next (writeReg { s with host := rest } r x) := by
  unfold step
  rw [nextMove_cons s _ rest hs]
  simp only [hostMove, hostWriteReg, ho]

/-- Settles O3: the register reads back masked, and the others by cases on where they stand. -/
theorem hostWriteReadsBackMasked : Obligations.HostWriteReadsBackMasked := by
  intro s rest o r x ho hr hs
  obtain ⟨hstatus, hsrc, hout, hbus, hhost⟩ := writeReg_frame { s with host := rest } r x
  refine ⟨_, step_writeReg ho hr hs, ?_, fun r' hne hst => ?_, hstatus, hsrc, hout, hbus, hhost⟩
  · exact readReg_writeReg_self { s with host := rest } r x hr
  · exact readReg_writeReg_other { s with host := rest } r r' x hne hst

end Sys2Proof.Machine
end

section
/-! PROOFS. Reset, the register map as a table, and the places of the flags in `STATUS` (10_state.md R22, R26,
R53, R54). -/

namespace Sys2Proof.Machine

open Sys2Proof

/-! ## Reset -/

theorem getElem_replicate_fin {α : Type} {n : Nat} (a : α) (i : Fin n) : (Vector.replicate n a)[i] = a :=
  Vector.getElem_replicate _

/-- The reset table (10_state.md R53). -/
theorem readReg_reset (r : Reg) : readReg State.reset r = resetValue r := by
  cases r with
  | status => decide
  | fmt v => exact getElem_replicate_fin _ v
  | tagtab v => exact getElem_replicate_fin _ v
  | lprog i => exact getElem_replicate_fin _ i
  | krLo j => exact congrArg lowHalf (getElem_replicate_fin _ j)
  | krHi j => exact congrArg highHalf (getElem_replicate_fin _ j)
  | vLo i => exact congrArg lowHalf (getElem_replicate_fin _ i)
  | vHi i => exact congrArg highHalf (getElem_replicate_fin _ i)
  | kt w =>
    have hbyte : ∀ b, ktByte State.reset w b = 0 := fun b => Vector.getElem_replicate _
    simp only [readReg, hbyte]
    rfl
  | _ => rfl

theorem readReg_resetRegisters (s : State) (r : Reg) : readReg (resetRegisters s) r = resetValue r :=
  (show readReg (resetRegisters s) r = readReg State.reset r by cases r <;> rfl).trans (readReg_reset r)

theorem step_reset {s : State} {rest : List HostMove} (h : s.host = .reset :: rest) :
    step s = .next (resetRegisters { s with host := rest }) := by
  unfold step
  rw [nextMove_cons s _ rest h]
  rfl

/-- Settles O1: the reset table, which SRESET and `rst` restore alike. -/
theorem resetGivesEveryRegisterItsValue : Obligations.ResetGivesEveryRegisterItsValue := by
  refine ⟨readReg_reset, rfl, fun s => ?_, fun s rest h => ?_⟩
  · exact ⟨_, rfl, readReg_resetRegisters s, rfl, rfl, rfl⟩
  · exact ⟨_, step_reset h, readReg_resetRegisters _, rfl, rfl, rfl, rfl⟩

/-! ## The register map -/

theorem regAt_offsetOf (r : Reg) : regAt (BitVec.ofNat 12 (offsetOf r)) = some r := by
  cases r with
  | fmt v | tagtab v => revert v; decide
  | lprog i | vLo i | vHi i => revert i; decide
  | krLo j | krHi j => revert j; decide
  | kt w => revert w; decide
  | _ => rfl

theorem offsetOf_of_lowRegAt {o : Nat} {r : Reg} (h : lowRegAt o = some r) : offsetOf r = o := by
  unfold lowRegAt at h
  split at h <;> cases h <;> rfl

theorem offsetOf_of_midRegAt {o : Nat} {r : Reg} (h : midRegAt o = some r) : offsetOf r = o := by
  unfold midRegAt at h
  split at h <;> cases h <;> rfl

/-- Only the offset the table gives a register reaches it (10_state.md R22). -/
theorem offsetOf_of_regAt {o : BitVec 12} {r : Reg} (h : regAt o = some r) : offsetOf r = o.toNat := by
  unfold regAt at h
  dsimp only at h
  generalize o.toNat = n at h ⊢
  by_cases haligned : n % 4 ≠ 0
  · rw [if_pos haligned] at h
    cases h
  rw [if_neg haligned] at h
  by_cases hlow : n < 0x040
  · rw [if_pos hlow] at h
    exact offsetOf_of_lowRegAt h
  rw [if_neg hlow] at h
  by_cases hfmt : n < 0x050
  · rw [if_pos hfmt] at h
    rw [← Option.some.inj h, offsetOf, Fin.val_ofNat]; omega
  rw [if_neg hfmt] at h
  by_cases htag : n < 0x060
  · rw [if_pos htag] at h
    rw [← Option.some.inj h, offsetOf, Fin.val_ofNat]; omega
  rw [if_neg htag] at h
  by_cases hmid : n < 0x090
  · rw [if_pos hmid] at h
    exact offsetOf_of_midRegAt h
  rw [if_neg hmid] at h
  by_cases hlprog : n < 0x0A0
  · rw [if_pos hlprog] at h
    rw [← Option.some.inj h, offsetOf, Fin.val_ofNat]; omega
  rw [if_neg hlprog] at h
  by_cases hkr : n < 0x0D8
  · rw [if_pos hkr] at h
    split at h <;> rw [← Option.some.inj h, offsetOf, Fin.val_ofNat] <;> omega
  rw [if_neg hkr] at h
  by_cases hgap : n < 0x100
  · rw [if_pos hgap] at h
    cases h
  rw [if_neg hgap] at h
  by_cases hkt : n < 0x200
  · rw [if_pos hkt] at h
    rw [← Option.some.inj h, offsetOf, Fin.val_ofNat]; omega
  rw [if_neg hkt] at h
  by_cases hv : n < 0x240
  · rw [if_pos hv] at h
    split at h <;> rw [← Option.some.inj h, offsetOf, Fin.val_ofNat] <;> omega
  rw [if_neg hv] at h
  cases h

theorem regAt_eq_none {o : BitVec 12} (h : ∀ r, offsetOf r ≠ o.toNat) : regAt o = none := by
  cases hr : regAt o with
  | none => rfl
  | some r => exact absurd (offsetOf_of_regAt hr) (h r)

/-- Settles O2: the map and the table of offsets are inverse to each other. -/
theorem registerMapIsTheTable : Obligations.RegisterMapIsTheTable := by
  refine ⟨regAt_offsetOf, fun o ho s rest => ⟨fun x hs => ?_, fun hs => ?_⟩⟩
  · unfold step
    rw [nextMove_cons s _ rest hs]
    simp only [hostMove, hostWriteReg, regAt_eq_none ho]
  · unfold step
    rw [nextMove_cons s _ rest hs]
    simp only [hostMove, hostReadReg, regAt_eq_none ho]

end Sys2Proof.Machine
end

section
/-! PROOFS. The places of the flags in `STATUS` (10_state.md R26, R54). -/

namespace Sys2Proof.Machine

open Sys2Proof

theorem getLsbD_ofNat_eq {n i : Nat} {b : Bool} (hi : i < 32) (h : n / 2 ^ i % 2 = b.toNat) :
    (BitVec.ofNat 32 n).getLsbD i = b := by
  rw [BitVec.getLsbD_ofNat, Nat.testBit_eq_decide_div_mod_eq, h]
  cases b <;> simp [hi]

theorem extractLsb'_ofNat_eq {n lo k : Nat} {x : BitVec k} (hn : n < 2 ^ 32)
    (h : n / 2 ^ lo % 2 ^ k = x.toNat) :
    (BitVec.ofNat 32 n).extractLsb' lo k = x := by
  apply BitVec.eq_of_toNat_eq
  rw [BitVec.extractLsb'_toNat, BitVec.toNat_ofNat, Nat.mod_eq_of_lt hn, Nat.shiftRight_eq_div_pow, h]

theorem overrun_iff (s : State) : overrun s = true ↔
    8 * (s.cur.bpos.toNat : Int) - (s.cur.cbits.toNat : Int) > 8 * (s.srcLen.toNat : Int) := by
  simp [overrun, bitpos]

/-- Settles O5: the sum of disjoint fields, read back at each field's place. -/
theorem statusWordShowsEveryFlag : Obligations.StatusWordShowsEveryFlag := by
  intro s
  have hdone := Bool.toNat_le s.status.done
  have herr := Bool.toNat_le s.status.err
  have hearly := Bool.toNat_le s.status.early
  have hovalid := Bool.toNat_le s.status.ovalid
  have hovr := Bool.toNat_le (overrun s)
  have hecode := s.status.ecode.isLt
  have hsubcode := s.status.subcode.isLt
  have hvused := s.status.vused.isLt
  dsimp only
  rw [← overrun_iff, statusWord]
  generalize hw : s.status.done.toNat * 2 + s.status.err.toNat * 4 + s.status.early.toNat * 8
    + s.status.ovalid.toNat * 16 + (overrun s).toNat * 32 + s.status.ecode.toNat * 2 ^ 8
    + s.status.subcode.toNat * 2 ^ 12 + s.status.vused.toNat * 2 ^ 16 = n
  have hlt : n < 2 ^ 32 := by omega
  refine ⟨?_, ?_, ?_, ?_, ?_, ?_, ?_, ?_, ?_, ?_, ?_, ?_, ?_⟩
  · rw [getLsbD_ofNat_eq (b := overrun s) (by decide) (by omega)]
  · exact getLsbD_ofNat_eq (by decide) (by change _ = 0; omega)
  · exact getLsbD_ofNat_eq (by decide) (by omega)
  · exact getLsbD_ofNat_eq (by decide) (by omega)
  · exact getLsbD_ofNat_eq (by decide) (by omega)
  · exact getLsbD_ofNat_eq (by decide) (by omega)
  · exact extractLsb'_ofNat_eq hlt (by change _ = 0; omega)
  · exact extractLsb'_ofNat_eq hlt (by omega)
  · exact getLsbD_ofNat_eq (by decide) (by change _ = 0; omega)
  · exact extractLsb'_ofNat_eq hlt (by omega)
  · exact getLsbD_ofNat_eq (by decide) (by change _ = 0; omega)
  · exact extractLsb'_ofNat_eq hlt (by omega)
  · exact extractLsb'_ofNat_eq hlt (by change _ = 0; omega)

end Sys2Proof.Machine
end

section
/-! PROOFS. Which loop the decode of a legal slot is (10_state.md R38; 43_token_decoder.md R180, R181;
46_delta_pixel.md R251, R260). -/

namespace Sys2Proof.Machine

open Sys2Proof

/-! ## The fields of a slot -/

theorem field_eq (w lo n : Nat) : field w lo n = w / 2 ^ lo % 2 ^ n := by
  rw [field, Nat.shiftRight_eq_div_pow]

theorem bytes_of_refillField {n : Nat} {r : RefillWidth} (h : RefillWidth.ofField n = some r) :
    r.bytes = 2 ^ n := by
  unfold RefillWidth.ofField at h
  split at h <;> cases h <;> rfl

theorem toField_of_refillField {n : Nat} {r : RefillWidth} (h : RefillWidth.ofField n = some r) :
    r.toField = n := by
  unfold RefillWidth.ofField at h
  split at h <;> cases h <;> rfl

theorem ofBit_eq_lsb_iff (b : Bool) : BitOrder.ofBit b = .lsb ↔ b = true := by
  cases b <;> decide

theorem toField_ofBit (b : Bool) : (BitOrder.ofBit b).toField = b.toNat := by
  cases b <;> rfl

theorem toNat_mod_two_beq_one (n : Nat) : (n % 2 == 1).toNat = n % 2 := by
  obtain h | h := Nat.mod_two_eq_zero_or_one n <;> rw [h] <;> rfl

/-- Where `FMTv` and `TAGTABv` make a format, its fields are theirs. -/
theorem formatOfRegs_some {fmt tagtab : Word} {f : Format} (h : Format.ofRegs fmt tagtab = some f) :
    Family.ofField (field fmt.toNat 0 2) = some f.family
      ∧ RefillWidth.ofField (field fmt.toNat 3 2) = some f.refill
      ∧ f = { family := f.family, refill := f.refill, tagtab := tagtab
              order := BitOrder.ofBit (field fmt.toNat 2 1 == 1)
              offw := field fmt.toNat 5 5, cntw := field fmt.toNat 10 4, lenbias := field fmt.toNat 14 4
              signBit := field fmt.toNat 18 1 == 1, escEn := field fmt.toNat 19 1 == 1
              term := BitVec.ofNat 8 (field fmt.toNat 24 8) } := by
  unfold Format.ofRegs at h
  split at h
  case h_1 fam r hfam hr =>
    split at h
    · cases h
    · cases h
      exact ⟨hfam, hr, rfl⟩
  case h_2 => cases h

theorem formatOfRegs_of_slotFormat {s : State} {v : Fin 4} {f : Format} (h : slotFormat s v = some f) :
    Format.ofRegs s.fmt[v] s.tagtab[v] = some f := by
  unfold slotFormat at h
  split at h
  case h_1 => cases h
  case h_2 g hg =>
    split at h
    · cases h
    · rw [hg, h]

theorem readsSlot_of_slotFormat {s : State} {v : Fin 4} {f : Format} (h : slotFormat s v = some f) :
    readsSlot s v f := by
  obtain ⟨_, hrefill, hf⟩ := formatOfRegs_some (formatOfRegs_of_slotFormat h)
  have hw := s.fmt[v].isLt
  simp only [field_eq] at hf hrefill
  refine ⟨?_, bytes_of_refillField hrefill, ?_, ?_, ?_, ?_, ?_, ?_, ?_⟩
  all_goals rw [hf]
  · simp [ofBit_eq_lsb_iff]
  · rfl
  · rfl
  · rfl
  · simp
  · simp
  · show (BitVec.ofNat 8 _).toNat = _
    rw [BitVec.toNat_ofNat]
    omega

theorem mode_of_slotFormat {s : State} {v : Fin 4} {f : Format} (h : slotFormat s v = some f) :
    modeOf f.order f.refill = BitVec.ofNat 3 (s.fmt[v].toNat / 4 % 8) := by
  obtain ⟨_, hrefill, hf⟩ := formatOfRegs_some (formatOfRegs_of_slotFormat h)
  have horder : f.order.toField = s.fmt[v].toNat / 4 % 2 := by
    rw [hf, toField_ofBit, field_eq]
    exact toNat_mod_two_beq_one _
  rw [modeOf, horder, toField_of_refillField hrefill, field_eq]
  congr 1
  omega

theorem family_of_slotFormat {s : State} {v : Fin 4} {f : Format} (h : slotFormat s v = some f) :
    Family.ofField (fmtFamily s v) = some f.family := by
  obtain ⟨hfamily, _, _⟩ := formatOfRegs_some (formatOfRegs_of_slotFormat h)
  rwa [field_eq, pow_zero, Nat.div_one] at hfamily

/-! ## The loops -/

theorem moreOutput_iff (s : State) : moreOutput s = true ↔ s.opos.toNat < s.outLen.toNat := by
  simp [moreOutput]

theorem moreElems_iff (s : State) : moreElems s = true ↔
    s.opos.toNat < dpWidth s * dpHeight s * (if dpAlpha s then 3 else dpChannels s) := by
  simp [moreElems, pixelCount, deltaColumns]

theorem morePairs_iff (s : State) : morePairs s = true ↔
    s.opos.toNat - 3 * (dpWidth s * dpHeight s) < dpWidth s * dpHeight s :=
  decide_eq_true_iff

theorem stored_zeroFill (m : Memory) (n : Nat) : stored .out (m.zeroFill n) m 0 n (fun _ => 0) := by
  intro x
  rw [Memory.read_zeroFill]
  simp

theorem decodeSlot_of_slotFormat {s : State} {v : Fin 4} {f : Format} (h : slotFormat s v = some f) :
    decodeSlot v s = runFamily f (startDecode f s) := by
  rw [decodeSlot, h]

/-- A decode changes neither the length of `OUT` nor `DP_CFG`. -/
theorem DecodeReaches.config {s u : State} (h : DecodeReaches s u) :
    u.outLen = s.outLen ∧ u.dpCfg = s.dpCfg := by
  cases h
  exact ⟨rfl, rfl⟩

/-- The two passes of a DELTA decode (46_delta_pixel.md R251, R260): the second where `ALPHA_RLE` is set, with
the fuel of the start. -/
theorem deltaDecode_of_done {f : Format} {s u : State}
    (h : decodeLoop moreElems (elemStep f) (decodeFuel s) s = .done u) :
    deltaDecode f s = if dpAlpha s then
      decodeLoop morePairs (pairStep f) (decodeFuel s) { u with cur := { u.cur with cache := 0, cbits := 0 } }
    else .done u := by
  have hends := decodeEnds_decodeLoop moreElems (iterationActs_elemStep f) (decodeFuel s) s
  rw [h] at hends
  cases hends with | done _ hu =>
  obtain ⟨hlen, hcfg⟩ := hu.config
  have halpha : dpAlpha u = dpAlpha s := by rw [dpAlpha, hcfg, dpAlpha]
  have hfuel : decodeFuel u = decodeFuel s := by rw [decodeFuel, hlen, decodeFuel]
  simp only [deltaDecode, h, halpha, alphaPass, hfuel]
  rfl

theorem deltaDecode_of_raised {f : Format} {s u : State} {e : Exc}
    (h : decodeLoop moreElems (elemStep f) (decodeFuel s) s = .raised e u) :
    deltaDecode f s = .raised e u := by
  rw [deltaDecode, h]

theorem execDecode_of_lengthsLegal {s : State} (v : Fin 4) (h : lengthsLegal s) :
    exec (.decode v) s = decodeResult v (decodeSlot v s) := by
  obtain ⟨hsrc, hout⟩ := h
  have hs : srcLenLegal s = true := decide_eq_true hsrc
  have ho : outLenLegal s = true := decide_eq_true hout
  exact if_pos ⟨hs, ho⟩

/-- Settles O30: the slot's fields, the loop its family names, and the end DECODE makes of that loop's end. -/
theorem decodeRunsItsFamilysLoop : Obligations.DecodeRunsItsFamilysLoop := by
  refine ⟨fun u => ⟨moreOutput_iff u, moreElems_iff u, morePairs_iff u⟩, fun s v f h => ?_⟩
  have hslot := decodeSlot_of_slotFormat h
  have hfam := family_of_slotFormat h
  refine ⟨readsSlot_of_slotFormat h, ⟨_, ?_, stored_zeroFill s.out s.outLen.toNat⟩, fun hf => ?_, fun hf => ?_,
    fun hf => ?_, fun hlen => ⟨fun u hu => ?_, fun e u hu => ?_⟩⟩
  · rw [startDecode, BitCursor.fresh, mode_of_slotFormat h]
  · rw [hf] at hfam
    rw [hslot, runFamily, ← Option.some.inj hfam]
    rfl
  · rw [hf] at hfam
    rw [hslot, runFamily, ← Option.some.inj hfam]
    rfl
  · rw [hf] at hfam
    have hdelta : decodeSlot v s = deltaDecode f (startDecode f s) := by
      rw [hslot, runFamily, ← Option.some.inj hfam]
    refine ⟨fun e u hu => hdelta.trans (deltaDecode_of_raised hu), fun u hu => ⟨fun ha => ?_, fun ha => ?_⟩⟩
    · exact (hdelta.trans (deltaDecode_of_done hu)).trans (if_neg (ne_true_of_eq_false ha))
    · exact (hdelta.trans (deltaDecode_of_done hu)).trans (if_pos ha)
  · rw [execDecode_of_lengthsLegal v hlen, hu]
    rfl
  · rw [execDecode_of_lengthsLegal v hlen, hu]
    rfl

end Sys2Proof.Machine
end

section
/-! PROOFS. What a cursor hands out: from an empty cache the bits of the stream (41_bitcursor.md R151 to R153,
R159), whatever the refill width. -/

namespace Sys2Proof.Machine

open Sys2Proof

/-! ## One refill -/

/-- The refill word under LSB-first holds the bytes' bits from its low end up. -/
theorem getLsbD_orBytes (byte : Nat → Byte) (n i : Nat) (hn : n ≤ 4) :
    ((List.range n).foldl (fun acc k => acc ||| ((byte k).setWidth 32 <<< (8 * k))) (0 : Word)).getLsbD i
      = (decide (i < 8 * n) && (byte (i / 8)).getLsbD (i % 8)) := by
  induction n with
  | zero => simp
  | succ n ih =>
    rw [List.range_succ, List.foldl_append, List.foldl_cons, List.foldl_nil, BitVec.getLsbD_or,
      ih (by omega), BitVec.getLsbD_shiftLeft, BitVec.getLsbD_setWidth]
    obtain h | h | h : i < 8 * n ∨ (i / 8 = n ∧ i % 8 = i - 8 * n) ∨ 8 * n + 8 ≤ i := by omega
    · simp [h, show i < 8 * (n + 1) by omega]
    · obtain ⟨hdiv, hmod⟩ := h
      simp [hdiv, hmod, show i < 32 by omega, show ¬ i < 8 * n by omega, show i - 8 * n < 32 by omega,
        show i < 8 * (n + 1) by omega]
    · rw [BitVec.getLsbD_of_ge (byte n) (i - 8 * n) (by omega)]
      simp [show ¬ i < 8 * n by omega, show ¬ i < 8 * (n + 1) by omega]

/-- The refill word under MSB-first holds the bytes' bits from its high end down. -/
theorem getMsbD_orBytes (byte : Nat → Byte) (n i : Nat) (hn : n ≤ 4) :
    ((List.range n).foldl (fun acc k => acc ||| ((byte k).setWidth 32 <<< (24 - 8 * k))) (0 : Word)).getMsbD i
      = (decide (i < 8 * n) && (byte (i / 8)).getLsbD (7 - i % 8)) := by
  induction n with
  | zero => simp
  | succ n ih =>
    rw [List.range_succ, List.foldl_append, List.foldl_cons, List.foldl_nil, BitVec.getMsbD_or,
      ih (by omega), BitVec.getMsbD_shiftLeft, BitVec.getMsbD_eq_getLsbD, BitVec.getLsbD_setWidth]
    obtain h | h | h : i < 8 * n ∨ (i / 8 = n ∧ i % 8 = i - 8 * n ∧ i < 8 * n + 8) ∨ 8 * n + 8 ≤ i := by
      omega
    · rw [BitVec.getLsbD_of_ge (byte n) _ (by omega)]
      simp [h, show i < 8 * (n + 1) by omega]
    · obtain ⟨hdiv, hmod, hlt⟩ := h
      rw [hdiv, hmod, show 32 - 1 - (i + (24 - 8 * n)) = 7 - (i - 8 * n) by omega]
      simp [show ¬ i < 8 * n by omega, show i + (24 - 8 * n) < 32 by omega, show 7 - (i - 8 * n) < 32 by omega,
        show i < 8 * (n + 1) by omega]
    · simp [show ¬ i < 8 * n by omega, show ¬ i < 8 * (n + 1) by omega,
        show ¬ i + (24 - 8 * n) < 32 by omega]

theorem bytes_le_four (w : RefillWidth) : w.bytes ≤ 4 := by cases w <;> decide

theorem bytes_pos (w : RefillWidth) : 0 < w.bytes := by cases w <;> decide

@[simp] theorem refill_bpos (e : Reader) (c : BitCursor) :
    (refill e c).bpos = c.bpos + BitVec.ofNat 32 e.width.bytes := rfl

theorem refill_cbits (e : Reader) (c : BitCursor) : (refill e c).cbits.toNat = 8 * e.width.bytes := by
  have := bytes_le_four e.width
  rw [refill, BitVec.toNat_ofNat]
  omega

/-- A refilled cache holds the stream bits of the bytes it was filled from (41_bitcursor.md R151, R159). -/
theorem cacheBit_refill (e : Reader) (c : BitCursor) (i : Nat) (hi : i < 8 * e.width.bytes) :
    cacheBit e.order (refill e c) i = streamBit e (8 * c.bpos.toNat + i) := by
  have hle := bytes_le_four e.width
  have hdiv : (8 * c.bpos.toNat + i) / 8 = c.bpos.toNat + i / 8 := by omega
  have hmod : (8 * c.bpos.toNat + i) % 8 = i % 8 := by omega
  have hword : (refill e c).cache = e.refillWord c.bpos.toNat := rfl
  cases ho : e.order
  · simp only [cacheBit, streamBit, ho, hword, Reader.refillWord, hdiv, hmod]
    rw [getMsbD_orBytes (fun k => e.byte (c.bpos.toNat + k)) _ _ hle, decide_eq_true hi, Bool.true_and]
  · simp only [cacheBit, streamBit, ho, hword, Reader.refillWord, hdiv, hmod]
    rw [getLsbD_orBytes (fun k => e.byte (c.bpos.toNat + k)) _ _ hle, decide_eq_true hi, Bool.true_and]

/-! ## The cursor at a bit of the stream -/

/-- The next bit of the cursor is bit `j` of the stream, and the cache holds the bits from there up to the
next byte to be fetched (41_bitcursor.md R157, R159). -/
structure StandsAt (e : Reader) (j : Nat) (c : BitCursor) : Prop where
  position : j + c.cbits.toNat = 8 * c.bpos.toNat
  fits : c.cbits.toNat ≤ 32
  holds : ∀ i < c.cbits.toNat, cacheBit e.order c i = streamBit e (j + i)

theorem standsAt_of_empty {c : BitCursor} (e : Reader) (h : c.cbits = 0) :
    StandsAt e (8 * c.bpos.toNat) c := by
  have h0 : c.cbits.toNat = 0 := by rw [h]; rfl
  exact ⟨by omega, by omega, fun i hi => by omega⟩

theorem StandsAt.refilled {e : Reader} {j : Nat} {c : BitCursor} (h : StandsAt e j c) (h0 : c.cbits = 0)
    (hj : j + 32 < 2 ^ 35) : StandsAt e j (refill e c) := by
  obtain ⟨hpos, _, _⟩ := h
  have h0' : c.cbits.toNat = 0 := by rw [h0]; rfl
  have hle := bytes_le_four e.width
  have hcbits := refill_cbits e c
  have hbpos : (refill e c).bpos.toNat = c.bpos.toNat + e.width.bytes := by
    rw [refill_bpos, BitVec.toNat_add, BitVec.toNat_ofNat]
    omega
  refine ⟨by omega, by omega, fun i hi => ?_⟩
  rw [cacheBit_refill e c i (by omega), show 8 * c.bpos.toNat = j by omega]

theorem StandsAt.ensured {e : Reader} {j : Nat} {c : BitCursor} (h : StandsAt e j c) (hj : j + 32 < 2 ^ 35) :
    StandsAt e j (ensureBit e c) ∧ 0 < (ensureBit e c).cbits.toNat := by
  unfold ensureBit
  split
  case isTrue h0 =>
    have := bytes_pos e.width
    exact ⟨h.refilled h0 hj, by rw [refill_cbits]; omega⟩
  case isFalse h0 =>
    exact ⟨h, Nat.pos_of_ne_zero fun hz => h0 (BitVec.eq_of_toNat_eq hz)⟩

theorem cacheBit_dropBit (o : BitOrder) (c : BitCursor) (i : Nat) :
    cacheBit o (dropBit o c) i = cacheBit o c (i + 1) := by
  cases o
  · simp [cacheBit, dropBit]
  · simp [cacheBit, dropBit, Nat.add_comm]

theorem nextBit_eq_cacheBit (o : BitOrder) (c : BitCursor) : nextBit o c = cacheBit o c 0 := by
  cases o <;> rfl

/-- One bit: the stream's, and the cursor then stands one bit further (41_bitcursor.md R152). -/
theorem take1_of_standsAt {e : Reader} {j : Nat} {c : BitCursor} (h : StandsAt e j c) (hj : j + 32 < 2 ^ 35) :
    (take1 e c).1 = streamBit e j ∧ StandsAt e (j + 1) (take1 e c).2 := by
  obtain ⟨⟨hpos, hfits, hholds⟩, hne⟩ := h.ensured hj
  have hcbits : (dropBit e.order (ensureBit e c)).cbits.toNat = (ensureBit e c).cbits.toNat - 1 := by
    rw [dropBit_cbits, BitVec.toNat_sub]
    simp
    omega
  refine ⟨?_, ?_, ?_, fun i hi => ?_⟩
  · exact (nextBit_eq_cacheBit _ _).trans (hholds 0 hne)
  · simp only [take1, hcbits, dropBit_bpos]
    omega
  · simp only [take1, hcbits]
    omega
  · simp only [take1, hcbits] at hi ⊢
    rw [cacheBit_dropBit, hholds _ (by omega), show j + (i + 1) = j + 1 + i by omega]

/-- The bits a cursor hands out are the stream's (41_bitcursor.md R153, R159). -/
theorem takenBits_of_standsAt {e : Reader} {j : Nat} {c : BitCursor} (h : StandsAt e j c) (n : Nat)
    (hj : j + n + 31 < 2 ^ 35) : takenBits e n c = streamBits e j n := by
  induction n generalizing j c with
  | zero => rfl
  | succ n ih =>
    obtain ⟨hbit, hnext⟩ := take1_of_standsAt h (by omega)
    rw [takenBits, hbit, ih hnext (by omega), streamBits, streamBits, List.range_succ_eq_map,
      List.map_cons, List.map_map]
    congr 1
    refine List.map_congr_left fun i _ => ?_
    rw [Function.comp_apply, show j + i.succ = j + 1 + i by omega]

end Sys2Proof.Machine
end

section
/-! PROOFS. Packing: the numbers that field bits spell, and a cursor over packed bits hands those bits out
(30_encoding.md R106; 41_bitcursor.md R153, R159). -/

namespace Sys2Proof.Machine

open Sys2Proof

/-! ## Numbers and their field bits -/

theorem testBit_bitsValue_lsb (bs : List Bool) (i : Nat) : (bitsValue .lsb bs).testBit i = bs.getD i false := by
  induction bs generalizing i with
  | nil => simp
  | cons b bs ih =>
    rw [bitsValue_lsb_cons, show b.toNat + 2 * bitsValue .lsb bs = Nat.bit b (bitsValue .lsb bs) by
      rw [Nat.bit_val]; omega]
    cases i with
    | zero => rw [Nat.testBit_bit_zero, List.getD_cons_zero]
    | succ i => rw [Nat.testBit_bit_succ, ih, List.getD_cons_succ]

theorem bitsValue_msb_eq_reverse (bs : List Bool) : bitsValue .msb bs = bitsValue .lsb bs.reverse := by
  induction bs with
  | nil => rfl
  | cons b bs ih =>
    rw [bitsValue_msb_cons, List.reverse_cons, bitsValue_lsb_append, bitsValue_lsb_cons, bitsValue_nil,
      List.length_reverse, ih]
    ring

theorem fieldBits_msb_eq_reverse (n v : Nat) : fieldBits .msb n v = (fieldBits .lsb n v).reverse := by
  refine List.ext_getElem (by simp) fun i _ _ => ?_
  simp [fieldBits]

theorem bitsValue_fieldBits_lsb (n v : Nat) : bitsValue .lsb (fieldBits .lsb n v) = v % 2 ^ n := by
  refine Nat.eq_of_testBit_eq fun i => ?_
  rw [testBit_bitsValue_lsb, Nat.testBit_mod_two_pow]
  by_cases h : i < n <;> simp [fieldBits, h]

/-- Reading the bits of a field gives the field back, in either order (41_bitcursor.md R153). -/
theorem bitsValue_fieldBits (o : BitOrder) (n v : Nat) : bitsValue o (fieldBits o n v) = v % 2 ^ n := by
  cases o
  · rw [bitsValue_msb_eq_reverse, fieldBits_msb_eq_reverse, List.reverse_reverse, bitsValue_fieldBits_lsb]
  · exact bitsValue_fieldBits_lsb n v

/-! ## A packed bit string -/

/-- Where a byte of the source is made of eight bits in consumption order, those are its stream bits
(41_bitcursor.md R159). -/
theorem streamBit_of_byte {e : Reader} {j : Nat} {g : Nat → Bool}
    (h : e.byte (j / 8) = BitVec.ofNat 8 (bitsValue e.order ((List.range 8).map g))) :
    streamBit e j = g (j % 8) := by
  have hlt : j % 8 < 8 := Nat.mod_lt j (by decide)
  cases ho : e.order
  · simp only [streamBit, ho, h, BitVec.getLsbD_ofNat, bitsValue_msb_eq_reverse, testBit_bitsValue_lsb]
    rw [decide_eq_true (by omega), Bool.true_and, List.getD_eq_getElem _ _ (by simp; omega),
      List.getElem_reverse, List.getElem_map, List.getElem_range]
    congr 1
    simp
    omega
  · simp only [streamBit, ho, h, BitVec.getLsbD_ofNat, testBit_bitsValue_lsb]
    rw [decide_eq_true hlt, Bool.true_and, List.getD_eq_getElem _ _ (by simpa using hlt), List.getElem_map,
      List.getElem_range]

theorem byte_packedReader (f : Format) (bits : List Bool) (a : Nat) (ha : a < (bits.length + 7) / 8) :
    (packedReader f bits).byte a
      = BitVec.ofNat 8 (bitsValue f.order ((List.range 8).map fun i => bits.getD (8 * a + i) false)) := by
  have hlen : (packBytes f.order bits).length = (bits.length + 7) / 8 := by simp [packBytes]
  rw [Reader.byte, if_pos (by simpa [packedReader, hlen] using ha), packedReader, Memory.ofBytes,
    Memory.read_writeBytes, if_pos (by omega), Nat.sub_zero, List.getD_eq_getElem _ _ (by omega)]
  simp [packBytes]

theorem streamBit_packedReader (f : Format) (bits : List Bool) (j : Nat) (hj : j < bits.length) :
    streamBit (packedReader f bits) j = bits.getD j false := by
  rw [streamBit_of_byte (byte_packedReader f bits (j / 8) (by omega)), Nat.div_add_mod]

theorem streamBits_packedReader (f : Format) (bits : List Bool) :
    streamBits (packedReader f bits) 0 bits.length = bits := by
  refine List.ext_getElem (by simp [streamBits]) fun i _ hi => ?_
  simp only [streamBits, List.getElem_map, List.getElem_range]
  rw [Nat.zero_add, streamBit_packedReader f bits i hi,
    List.getD_eq_getElem _ _ hi]

/-! ## What a cursor offers -/

/-- The next bits the cursor hands out. -/
def Offers (e : Reader) (c : BitCursor) (bits : List Bool) : Prop := takenBits e bits.length c = bits

/-- The cursor a slot sets up over packed bits offers them. -/
theorem offers_packedReader (f : Format) {bits : List Bool} (h : bits.length ≤ 64) :
    Offers (packedReader f bits) (BitCursor.fresh f.order f.refill) bits := by
  have hstands := standsAt_of_empty (c := BitCursor.fresh f.order f.refill) (packedReader f bits) rfl
  exact (takenBits_of_standsAt hstands bits.length (show 0 + bits.length + 31 < 2 ^ 35 by omega)).trans
    (streamBits_packedReader f bits)

theorem offers_append {e : Reader} {c : BitCursor} {xs ys : List Bool} :
    Offers e c (xs ++ ys) ↔ Offers e c xs ∧ Offers e (afterTake1 e xs.length c) ys := by
  rw [Offers, List.length_append, takenBits_add]
  exact ⟨fun h => List.append_inj h (by simp), fun ⟨hx, hy⟩ => congrArg₂ _ hx hy⟩

/-- The read of a field that is offered: the field, with what follows it offered next. -/
theorem take_of_offers {e : Reader} {c : BitCursor} {n v : Nat} {rest : List Bool}
    (h : Offers e c (fieldBits e.order n v ++ rest)) (hv : v < 2 ^ n) :
    (take e n c).1 = v ∧ Offers e (take e n c).2 rest := by
  obtain ⟨hfield, hrest⟩ := offers_append.mp h
  rw [length_fieldBits] at hrest
  rw [Offers, length_fieldBits] at hfield
  rw [take_value, take_cursor, hfield, bitsValue_fieldBits, Nat.mod_eq_of_lt hv]
  exact ⟨rfl, hrest⟩

end Sys2Proof.Machine
end

section
/-! PROOFS. Decode and encode agree on the tokens a tag selects (O14; 30_encoding.md R105, R106;
43_token_decoder.md R190). -/

namespace Sys2Proof.Machine

open Sys2Proof

/-! ## Counts -/

/-- The inline count field of a token whose count can be written: the escape code, or a value the bias turns
back into the count (30_encoding.md R105, R108). -/
theorem inlineField_of_countWf {form : CountForm} {esc : Bool} {max bias n : Nat}
    (h : countWf form esc max bias n = true) :
    (form = .explicit ∧ esc = true ∧ inlineField form max bias n = max)
      ∨ (form = .inline ∧ ¬ (esc = true ∧ inlineField form max bias n = max)
        ∧ inlineField form max bias n + bias = n ∧ inlineField form max bias n ≤ max) := by
  cases form with
  | explicit => exact .inl ⟨rfl, h, rfl⟩
  | inline =>
    simp only [countWf, Bool.and_eq_true, decide_eq_true_eq, Bool.not_eq_true', Bool.and_eq_false_imp,
      decide_eq_false_iff_not] at h
    obtain ⟨⟨hbias, hmax⟩, hesc⟩ := h
    exact .inr ⟨rfl, fun hm => hesc hm.1 hm.2, Nat.sub_add_cancel hbias, hmax⟩

theorem inlineField_le {form : CountForm} {esc : Bool} {max bias n : Nat}
    (h : countWf form esc max bias n = true) : inlineField form max bias n ≤ max := by
  obtain ⟨_, _, hf⟩ | ⟨_, _, _, hf⟩ := inlineField_of_countWf h
  · exact hf.le
  · exact hf

/-! ## Tags -/

theorem take_takenBits (e : Reader) (c : BitCursor) {m n : Nat} (h : m ≤ n) :
    (takenBits e n c).take m = takenBits e m c := by
  rw [← Nat.add_sub_cancel' h, takenBits_add, List.take_left' (length_takenBits e m c)]

/-- A tag that is offered is the one `FetchToken` finds, whatever the bits after it are (43_token_decoder.md
R190). -/
theorem tag_of_offers {f : Format} {e : Reader} {c : BitCursor} {k : PfxKind} {tag : List Bool}
    (ho : e.order = f.order) (hpos : 1 ≤ tag.length) (ht : tagIs f k tag = true) (h : Offers e c tag) :
    tagLen f.tagtab (peek e 3 c) = tag.length ∧ tagKind f.tagtab (peek e 3 c) = k := by
  have hpads : ∀ pad : List Bool, pad.length = 2 →
      pad ∈ [[false, false], [false, true], [true, false], [true, true]] := by
    intro pad hpad
    obtain ⟨a, b, rfl⟩ := List.length_eq_two.mp hpad
    cases a <;> cases b <;> decide
  have hpeek : (tag ++ takenBits e 2 (afterTake1 e tag.length c)).take 3 = takenBits e 3 c := calc
    _ = (takenBits e (tag.length + 2) c).take 3 := by
      rw [takenBits_add, show takenBits e tag.length c = tag from h]
    _ = takenBits e 3 c := take_takenBits e c (by omega)
  have hentry := List.all_eq_true.mp ht _ (hpads _ (length_takenBits e 2 (afterTake1 e tag.length c)))
  simp only [hpeek, Bool.and_eq_true, beq_iff_eq] at hentry
  rwa [peek_eq, take_value, ho]

/-- The tag an encoder writes stands for its kind. -/
theorem tagIs_tagBits {f : Format} {k : PfxKind} (h : (tagFor f k).isSome = true) :
    tagIs f k (tagBits f k) = true := by
  obtain ⟨tag, htag⟩ := Option.isSome_iff_exists.mp h
  have : tagBits f k = tag := by rw [tagBits, htag]; rfl
  rw [this]
  exact List.find?_some htag

/-- A token whose tag is offered is fetched as its kind, from the cursor after the tag (43_token_decoder.md
R190). -/
theorem fetchPfx_of_tag {f : Format} {e : Reader} {c : BitCursor} {k : PfxKind} {rest : List Bool}
    (ho : e.order = f.order) (ht : (tagFor f k).isSome = true) (h : Offers e c (tagBits f k ++ rest)) :
    ∃ c', Offers e c' rest ∧ (fetchPfx f e c).1 = .ok (fetchPfxBody f e k c').1 := by
  obtain ⟨htag, hrest⟩ := offers_append.mp h
  have hpos := (length_tagBits f k ht).1
  obtain ⟨hlen, hkind⟩ := tag_of_offers ho hpos (tagIs_tagBits ht) htag
  refine ⟨_, hrest, ?_⟩
  rw [fetchPfx, hlen, if_neg (by omega), hkind, take_cursor]

/-! ## Operands -/

theorem fetchCopy_of_copy {f : Format} {e : Reader} {c : BitCursor} {o l : BitVec 16} {form : CountForm}
    (ho0 : o ≠ 0) (ho : o.toNat < 2 ^ f.offw)
    (hl : countWf form f.escEn (2 ^ f.cntw - 1) f.lenbias l.toNat = true)
    (h : Offers e c (fieldBits e.order f.offw o.toNat
      ++ (fieldBits e.order f.cntw (inlineField form (2 ^ f.cntw - 1) f.lenbias l.toNat)
        ++ (if form = .explicit then fieldBits e.order 16 l.toNat else [])))) :
    (fetchCopy f e c).1 = .copy o l form := by
  have hfield := inlineField_le hl
  have hpow := Nat.two_pow_pos f.cntw
  have hoff0 : o.toNat ≠ 0 := fun hz => ho0 (BitVec.eq_of_toNat_eq hz)
  obtain ⟨hoff, h⟩ := take_of_offers h ho
  obtain ⟨hcnt, h⟩ := take_of_offers h (by omega)
  simp only [fetchCopy, hoff, if_neg hoff0, hcnt, BitVec.ofNat_toNat, BitVec.setWidth_eq]
  obtain ⟨rfl, hesc, hmax⟩ | ⟨rfl, hesc, hsum, _⟩ := inlineField_of_countWf hl
  · rw [if_pos rfl, ← List.append_nil (fieldBits _ _ _)] at h
    rw [if_pos ⟨hesc, hmax⟩, (take_of_offers h l.isLt).1, BitVec.ofNat_toNat, BitVec.setWidth_eq]
  · rw [if_neg hesc, hsum, BitVec.ofNat_toNat, BitVec.setWidth_eq]

theorem fetchCopy_of_term {f : Format} {e : Reader} {c : BitCursor}
    (h : Offers e c (fieldBits e.order f.offw 0)) : (fetchCopy f e c).1 = .term := by
  rw [← List.append_nil (fieldBits _ _ _)] at h
  rw [fetchCopy, if_pos (take_of_offers h (Nat.two_pow_pos f.offw)).1]

/-- The byte operand of a literal or a run. -/
theorem ofNat_take_of_byte {e : Reader} {c : BitCursor} {v : Byte}
    (h : Offers e c (fieldBits e.order 8 v.toNat)) : BitVec.ofNat 8 (take e 8 c).1 = v := by
  rw [← List.append_nil (fieldBits _ _ _)] at h
  rw [(take_of_offers h v.isLt).1, BitVec.ofNat_toNat, BitVec.setWidth_eq]

/-- A token's encoding is its tag, then its operands. -/
theorem fetchPfx_encodePfx {f : Format} {e : Reader} {c : BitCursor} {t : PfxToken} (ho : e.order = f.order)
    (hw : t.toInstr.wf f = true) (ht : tagged f t.toInstr = true) (h : Offers e c (encodePfx f t)) :
    (fetchPfx f e c).1 = .ok t := by
  cases t with
  | lit v | run2 v | run3 v =>
    obtain ⟨c', hc, hfetch⟩ := fetchPfx_of_tag ho ht h
    rw [hfetch, fetchPfxBody, ofNat_take_of_byte (ho ▸ hc)]
  | copy o l form =>
    simp only [PfxToken.toInstr, Instr.wf, Bool.and_eq_true, decide_eq_true_eq] at hw
    obtain ⟨⟨⟨_, ho0⟩, hoff⟩, hl⟩ := hw
    rw [encodePfx, List.append_assoc, List.append_assoc] at h
    obtain ⟨c', hc, hfetch⟩ := fetchPfx_of_tag ho ht h
    rw [hfetch, fetchPfxBody, fetchCopy_of_copy ho0 hoff hl (ho ▸ hc)]
  | term =>
    obtain ⟨c', hc, hfetch⟩ := fetchPfx_of_tag ho ht h
    rw [hfetch, fetchPfxBody, fetchCopy_of_term (ho ▸ hc)]

theorem encode_pfxToken (f : Format) (t : PfxToken) : encode f t.toInstr = .stream (encodePfx f t) := by
  cases t <;> rfl

theorem family_of_pfxToken_wf {f : Format} {t : PfxToken} (h : t.toInstr.wf f = true) : f.family = .pfx := by
  cases t with
  | copy o l form =>
    simp only [PfxToken.toInstr, Instr.wf, Bool.and_eq_true, beq_iff_eq] at h
    exact h.1.1.1
  | lit _ | run2 _ | run3 _ | term => exact eq_of_beq h

/-- A token takes at most 43 bits (30_encoding.md R105). -/
theorem length_encodePfx_le {f : Format} {t : PfxToken} (hf : f.wf = true) (hw : t.toInstr.wf f = true)
    (ht : tagged f t.toInstr = true) : (encodePfx f t).length ≤ 43 := by
  cases t with
  | lit v => exact (Laws.EncodedLength.pfxLit v f hf hw ht).2.trans (show 11 ≤ 43 by decide)
  | run2 v => exact (Laws.EncodedLength.pfxRun2 v f hf hw ht).2.trans (show 11 ≤ 43 by decide)
  | run3 v => exact (Laws.EncodedLength.pfxRun3 v f hf hw ht).2.trans (show 11 ≤ 43 by decide)
  | copy o l form => exact (Laws.EncodedLength.pfxCopy o l form f hf hw ht).2
  | term => exact (Laws.EncodedLength.pfxTerm f hf hw ht).2.trans (show 19 ≤ 43 by decide)

/-- Settles O14: the packed bits are offered to the cursor, the tag selects the kind, and each operand is read
back from its field. -/
theorem prefixTokenRoundTrip : Obligations.PrefixTokenRoundTrip := by
  intro f t hf hw ht
  have hlen := length_encodePfx_le hf hw ht
  have hfetch := fetchPfx_encodePfx rfl hw ht (offers_packedReader f (by omega))
  rw [encode_pfxToken, decode, decodeStream, family_of_pfxToken_wf hw]
  simp only [hfetch]

end Sys2Proof.Machine
end

section
/-! PROOFS. Decode and encode agree on the byte-controlled token headers (O15; 30_encoding.md R108, R109;
44_token_byte.md R210, R211). -/

namespace Sys2Proof.Machine

open Sys2Proof

/-! ## Bytes -/

/-- The next bytes the cursor hands out. -/
def OffersBytes (e : Reader) (c : BitCursor) (bytes : List Nat) : Prop :=
  Offers e c (bytes.flatMap (fieldBits e.order 8))

theorem take_of_offersBytes {e : Reader} {c : BitCursor} {b : Nat} {rest : List Nat}
    (h : OffersBytes e c (b :: rest)) (hb : b < 256) :
    (take e 8 c).1 = b ∧ OffersBytes e (take e 8 c).2 rest :=
  take_of_offers h hb

theorem ofNat_take_of_offersBytes {e : Reader} {c : BitCursor} {v : Byte} {rest : List Nat}
    (h : OffersBytes e c (v.toNat :: rest)) :
    BitVec.ofNat 8 (take e 8 c).1 = v ∧ OffersBytes e (take e 8 c).2 rest := by
  obtain ⟨hv, hrest⟩ := take_of_offersBytes h v.isLt
  rw [hv, BitVec.ofNat_toNat, BitVec.setWidth_eq]
  exact ⟨rfl, hrest⟩

theorem ofNat_fetchX16_of_offersBytes {e : Reader} {c : BitCursor} {x : BitVec 16} {rest : List Nat}
    (h : OffersBytes e c (x.toNat % 256 :: x.toNat / 256 :: rest)) :
    BitVec.ofNat 16 (fetchX16 e c).1 = x ∧ OffersBytes e (fetchX16 e c).2 rest := by
  have hx := x.isLt
  obtain ⟨hlo, h⟩ := take_of_offersBytes h (Nat.mod_lt _ (by decide))
  obtain ⟨hhi, h⟩ := take_of_offersBytes h (by omega)
  refine ⟨?_, h⟩
  rw [fetchX16, hlo, hhi, Nat.mod_add_div, BitVec.ofNat_toNat, BitVec.setWidth_eq]

/-- The count of a token, from its inline field and the explicit count bytes that follow an escape
(44_token_byte.md R210). -/
theorem fetchCount_of_countWf {f : Format} {e : Reader} {c : BitCursor} {form : CountForm} {max bias : Nat}
    {n : BitVec 16} {rest : List Nat} (hn : countWf form f.escEn max bias n.toNat = true)
    (h : OffersBytes e c (explicitBytes form n.toNat ++ rest)) :
    (fetchCount f e (inlineField form max bias n.toNat) max bias c).1 = (n, form)
      ∧ OffersBytes e (fetchCount f e (inlineField form max bias n.toNat) max bias c).2 rest := by
  obtain ⟨rfl, hesc⟩ | ⟨rfl, hesc, hsum, _⟩ := inlineField_of_countWf hn
  · obtain ⟨hcount, hrest⟩ := ofNat_fetchX16_of_offersBytes h
    rw [fetchCount, if_pos hesc, hcount]
    exact ⟨rfl, hrest⟩
  · rw [fetchCount, if_neg hesc, hsum, BitVec.ofNat_toNat, BitVec.setWidth_eq]
    exact ⟨rfl, h⟩

/-! ## The ranges of the control byte -/

theorem fetchBytBody_litrun (f : Format) (e : Reader) (c : BitCursor) {n : Nat} (hn : n ≤ 63) :
    (fetchBytBody f e n c).1
      = .litrun (fetchCount f e n 63 0 c).1.1 (fetchCount f e n 63 0 c).1.2 := by
  have hfield : field n 0 6 = n := by rw [field_eq]; omega
  rw [fetchBytBody, if_neg (by rw [field_eq]; omega), if_neg (by rw [field_eq]; omega), hfield]

theorem fetchBytBody_fillb (f : Format) (e : Reader) (c : BitCursor) {n : Nat} (hn : n ≤ 31) :
    (fetchBytBody f e (0x40 + n) c).1
      = .fillb (fetchCount f e n 31 0 c).1.1 (fetchCount f e n 31 0 c).1.2
          (BitVec.ofNat 8 (take e 8 (fetchCount f e n 31 0 c).2).1) := by
  have hfield : field (0x40 + n) 0 5 = n := by rw [field_eq]; omega
  rw [fetchBytBody, if_neg (by rw [field_eq]; omega), if_pos (by rw [field_eq]; omega), hfield]
  exact congrArg Prod.fst (if_neg (by rw [field_eq]; omega))

theorem fetchBytBody_fillw (f : Format) (e : Reader) (c : BitCursor) {n : Nat} (hn : n ≤ 31) :
    (fetchBytBody f e (0x60 + n) c).1
      = .fillw (fetchCount f e n 31 0 c).1.1 (fetchCount f e n 31 0 c).1.2
          (BitVec.ofNat 8 (take e 8 (fetchCount f e n 31 0 c).2).1)
          (BitVec.ofNat 8 (take e 8 (take e 8 (fetchCount f e n 31 0 c).2).2).1) := by
  have hfield : field (0x60 + n) 0 5 = n := by rw [field_eq]; omega
  rw [fetchBytBody, if_neg (by rw [field_eq]; omega), if_pos (by rw [field_eq]; omega), hfield]
  exact congrArg Prod.fst (if_pos (by rw [field_eq]; omega))

theorem fetchBytBody_copys (f : Format) (e : Reader) (c : BitCursor) {n : Nat} (hn : n ≤ 63) :
    (fetchBytBody f e (0x80 + n) c).1
      = .copys (fetchCount f e n 63 f.lenbias c).1.1 (fetchCount f e n 63 f.lenbias c).1.2
          (BitVec.ofNat 8 (take e 8 (fetchCount f e n 63 f.lenbias c).2).1) := by
  have hfield : field (0x80 + n) 0 6 = n := by rw [field_eq]; omega
  rw [fetchBytBody, if_pos (by rw [field_eq]; omega), hfield]
  exact congrArg Prod.fst (if_neg (by rw [field_eq]; omega))

theorem fetchBytBody_copyl (f : Format) (e : Reader) (c : BitCursor) {n : Nat} (hn : n ≤ 63) :
    (fetchBytBody f e (0xC0 + n) c).1
      = .copyl (fetchCount f e n 63 f.lenbias c).1.1 (fetchCount f e n 63 f.lenbias c).1.2
          (BitVec.ofNat 16 (fetchX16 e (fetchCount f e n 63 f.lenbias c).2).1) := by
  have hfield : field (0xC0 + n) 0 6 = n := by rw [field_eq]; omega
  rw [fetchBytBody, if_pos (by rw [field_eq]; omega), hfield]
  exact congrArg Prod.fst (if_pos (by rw [field_eq]; omega))

/-! ## Headers -/

/-- A token's count fits its inline field, or stands after an escape the format allows (30_encoding.md
R108). -/
def BytCountWf (f : Format) : BytToken → Prop
  | .term => True
  | .litrun n form => countWf form f.escEn 63 0 n.toNat = true
  | .fillb n form _ | .fillw n form _ _ => countWf form f.escEn 31 0 n.toNat = true
  | .copys l form _ | .copyl l form _ => countWf form f.escEn 63 f.lenbias l.toNat = true

/-- What the well-formedness of a byte-controlled token says (30_encoding.md R108; 44_token_byte.md R211). -/
theorem bytToken_wf {f : Format} {t : BytToken} (h : t.toInstr.wf f = true) :
    f.family = .byt ∧ BytCountWf f t ∧ (t ≠ .term → bytControl f t ≠ f.term.toNat) := by
  cases t with
  | term => exact ⟨eq_of_beq h, trivial, fun hne => absurd rfl hne⟩
  | litrun _ _ | fillb _ _ _ | fillw _ _ _ _ | copys _ _ _ | copyl _ _ _ =>
    simp only [BytToken.toInstr, Instr.wf, notTerm, Bool.and_eq_true, beq_iff_eq, decide_eq_true_eq] at h
    obtain ⟨⟨hfam, hcount⟩, hterm⟩ := h
    exact ⟨hfam, hcount, fun _ => hterm⟩

theorem bytControl_lt {f : Format} {t : BytToken} (h : BytCountWf f t) : bytControl f t < 256 := by
  cases t with
  | term => exact f.term.isLt
  | litrun _ _ | fillb _ _ _ | fillw _ _ _ _ | copys _ _ _ | copyl _ _ _ =>
    have := inlineField_le h
    simp only [bytControl]
    omega

/-- The operands of a token, read after its control byte (44_token_byte.md R210). -/
theorem fetchBytBody_of_offersBytes {f : Format} {e : Reader} {c : BitCursor} {t : BytToken}
    (hne : t ≠ .term) (hw : BytCountWf f t) (h : OffersBytes e c (encodeBytBytes f t).tail) :
    (fetchBytBody f e (bytControl f t) c).1 = t := by
  cases t with
  | term => exact absurd rfl hne
  | litrun n form =>
    have h : OffersBytes e c (explicitBytes form n.toNat ++ []) := by rw [List.append_nil]; exact h
    obtain ⟨hcount, _⟩ := fetchCount_of_countWf hw h
    rw [bytControl, fetchBytBody_litrun f e c (inlineField_le hw), hcount]
  | fillb n form v =>
    obtain ⟨hcount, h⟩ := fetchCount_of_countWf hw h
    obtain ⟨hv, _⟩ := ofNat_take_of_offersBytes h
    rw [bytControl, fetchBytBody_fillb f e c (inlineField_le hw), hcount, hv]
  | fillw n form u0 u1 =>
    obtain ⟨hcount, h⟩ := fetchCount_of_countWf hw h
    obtain ⟨hu0, h⟩ := ofNat_take_of_offersBytes h
    obtain ⟨hu1, _⟩ := ofNat_take_of_offersBytes h
    rw [bytControl, fetchBytBody_fillw f e c (inlineField_le hw), hcount, hu0, hu1]
  | copys l form o =>
    obtain ⟨hcount, h⟩ := fetchCount_of_countWf hw h
    obtain ⟨ho, _⟩ := ofNat_take_of_offersBytes h
    rw [bytControl, fetchBytBody_copys f e c (inlineField_le hw), hcount, ho]
  | copyl l form o =>
    obtain ⟨hcount, h⟩ := fetchCount_of_countWf hw h
    obtain ⟨ho, _⟩ := ofNat_fetchX16_of_offersBytes h
    rw [bytControl, fetchBytBody_copyl f e c (inlineField_le hw), hcount, ho]

theorem fetchByt_encodeBytBytes {f : Format} {e : Reader} {c : BitCursor} {t : BytToken}
    (hw : t.toInstr.wf f = true) (h : OffersBytes e c (encodeBytBytes f t)) : (fetchByt f e c).1 = t := by
  obtain ⟨_, hcount, hterm⟩ := bytToken_wf hw
  have hlt := bytControl_lt hcount
  obtain ⟨hcontrol, h⟩ := take_of_offersBytes h hlt
  by_cases hne : t = .term
  · subst hne
    rw [fetchByt, if_pos (by rw [hcontrol, bytControl, BitVec.ofNat_toNat, BitVec.setWidth_eq])]
  · have hbyte : BitVec.ofNat 8 (bytControl f t) ≠ f.term := fun heq =>
      hterm hne (by rw [← heq, BitVec.toNat_ofNat, Nat.mod_eq_of_lt hlt])
    rw [fetchByt, hcontrol, if_neg hbyte, fetchBytBody_of_offersBytes hne hcount h]

theorem encode_bytToken (f : Format) (t : BytToken) : encode f t.toInstr = .stream (encodeByt f t) := by
  cases t <;> rfl

theorem length_encodeByt_le (f : Format) (t : BytToken) : (encodeByt f t).length ≤ 40 := by
  rw [length_encodeByt]
  cases t with
  | term => exact (show 8 * 1 ≤ 40 by decide)
  | litrun n form | fillb n form _ | fillw n form _ _ | copys n form _ | copyl n form _ =>
    have := length_explicitBytes form n.toNat
    simp only [encodeBytBytes, List.length_cons, List.length_append, List.length_nil]
    omega

/-- Settles O15: the control byte selects the token, and its operands are read back byte by byte. -/
theorem byteTokenRoundTrip : Obligations.ByteTokenRoundTrip := by
  intro f t hw
  have hlen := length_encodeByt_le f t
  have hfetch := fetchByt_encodeBytBytes hw (offers_packedReader f (bits := encodeByt f t) (by omega))
  rw [encode_bytToken, decode, decodeStream, (bytToken_wf hw).1]
  exact congrArg (Except.ok ·.toInstr) hfetch

end Sys2Proof.Machine
end

section
/-! PROOFS. Decode and encode agree on the delta elements and alpha pairs (O16; 30_encoding.md R111, R114;
46_delta_pixel.md R255, R256). -/

namespace Sys2Proof.Machine

open Sys2Proof

/-! ## The unary code -/

/-- A single bit that is offered. -/
theorem take_one_of_offers {e : Reader} {c : BitCursor} {b : Bool} {rest : List Bool}
    (h : Offers e c (b :: rest)) : (take e 1 c).1 = b.toNat ∧ Offers e (take e 1 c).2 rest := by
  obtain ⟨hbit, hrest⟩ := List.cons.inj h
  rw [take_one, hbit]
  exact ⟨rfl, hrest⟩

/-- One-bits closed by a zero-bit, where no more are written than allowed (46_delta_pixel.md R255). -/
theorem unaryPrefix_of_offers {e : Reader} {c : BitCursor} {n m k : Nat} {rest : List Bool} (hn : n ≤ m)
    (h : Offers e c (List.replicate n true ++ false :: rest)) :
    (unaryPrefix e m k c).1 = some (k + n) ∧ Offers e (unaryPrefix e m k c).2 rest := by
  induction n generalizing m k c with
  | zero =>
    obtain ⟨hbit, hrest⟩ := take_one_of_offers h
    cases m with
    | zero | succ m =>
      rw [unaryPrefix, if_pos (show _ = 0 from hbit)]
      exact ⟨rfl, hrest⟩
  | succ n ih =>
    obtain ⟨hbit, hrest⟩ := take_one_of_offers h
    cases m with
    | zero => omega
    | succ m =>
      rw [unaryPrefix, if_neg (by rw [hbit]; decide), show k + (n + 1) = k + 1 + n by omega]
      exact ih (by omega) hrest

/-! ## The sign map -/

theorem zigZag_deltaCode {f : Format} (hs : f.signBit = false) (d : Int) : zigZag (deltaCode f d) = d := by
  unfold zigZag deltaCode
  rw [hs, if_neg Bool.false_ne_true]
  by_cases hd : 0 ≤ d
  · rw [if_pos hd, if_pos (by omega)]
    omega
  · rw [if_neg hd, if_neg (by omega)]
    omega

/-- The sign map gives the delta back, from its code and the sign bit where one is written (46_delta_pixel.md
R256). -/
theorem signMap_deltaCode {f : Format} {e : Reader} {c : BitCursor} (d : Int)
    (h : Offers e c (if f.signBit ∧ deltaCode f d ≠ 0 then [decide (d < 0)] else [])) :
    (signMap f e (deltaCode f d) c).1 = d := by
  cases hs : f.signBit with
  | false => rw [signMap, hs, if_neg Bool.false_ne_true, zigZag_deltaCode hs]
  | true =>
    have hcode : deltaCode f d = d.natAbs := by rw [deltaCode, hs, if_pos rfl]
    rw [signMap, hs, if_pos rfl]
    by_cases h0 : deltaCode f d = 0
    · rw [if_pos h0]
      exact (Int.natAbs_eq_zero.mp (hcode ▸ h0)).symm
    · rw [if_pos ⟨hs, h0⟩] at h
      rw [if_neg h0]
      simp only [(take_one_of_offers h).1, hcode]
      by_cases hd : d < 0
      · rw [decide_eq_true hd, if_neg (by decide)]
        omega
      · rw [decide_eq_false hd, if_pos (show false.toNat = 0 from rfl)]
        omega

/-! ## Elements and pairs -/

theorem ofField_toField_predictor (p : Predictor) : Predictor.ofField p.toField = p := by cases p <;> rfl

theorem toField_predictor_lt (p : Predictor) : p.toField < 2 ^ 2 := by cases p <;> decide

/-- A magnitude code lies in the range of its one-bits (46_delta_pixel.md R255). -/
theorem prefixLen_bounds (u : Nat) : 2 ^ prefixLen u ≤ u + 1 ∧ u + 1 < 2 * 2 ^ prefixLen u := by
  have hlt := Nat.lt_log2_self (n := u + 1)
  rw [pow_succ] at hlt
  exact ⟨Nat.log2_self_le (by omega), by rw [prefixLen]; omega⟩

theorem fetchElem_encodeElem {f : Format} {e : Reader} {c : BitCursor} {x : DeltaElem} (ho : e.order = f.order)
    (hw : deltaWf f x.delta = true) (h : Offers e c (encodeElem f x)) : (fetchElem f e c).1 = .ok x := by
  have hlen := prefixLen_le f x.delta hw
  obtain ⟨hlow, hhigh⟩ := prefixLen_bounds (deltaCode f x.delta)
  simp only [encodeElem, ← ho, List.append_assoc, List.singleton_append] at h
  obtain ⟨hsel, h⟩ := take_of_offers h (toField_predictor_lt x.sel)
  obtain ⟨hpre, h⟩ := unaryPrefix_of_offers (m := Config.unaryMax) (k := 0) hlen h
  obtain ⟨hmag, h⟩ := take_of_offers h (by omega)
  have hcode : 2 ^ prefixLen (deltaCode f x.delta) - 1
      + (deltaCode f x.delta + 1 - 2 ^ prefixLen (deltaCode f x.delta)) = deltaCode f x.delta := by omega
  simp only [fetchElem, hpre, Nat.zero_add, hmag, hcode, hsel, ofField_toField_predictor,
    signMap_deltaCode x.delta h]

theorem length_encodeElem_le {f : Format} {x : DeltaElem} (hw : deltaWf f x.delta = true) :
    (encodeElem f x).length ≤ 20 := by
  have hlen := prefixLen_le f x.delta hw
  have hsign : (if f.signBit ∧ deltaCode f x.delta ≠ 0 then [decide (x.delta < 0)] else []).length ≤ 1 := by
    split <;> simp
  simp only [encodeElem, List.length_append, length_fieldBits, List.length_replicate, List.length_cons,
    List.length_nil]
  omega

theorem fetchPair_encodePair {f : Format} {e : Reader} {c : BitCursor} {p : AlphaPair} (ho : e.order = f.order)
    (h : Offers e c (encodePair f p)) : (fetchPair e c).1 = p := by
  rw [encodePair, ← ho] at h
  obtain ⟨hrun, h⟩ := take_of_offers h p.runm1.isLt
  rw [fetchPair, hrun, ofNat_take_of_byte h, BitVec.ofNat_toNat, BitVec.setWidth_eq]

/-- Settles O16: the selector, the unary code, the magnitude and the sign are each read back, and both bytes of a
pair. -/
theorem deltaCodeRoundTrip : Obligations.DeltaCodeRoundTrip := by
  refine ⟨fun f x hw => ?_, fun f p => ?_⟩
  · simp only [DeltaElem.toInstr, Instr.wf, Bool.and_eq_true, beq_iff_eq] at hw
    obtain ⟨hfam, hdelta⟩ := hw
    have hlen := length_encodeElem_le hdelta
    have hfetch := fetchElem_encodeElem rfl hdelta (offers_packedReader f (bits := encodeElem f x) (by omega))
    rw [DeltaElem.toInstr, encode, decode, decodeStream, hfam]
    simp only [hfetch]
    rfl
  · have hlen : (encodePair f p).length ≤ 64 := by simp [encodePair]
    exact congrArg (Except.ok ·.toInstr) (fetchPair_encodePair rfl (offers_packedReader f hlen))

end Sys2Proof.Machine
end

section
/-! PROOFS. The command words: which are illegal, and that decode and encode agree on the others (O8, O12, O13;
30_encoding.md R101, R102, R104). -/

namespace Sys2Proof.Machine

open Sys2Proof

/-! ## The fields of a command word -/

theorem field_low_eq (w n : Nat) : field w 0 n = w % 2 ^ n := by rw [field_eq, pow_zero, Nat.div_one]

theorem cmdWord_toNat {op arg : Nat} (hop : op < 256) (harg : arg < 256) :
    (cmdWord op arg).toNat = op + 256 * arg := by
  rw [cmdWord, BitVec.toNat_ofNat]
  omega

theorem fields_cmdWord {op arg : Nat} (hop : op < 256) (harg : arg < 256) :
    field (cmdWord op arg).toNat 16 16 = 0 ∧ field (cmdWord op arg).toNat 0 8 = op
      ∧ field (cmdWord op arg).toNat 8 8 = arg := by
  simp only [cmdWord_toNat hop harg, field_eq]
  omega

/-- A word with no upper bits is made of its opcode and its argument (30_encoding.md R101). -/
theorem cmdWord_of_fields {w : Word} (h : field w.toNat 16 16 = 0) :
    cmdWord (field w.toNat 0 8) (field w.toNat 8 8) = w := by
  have hw := w.isLt
  rw [field_eq] at h
  refine BitVec.eq_of_toNat_eq ?_
  simp only [cmdWord, field_eq, BitVec.toNat_ofNat]
  omega

theorem field_eight_lt (w lo : Nat) : field w lo 8 < 256 := Nat.mod_lt _ (by decide)

/-! ## The arguments: which are accepted, and as what -/

theorem plainCmd_error_iff {arg : Nat} {i : Instr} : (∃ e, plainCmd arg i = .error e) ↔ arg ≠ 0 := by
  unfold plainCmd
  split <;> simp_all

theorem countCmd_error_iff {arg : Nat} {i : BitVec 6 → Instr} (h : arg < 256) :
    (∃ e, countCmd arg i = .error e) ↔ arg / 64 ≠ 0 ∨ arg % 64 > 32 := by
  have hhigh : field arg 6 2 = arg / 64 := by rw [field_eq]; omega
  have hlow : field arg 0 6 = arg % 64 := field_low_eq arg 6
  rw [countCmd, hhigh, hlow]
  split_ifs <;> simp_all

theorem bcinitCmd_error_iff {arg : Nat} (h : arg < 256) :
    (∃ e, bcinitCmd arg = .error e) ↔ arg / 8 ≠ 0 ∨ arg / 2 % 4 = 3 := by
  have hhigh : field arg 3 5 = arg / 8 := by rw [field_eq]; omega
  have hwidth : field arg 1 2 = arg / 2 % 4 := by rw [field_eq]; omega
  have hnone : ∀ n < 4, RefillWidth.ofField n = none ↔ n = 3 := by decide
  have hw := hnone _ (Nat.mod_lt (arg / 2) (by decide))
  rw [bcinitCmd, hhigh, hwidth]
  split_ifs with hz
  · simp [hz]
  · split
    case h_1 hr => simp [hw.mp hr]
    case h_2 r hr =>
      have hlegal : arg / 2 % 4 ≠ 3 := fun h3 => Option.some_ne_none r (hr.symm.trans (hw.mpr h3))
      simp [hz, hlegal]

theorem decodeArgCmd_error_iff {arg : Nat} (h : arg < 256) :
    (∃ e, decodeArgCmd arg = .error e) ↔ arg / 4 ≠ 0 := by
  have hhigh : field arg 2 6 = arg / 4 := by rw [field_eq]; omega
  rw [decodeArgCmd, hhigh]
  split_ifs <;> simp_all

theorem keygenCmd_error_iff {arg : Nat} (h : arg < 256) :
    (∃ e, keygenCmd arg = .error e) ↔ arg / 2 ≠ 0 := by
  have hhigh : field arg 1 7 = arg / 2 := by rw [field_eq]; omega
  rw [keygenCmd, hhigh]
  by_cases hz : arg / 2 = 0 <;> simp [hz]

/-! ## Illegal words -/

/-- The words without a meaning are those of the list of 30_encoding.md R104. -/
theorem decodeCmd_error_iff (w : Word) : (∃ e, decodeCmd w = .error e) ↔ illegalWord w := by
  have hw := w.isLt
  have hupper : field w.toNat 16 16 = w.toNat / 65536 := by rw [field_eq]; omega
  have hop : field w.toNat 0 8 = w.toNat % 256 := field_low_eq _ 8
  have harg : field w.toNat 8 8 = w.toNat / 256 % 256 := field_eq _ 8 8
  unfold decodeCmd illegalWord
  rw [hupper, hop, harg]
  by_cases hz : w.toNat / 65536 = 0
  · have hlt : w.toNat / 256 % 256 < 256 := Nat.mod_lt _ (by decide)
    rw [if_neg (not_not_intro hz)]
    generalize w.toNat / 256 % 256 = arg at hlt ⊢
    generalize w.toNat % 256 = op
    split
    case h_4 => simp [hz, bcinitCmd_error_iff hlt, definedOpcodes, plainOpcodes]
    case h_5 | h_6 => simp [hz, countCmd_error_iff hlt, definedOpcodes, plainOpcodes]
    case h_9 => simp [hz, decodeArgCmd_error_iff hlt, definedOpcodes, plainOpcodes]
    case h_11 => simp [hz, keygenCmd_error_iff hlt, definedOpcodes, plainOpcodes]
    case h_14 => simp_all [definedOpcodes]
    all_goals simp [hz, plainCmd_error_iff, definedOpcodes, plainOpcodes]
  · simp [hz]

/-- A `CMD` write of a word without a meaning raises from the prologue's state (30_encoding.md R104,
40_commands.md R132). -/
theorem step_of_decodeCmd_error {s : State} {w : Word} {rest : List HostMove} {e : DecodeError}
    (hw : writesCmd s w rest) (herr : s.status.err = false) (he : decodeCmd w = .error e) :
    step s = raisesOnly (prologueState s w rest) 6 := by
  have hcmd : regAt 0x000 = some .cmd := rfl
  rw [step, nextMove_cons s _ rest hw]
  simp only [hostMove, hostWriteReg, hcmd, startCommand, herr, commandAccepted, he]
  rfl

/-- Settles O8: row by row of the opcode map, and by the prologue. -/
theorem illegalCommandWordsRaise : Obligations.IllegalCommandWordsRaise := by
  refine fun w => ⟨decodeCmd_error_iff w, fun s rest hw herr hill => ?_⟩
  obtain ⟨e, he⟩ := (decodeCmd_error_iff w).mpr hill
  exact step_of_decodeCmd_error hw herr he

end Sys2Proof.Machine
end

section
/-! PROOFS. The micro-operation words: which are illegal, that decode and encode agree on the others, and what
program the slots hold (O52; 30_encoding.md R112, R113; 48_lane_transform.md R312). -/

namespace Sys2Proof.Machine

open Sys2Proof

/-! ## The fields of a slot word -/

theorem toField_laneWidth_lt (w : LaneWidth) : w.toField < 4 := by cases w <;> decide

theorem ofField_toField_laneWidth (w : LaneWidth) : LaneWidth.ofField w.toField = w := by cases w <;> rfl

theorem toField_ofField_laneWidth {n : Nat} (h : n < 4) : (LaneWidth.ofField n).toField = n := by
  interval_cases n <;> rfl

theorem lopWord_toNat {op : Nat} (hop : op < 4) (w : LaneWidth) (d r : Fin 8) :
    (lopWord op w d r).toNat = op * 8192 + w.toField * 2048 + d.val * 256 + r.val * 32 := by
  have := toField_laneWidth_lt w
  rw [lopWord, BitVec.toNat_ofNat]
  omega

/-- A micro-operation word holds its fields, and nothing below them (30_encoding.md R112). -/
theorem fields_lopWord {op : Nat} (hop : op < 4) (w : LaneWidth) (d r : Fin 8) :
    field (lopWord op w d r).toNat 13 3 = op ∧ field (lopWord op w d r).toNat 11 2 = w.toField
      ∧ field (lopWord op w d r).toNat 8 3 = d.val ∧ field (lopWord op w d r).toNat 5 3 = r.val
      ∧ field (lopWord op w d r).toNat 0 5 = 0 := by
  have := toField_laneWidth_lt w
  simp only [lopWord_toNat hop, field_eq]
  omega

/-- A word with nothing below its fields is made of them (30_encoding.md R112). -/
theorem lopWord_of_fields {x : BitVec 16} (h : field x.toNat 0 5 = 0) :
    lopWord (field x.toNat 13 3) (LaneWidth.ofField (field x.toNat 11 2)) (Fin.ofNat 8 (field x.toNat 8 3))
      (Fin.ofNat 8 (field x.toNat 5 3)) = x := by
  have hx := x.isLt
  have hlw : field x.toNat 11 2 < 4 := Nat.mod_lt _ (by decide)
  rw [field_low_eq] at h
  refine BitVec.eq_of_toNat_eq ?_
  rw [lopWord, toField_ofField_laneWidth hlw]
  simp only [field_eq, Fin.ofNat, BitVec.toNat_ofNat]
  omega

theorem lopWord_ne_zero {op : Nat} (hop : op < 4) (h0 : op ≠ 0) (w : LaneWidth) (d r : Fin 8) :
    lopWord op w d r ≠ 0 := by
  intro hz
  have := lopWord_toNat hop w d r
  rw [hz] at this
  simp at this
  omega

/-! ## Words with a meaning -/

theorem decodeLop_zero : decodeLop 0 = .ok .stop := rfl

/-- What decodes is what it encodes (30_encoding.md R112). -/
theorem encodeLop_of_decodeLop {x : BitVec 16} {o : LaneOp} (h : decodeLop x = .ok o) : encodeLop o = x := by
  unfold decodeLop at h
  split_ifs at h with hz hop hlow
  · cases h
    exact hz.symm
  · have hx := lopWord_of_fields (not_not.mp hlow)
    split at h <;> cases h
    case h_1 hop | h_2 hop | h_3 hop =>
      rw [hop] at hx
      exact hx

theorem decodeLop_encodeLop (o : LaneOp) : decodeLop (encodeLop o) = .ok o := by
  cases o with
  | stop => rfl
  | add w d r | sub w d r | xor w d r =>
    rw [encodeLop, decodeLop, if_neg (lopWord_ne_zero (by decide) (by decide) w d r)]
    simp [fields_lopWord, ofField_toField_laneWidth]

/-- The words without a meaning are those of the list of 30_encoding.md R113. -/
theorem decodeLop_error_iff (x : BitVec 16) : (∃ e, decodeLop x = .error e) ↔ illegalSlotWord x := by
  have hx := x.isLt
  have hop : field x.toNat 13 3 = x.toNat / 8192 := by rw [field_eq]; omega
  have hlow : field x.toNat 0 5 = x.toNat % 32 := field_low_eq _ 5
  unfold decodeLop illegalSlotWord
  rw [hop, hlow]
  split_ifs with hz hhigh hbits
  · simp [hz]
  · simp [show 4 ≤ x.toNat / 8192 from hhigh]
  · simp [hbits]
  · split
    case h_4 h1 h2 h3 =>
      have h0 : x.toNat / 8192 = 0 := by
        have : x.toNat / 8192 ≠ 1 ∧ x.toNat / 8192 ≠ 2 ∧ x.toNat / 8192 ≠ 3 := ⟨h1, h2, h3⟩
        omega
      exact iff_of_true ⟨_, rfl⟩ (.inr (.inr ⟨h0, hz⟩))
    case h_1 h | h_2 h | h_3 h => simp [h, not_not.mp hbits]

theorem decodeLop_eq_stop_iff (x : BitVec 16) : decodeLop x = .ok .stop ↔ x = 0 :=
  ⟨fun h => (encodeLop_of_decodeLop h).symm, fun h => h ▸ decodeLop_zero⟩

/-! ## Programs -/

theorem lopProgram_of_error {x : BitVec 16} {e : DecodeError} (h : decodeLop x = .error e)
    (xs : List (BitVec 16)) : lopProgram (x :: xs) = .error e := by
  rw [lopProgram, h]

theorem lopProgram_of_zero (xs : List (BitVec 16)) : lopProgram (0 :: xs) = .ok [] := rfl

theorem lopProgram_of_op {x : BitVec 16} {o : LaneOp} (h : decodeLop x = .ok o) (hx : x ≠ 0)
    (xs : List (BitVec 16)) : lopProgram (x :: xs) = (lopProgram xs).map (o :: ·) := by
  cases o with
  | stop => exact absurd ((decodeLop_eq_stop_iff x).mp h) hx
  | add w d r | sub w d r | xor w d r =>
    rw [lopProgram, h]
    cases lopProgram xs <;> rfl

/-- The words before the first END: the only ones a program depends on (30_encoding.md R113). -/
def liveSlots (xs : List (BitVec 16)) : List (BitVec 16) := xs.takeWhile (fun x => x ≠ 0)

theorem liveSlots_zero (xs : List (BitVec 16)) : liveSlots (0 :: xs) = [] := rfl

theorem liveSlots_cons {x : BitVec 16} (hx : x ≠ 0) (xs : List (BitVec 16)) :
    liveSlots (x :: xs) = x :: liveSlots xs :=
  List.takeWhile_cons_of_pos (decide_eq_true hx)

/-- A program is refused exactly where a slot up to its first END is illegal (30_encoding.md R113). -/
theorem lopProgram_error_iff (xs : List (BitVec 16)) :
    (∃ e, lopProgram xs = .error e) ↔ ∃ x ∈ liveSlots xs, illegalSlotWord x := by
  induction xs with
  | nil => simp [lopProgram, liveSlots]
  | cons x xs ih =>
    by_cases hx : x = 0
    · subst hx
      rw [lopProgram_of_zero, liveSlots_zero]
      simp
    · rw [liveSlots_cons hx, List.exists_mem_cons_iff, ← ih, ← decodeLop_error_iff]
      cases h : decodeLop x with
      | error e => simp [lopProgram_of_error h]
      | ok o =>
        rw [lopProgram_of_op h hx]
        cases lopProgram xs <;> simp [Except.map]

/-- The operations of a program are those of the slots before its first END (48_lane_transform.md R312). -/
theorem map_encodeLop_of_lopProgram {xs : List (BitVec 16)} {os : List LaneOp} (h : lopProgram xs = .ok os) :
    os.map encodeLop = liveSlots xs := by
  induction xs generalizing os with
  | nil =>
    cases h
    rfl
  | cons x xs ih =>
    by_cases hx : x = 0
    · subst hx
      cases h
      exact (liveSlots_zero xs).symm
    · cases hd : decodeLop x with
      | error e =>
        rw [lopProgram_of_error hd] at h
        cases h
      | ok o =>
        rw [lopProgram_of_op hd hx] at h
        cases hrest : lopProgram xs with
        | error e =>
          rw [hrest] at h
          cases h
        | ok os' =>
          rw [hrest] at h
          cases h
          rw [List.map_cons, encodeLop_of_decodeLop hd, ih hrest, liveSlots_cons hx]

/-- LANE refuses an illegal program whatever else is configured (48_lane_transform.md R313). -/
theorem exec_lane_of_lopProgram_error {s : State} {e : DecodeError} (h : lopProgram (lopSlots s) = .error e) :
    exec .lane s = raisesOnly s 6 := by
  show execLane s = _
  rw [execLane, h]
  split <;> rfl

/-- Settles O52: the words, the program up to its first END, the places of the eight slots, and LANE. -/
theorem illegalMicroOpsAreRefused : Obligations.IllegalMicroOpsAreRefused := by
  refine ⟨decodeLop_error_iff, fun xs => ⟨lopProgram_error_iff xs, fun os => map_encodeLop_of_lopProgram⟩,
    fun s i => ?_, fun s hill => ?_⟩
  · fin_cases i <;> exact ⟨rfl, rfl⟩
  · obtain ⟨e, he⟩ := (lopProgram_error_iff (lopSlots s)).mpr hill
    exact exec_lane_of_lopProgram_error he

end Sys2Proof.Machine
end

section
/-! PROOFS. Decode and encode agree on the command words and the micro-operation words, in both directions (O12,
O13; 30_encoding.md R101, R102, R112). -/

namespace Sys2Proof.Machine

open Sys2Proof

/-! ## From a word to its instruction and back -/

/-- The instruction has an encoding, the command word with this opcode and this argument (30_encoding.md
R101). -/
def EncodesAs (f : Format) (i : Instr) (op arg : Nat) : Prop :=
  i.wf f = true ∧ encode f i = .cmd (cmdWord op arg)

theorem encodesAs_of_plainCmd {f : Format} {op arg : Nat} {i j : Instr} (hi : EncodesAs f i op 0)
    (h : plainCmd arg i = .ok j) : EncodesAs f j op arg := by
  unfold plainCmd at h
  split at h
  case isTrue h0 =>
    cases h
    exact h0 ▸ hi
  case isFalse => cases h

theorem encodesAs_of_countCmd {f : Format} {op arg : Nat} {i : BitVec 6 → Instr} {j : Instr} (harg : arg < 256)
    (hi : ∀ n : BitVec 6, n.toNat ≤ 32 → EncodesAs f (i n) op n.toNat) (h : countCmd arg i = .ok j) :
    EncodesAs f j op arg := by
  unfold countCmd at h
  split_ifs at h with hhigh hcount
  cases h
  rw [not_not, field_eq] at hhigh
  rw [field_low_eq] at hcount
  have hn : (BitVec.ofNat 6 (field arg 0 6)).toNat = arg := by
    rw [BitVec.toNat_ofNat, field_low_eq]
    omega
  have := hi (BitVec.ofNat 6 (field arg 0 6)) (by omega)
  rwa [hn] at this

theorem encodesAs_of_bcinitCmd {f : Format} {arg : Nat} {j : Instr} (harg : arg < 256)
    (h : bcinitCmd arg = .ok j) : EncodesAs f j 0x10 arg := by
  unfold bcinitCmd at h
  split at h
  · cases h
  case isFalse hhigh =>
    rw [not_not, field_eq] at hhigh
    split at h
    · cases h
    case h_2 r hr =>
      cases h
      have hwidth := toField_of_refillField hr
      have horder : (BitOrder.ofBit (field arg 0 1 == 1)).toField = arg % 2 := by
        rw [toField_ofBit, field_low_eq]
        exact toNat_mod_two_beq_one arg
      refine ⟨rfl, ?_⟩
      rw [encode, hwidth, horder, field_eq]
      congr 2
      omega

theorem encodesAs_of_decodeArgCmd {f : Format} {arg : Nat} {j : Instr} (harg : arg < 256)
    (h : decodeArgCmd arg = .ok j) : EncodesAs f j 0x20 arg := by
  unfold decodeArgCmd at h
  split_ifs at h with hhigh
  cases h
  rw [not_not, field_eq] at hhigh
  have hv : (Fin.ofNat 4 (field arg 0 2)).val = arg := by
    rw [field_low_eq]
    simp only [Fin.ofNat]
    omega
  exact ⟨rfl, congrArg (fun n => Encoded.cmd (cmdWord 0x20 n)) hv⟩

theorem encodesAs_of_keygenCmd {f : Format} {arg : Nat} {j : Instr} (harg : arg < 256)
    (h : keygenCmd arg = .ok j) : EncodesAs f j 0x30 arg := by
  unfold keygenCmd at h
  by_cases hhigh : field arg 1 7 ≠ 0
  · rw [if_pos hhigh] at h
    cases h
  · rw [if_neg hhigh, field_low_eq] at h
    rw [not_not, field_eq] at hhigh
    cases h
    obtain rfl | rfl : arg = 0 ∨ arg = 1 := by omega
    · exact ⟨rfl, rfl⟩
    · exact ⟨rfl, rfl⟩

/-- A command word that decodes is its instruction's encoding (30_encoding.md R101, R102). -/
theorem encode_of_decodeCmd (f : Format) {w : Word} {i : Instr} (h : decodeCmd w = .ok i) :
    i.wf f = true ∧ encode f i = .cmd w := by
  unfold decodeCmd at h
  split at h
  · cases h
  case isFalse hupper =>
    suffices hrow : EncodesAs f i (field w.toNat 0 8) (field w.toNat 8 8) by
      rwa [EncodesAs, cmdWord_of_fields (not_not.mp hupper)] at hrow
    have harg := field_eight_lt w.toNat 8
    generalize field w.toNat 8 8 = arg at h harg ⊢
    generalize field w.toNat 0 8 = op at h ⊢
    have hcount : ∀ n : BitVec 6, n.toNat ≤ 32 →
        EncodesAs f (.bcpeek n) 0x11 n.toNat ∧ EncodesAs f (.bctake n) 0x12 n.toNat :=
      fun n hn => ⟨⟨decide_eq_true hn, rfl⟩, ⟨decide_eq_true hn, rfl⟩⟩
    split at h
    case h_4 => exact encodesAs_of_bcinitCmd harg h
    case h_5 => exact encodesAs_of_countCmd harg (fun n hn => (hcount n hn).1) h
    case h_6 => exact encodesAs_of_countCmd harg (fun n hn => (hcount n hn).2) h
    case h_9 => exact encodesAs_of_decodeArgCmd harg h
    case h_11 => exact encodesAs_of_keygenCmd harg h
    case h_14 => cases h
    all_goals exact encodesAs_of_plainCmd ⟨rfl, rfl⟩ h

theorem encode_toInstr (f : Format) (o : LaneOp) : encode f o.toInstr = .lop (encodeLop o) := by
  cases o <;> rfl

/-- Settles O13: row by row of the opcode map, and by the fields of a slot word. -/
theorem decodedWordsEncodeBack : Obligations.DecodedWordsEncodeBack := by
  refine ⟨fun f w i h => ⟨isCommand_of_decodeCmd h, encode_of_decodeCmd f h⟩, fun f x o h => ?_⟩
  rw [encode_toInstr, encodeLop_of_decodeLop h]

/-! ## From an instruction to its word and back -/

/-- The bit count of BCPEEK and BCTAKE is read back from its argument (30_encoding.md R102). -/
theorem countCmd_toNat {n : BitVec 6} (i : BitVec 6 → Instr) (hn : n.toNat ≤ 32) :
    countCmd n.toNat i = .ok (i n) := by
  have hlow : field n.toNat 0 6 = n.toNat := by rw [field_low_eq]; omega
  rw [countCmd, hlow, if_neg (by rw [field_eq]; omega), if_neg (by omega), BitVec.ofNat_toNat,
    BitVec.setWidth_eq]

theorem decodeCmd_cmdWord_count {n : BitVec 6} (hn : n.toNat ≤ 32) :
    decodeCmd (cmdWord 0x11 n.toNat) = .ok (.bcpeek n)
      ∧ decodeCmd (cmdWord 0x12 n.toNat) = .ok (.bctake n) := by
  have hpeek := fields_cmdWord (op := 0x11) (arg := n.toNat) (by decide) (by omega)
  have htake := fields_cmdWord (op := 0x12) (arg := n.toNat) (by decide) (by omega)
  constructor
  · simp [decodeCmd, hpeek, countCmd_toNat _ hn]
  · simp [decodeCmd, htake, countCmd_toNat _ hn]

/-- Decoding the word of a command gives the command back (30_encoding.md R102). -/
theorem decode_encode_command {f : Format} {i : Instr} (hi : isCommand i = true) (hw : i.wf f = true) :
    decode f (encode f i) = .ok i := by
  cases i with
  | bcinit o r => cases o <;> cases r <;> rfl
  | bcpeek n => exact (decodeCmd_cmdWord_count (of_decide_eq_true hw)).1
  | bctake n => exact (decodeCmd_cmdWord_count (of_decide_eq_true hw)).2
  | decode v => fin_cases v <;> rfl
  | keygen t => cases t <;> rfl
  | nop | clear | sreset | bcalign | ocopy | probe | cipher | lane => rfl
  | _ => cases hi

/-- Decoding the word of a micro-operation gives it back (30_encoding.md R112). -/
theorem decode_encode_toInstr (f : Format) (o : LaneOp) : decode f (encode f o.toInstr) = .ok o.toInstr := by
  rw [encode_toInstr, decode, decodeLop_encodeLop]

theorem exists_laneOp_of_isMicroOp {i : Instr} (h : isMicroOp i = true) : ∃ o : LaneOp, i = o.toInstr := by
  cases i with
  | lopEnd => exact ⟨.stop, rfl⟩
  | lopAdd w d r => exact ⟨.add w d r, rfl⟩
  | lopSub w d r => exact ⟨.sub w d r, rfl⟩
  | lopXor w d r => exact ⟨.xor w d r, rfl⟩
  | _ => cases h

/-- Settles O12: command by command, and by the fields of a slot word. -/
theorem commandAndMicroOpRoundTrip : Obligations.CommandAndMicroOpRoundTrip := by
  intro f i hi hw
  obtain hcmd | hlop := hi
  · exact decode_encode_command hcmd hw
  · obtain ⟨o, rfl⟩ := exists_laneOp_of_isMicroOp hlop
    exact decode_encode_toInstr f o

end Sys2Proof.Machine
end

section
/-! PROOFS. The fuel of a decode never ends it (O31; 40_commands.md R135): an iteration that emits moves `OPOS`
up, and there is an `OPOS` at which the loop stops, at most `OUT_LEN`. -/

namespace Sys2Proof.Machine

open Sys2Proof

/-! ## Emitting tokens advance `OPOS` -/

/-- Where output was emitted, `OPOS` stands above its place in `s` (40_commands.md R135). -/
def Advances (s : State) (r : TokenEnd) : Prop := ∀ t, r = .emitted t → s.opos.toNat < t.opos.toNat

theorem advances_raised (s : State) (e : Exc) (u : State) : Advances s (.raised e u) := nofun

theorem advances_ended (s u : State) : Advances s (.ended u) := nofun

/-- An advance that does not leave the 32-bit range of `OPOS`. -/
theorem advances_emitted {s u : State} {n : Nat} (hn : 0 < n) (hle : s.opos.toNat + n < 2 ^ 32)
    (hu : u.opos = s.opos + BitVec.ofNat 32 n) : Advances s (.emitted u) := by
  intro t ht
  injection ht with ht
  subst ht
  rw [hu, BitVec.toNat_add, BitVec.toNat_ofNat]
  omega

/-- Reading the stream leaves `OPOS` where it stands. -/
theorem Advances.of_withCursor {s : State} {c : BitCursor} {r : TokenEnd} (h : Advances (withCursor s c) r) :
    Advances s r := h

theorem Advances.afterHeader {s : State} {r : TokenEnd} (h : Advances s r) :
    Advances s (afterHeader s r) := by
  obtain ⟨_, hr⟩ | ⟨_, hr⟩ := afterHeader_cases s r
  · rw [hr]; exact advances_raised s _ s
  · rwa [hr]

theorem advances_emitBytes {bs : List Byte} (hbs : bs ≠ []) (s : State) :
    Advances s (emitBytes bs s) := by
  obtain ⟨hle, hr⟩ | ⟨_, hr⟩ := emitBytes_cases bs s
  · rw [hr]; exact advances_emitted (List.length_pos_of_ne_nil hbs) (by omega) rfl
  · rw [hr]; exact advances_raised s _ s

theorem advances_emitFill {unit : List Byte} (hunit : unit ≠ []) (count : Nat) (s : State) :
    Advances s (emitFill unit count s) := by
  obtain ⟨_, hr⟩ | ⟨hcount, hr⟩ := emitFill_cases unit count s
  · rw [hr]; exact advances_raised s _ s
  · rw [hr]
    refine advances_emitBytes (List.ne_nil_of_length_pos ?_) s
    rw [length_flatten_replicate]
    exact Nat.mul_pos (Nat.pos_of_ne_zero hcount) (List.length_pos_of_ne_nil hunit)

theorem advances_emitCopy (offset length : Nat) (s : State) : Advances s (emitCopy offset length s) := by
  obtain ⟨_, hr⟩ | ⟨_, _, hr⟩ | ⟨hlen, _, _, hle, hr⟩ := emitCopy_cases offset length s
  · rw [hr]; exact advances_raised s _ s
  · rw [hr]; exact advances_raised s _ s
  · rw [hr]; exact advances_emitted (Nat.pos_of_ne_zero hlen) (by omega) rfl

theorem length_takeBytes (e : Reader) (n : Nat) (c : BitCursor) : (takeBytes e n c).1.length = n := by
  induction n generalizing c with
  | zero => rfl
  | succ n ih => exact congrArg (· + 1) (ih _)

theorem advances_emitPayload {n : Nat} (hn : 0 < n) (s : State) : Advances s (emitPayload n s) := by
  unfold emitPayload
  split
  · exact advances_raised s _ s
  · refine Advances.of_withCursor (advances_emitBytes (List.ne_nil_of_length_pos ?_) _)
    rwa [length_takeBytes]

theorem advances_bytLitrun (count : BitVec 16) (s : State) : Advances s (bytLitrun count s) := by
  refine Advances.afterHeader ?_
  split_ifs with hcount
  · exact advances_raised s _ s
  · exact advances_emitPayload (Nat.pos_of_ne_zero fun h => hcount (BitVec.eq_of_toNat_eq h)) s
  · exact advances_raised s _ s
  · exact advances_raised s _ s

theorem advances_pfxRun (t : PfxToken) (s : State) : Advances s (pfxRun t s) := by
  cases t with
  | lit v => exact (advances_emitBytes (List.cons_ne_nil _ _) s).afterHeader
  | run2 v => exact (advances_emitFill (List.cons_ne_nil _ _) _ s).afterHeader
  | run3 v => exact (advances_emitFill (List.cons_ne_nil _ _) _ s).afterHeader
  | copy o l form => exact (advances_emitCopy _ _ s).afterHeader
  | term => exact advances_ended s _

theorem advances_bytRun (t : BytToken) (s : State) : Advances s (bytRun t s) := by
  cases t with
  | term => exact advances_ended s _
  | litrun n form => exact advances_bytLitrun n s
  | fillb n form v => exact (advances_emitFill (List.cons_ne_nil _ _) _ s).afterHeader
  | fillw n form u0 u1 => exact (advances_emitFill (List.cons_ne_nil _ _) _ s).afterHeader
  | copys l form o => exact (advances_emitCopy _ _ s).afterHeader
  | copyl l form o => exact (advances_emitCopy _ _ s).afterHeader

theorem advances_dpxElem {s : State} (h : s.opos.toNat + 1 < 2 ^ 32) (sel : Predictor) (delta : Int) :
    Advances s (dpxElem sel delta s) := by
  refine Advances.afterHeader ?_
  split_ifs
  · exact advances_emitted Nat.one_pos h rfl
  · exact advances_raised s _ s

/-- The runs of the alpha pass end at sample `4·T`, wherever `OPOS` stands at its start (46_delta_pixel.md
R260). -/
theorem advances_dpxApair {s : State} (h : 4 * pixelCount s < 2 ^ 32) (runm1 value : Byte) :
    Advances s (dpxApair runm1 value s) := by
  refine Advances.afterHeader ?_
  split_ifs with hrun
  · have hfits : s.opos.toNat - 3 * pixelCount s + (runm1.toNat + 1) ≤ pixelCount s := hrun.1
    exact advances_emitted (Nat.succ_pos _) (by omega) rfl
  · exact advances_raised s _ s

/-! ## One iteration -/

theorem advances_undefinedCode (s : State) : Advances s (undefinedCode s) :=
  Advances.afterHeader (advances_raised s _ s)

theorem advances_pfxStep (f : Format) (s : State) : Advances s (pfxStep f s) := by
  unfold pfxStep pfxFetched
  split
  · exact (advances_undefinedCode _).of_withCursor
  · exact (advances_pfxRun _ _).of_withCursor

theorem advances_bytStep (f : Format) (s : State) : Advances s (bytStep f s) :=
  (advances_bytRun _ _).of_withCursor

theorem advances_elemStep (f : Format) {s : State} (h : s.opos.toNat + 1 < 2 ^ 32) :
    Advances s (elemStep f s) := by
  unfold elemStep elemFetched
  split
  · exact (advances_undefinedCode _).of_withCursor
  · refine Advances.of_withCursor (advances_dpxElem ?_ _ _)
    exact h

theorem advances_pairStep (f : Format) {s : State} (h : 4 * pixelCount s < 2 ^ 32) :
    Advances s (pairStep f s) := by
  refine Advances.of_withCursor (advances_dpxApair ?_ _ _)
  exact h

/-! ## The fuel of a loop -/

theorem IterationActs.reaches_of_emitted {body : State → TokenEnd} (hbody : IterationActs body) {s t : State}
    (h : body s = .emitted t) : DecodeReaches s t := by
  obtain ⟨c, hacts⟩ := hbody s
  rw [h] at hacts
  cases hacts with | emitted m p hm =>
  exact .intro s.status.early c p m hm

/-- In every state reached from `s` with more to do, `OPOS` stands below `limit` and the iteration advances
it. -/
def ClimbsTo (limit : Nat) (more : State → Bool) (body : State → TokenEnd) (s : State) : Prop :=
  ∀ t, DecodeReaches s t → more t = true → t.opos.toNat < limit ∧ Advances t (body t)

theorem ClimbsTo.from_reached {limit : Nat} {more : State → Bool} {body : State → TokenEnd} {s t : State}
    (h : ClimbsTo limit more body s) (hst : DecodeReaches s t) : ClimbsTo limit more body t :=
  fun u htu => h u (hst.trans htu)

/-- Any two amounts of fuel above what `OPOS` has left to climb end the loop alike. -/
theorem decodeLoop_eq_of_climbsTo {limit : Nat} {more : State → Bool} {body : State → TokenEnd}
    (hbody : IterationActs body) {n k : Nat} {s : State} (h : ClimbsTo limit more body s)
    (hn : limit - s.opos.toNat < n) (hk : limit - s.opos.toNat < k) :
    decodeLoop more body n s = decodeLoop more body k s := by
  induction n generalizing k s with
  | zero => omega
  | succ n ih =>
    obtain _ | k := k
    · omega
    rw [decodeLoop, decodeLoop]
    split
    case isFalse => rfl
    case isTrue hmore =>
      obtain ⟨hlt, hadv⟩ := h s (.refl s) hmore
      cases hr : body s with
      | emitted t =>
        have hup := hadv t hr
        exact ih (h.from_reached (hbody.reaches_of_emitted hr)) (by omega) (by omega)
      | ended t => rfl
      | raised e t => rfl

/-- A loop that climbs no further than `OUT_LEN` has fuel enough (40_commands.md R135). -/
theorem decodeLoop_fuel {limit : Nat} {more : State → Bool} {body : State → TokenEnd}
    (hbody : IterationActs body) {n : Nat} {s : State} (h : ClimbsTo limit more body s)
    (hlimit : limit ≤ s.outLen.toNat) (hn : decodeFuel s ≤ n) :
    decodeLoop more body n s = decodeLoop more body (decodeFuel s) s := by
  unfold decodeFuel at hn ⊢
  exact decodeLoop_eq_of_climbsTo hbody h (by omega) (by omega)

/-! ## The loops of a decode -/

theorem climbsTo_moreOutput {body : State → TokenEnd} (hadv : ∀ s, Advances s (body s)) (s : State) :
    ClimbsTo s.outLen.toNat moreOutput body s := by
  intro t hst hmore
  rw [moreOutput_iff, hst.config.1] at hmore
  exact ⟨hmore, hadv t⟩

/-- A decode leaves the geometry of the image as it is. -/
theorem DecodeReaches.geometry {s t : State} (h : DecodeReaches s t) :
    pixelCount t = pixelCount s ∧ deltaColumns t = deltaColumns s := by
  cases h
  exact ⟨rfl, rfl⟩

/-- The delta pass writes no more samples than the image has (46_delta_pixel.md R250, R251). -/
theorem deltaSamples_le_outLen {s : State} (h : imageLegal s) :
    pixelCount s * deltaColumns s ≤ s.outLen.toNat := by
  obtain ⟨_, _, halpha, hlen⟩ := h
  have hcols : deltaColumns s ≤ dpChannels s := by
    unfold deltaColumns
    split
    case isTrue ha => rw [halpha ha]; decide
    case isFalse => exact le_refl _
  rw [hlen]
  exact Nat.mul_le_mul_left _ hcols

/-- With alpha the image has four samples a pixel (46_delta_pixel.md R250, R260). -/
theorem alphaSamples_eq_outLen {s : State} (h : imageLegal s) (ha : dpAlpha s = true) :
    4 * pixelCount s = s.outLen.toNat := by
  obtain ⟨_, _, halpha, hlen⟩ := h
  rw [hlen, halpha ha, pixelCount, Nat.mul_comm]

theorem climbsTo_moreElems {s : State} (h : imageLegal s) (f : Format) :
    ClimbsTo (pixelCount s * deltaColumns s) moreElems (elemStep f) s := by
  intro t hst hmore
  obtain ⟨hpix, hcols⟩ := hst.geometry
  have hlt : t.opos.toNat < pixelCount t * deltaColumns t := of_decide_eq_true hmore
  rw [hpix, hcols] at hlt
  have hle := deltaSamples_le_outLen h
  have hrange := s.outLen.isLt
  exact ⟨hlt, advances_elemStep f (by omega)⟩

theorem climbsTo_morePairs {s : State} (h : imageLegal s) (ha : dpAlpha s = true) (f : Format) :
    ClimbsTo (4 * pixelCount s) morePairs (pairStep f) s := by
  intro t hst hmore
  obtain ⟨hpix, _⟩ := hst.geometry
  have hlt : t.opos.toNat - 3 * pixelCount t < pixelCount t := of_decide_eq_true hmore
  have hlen := alphaSamples_eq_outLen h ha
  have hrange := s.outLen.isLt
  exact ⟨by omega, advances_pairStep f (by omega)⟩

/-- Settles O31: each loop climbs to a bound that is at most `OUT_LEN`. -/
theorem fuelNeverEndsADecode : Obligations.FuelNeverEndsADecode := by
  intro f s n hn
  refine ⟨?_, ?_, fun himage => ⟨?_, fun ha => ?_⟩⟩
  · exact decodeLoop_fuel (iterationActs_pfxStep f) (climbsTo_moreOutput (advances_pfxStep f) s) (le_refl _) hn
  · exact decodeLoop_fuel (iterationActs_bytStep f) (climbsTo_moreOutput (advances_bytStep f) s) (le_refl _) hn
  · exact decodeLoop_fuel (iterationActs_elemStep f) (climbsTo_moreElems himage f)
      (deltaSamples_le_outLen himage) hn
  · exact decodeLoop_fuel (iterationActs_pairStep f) (climbsTo_morePairs himage ha f)
      (alphaSamples_eq_outLen himage ha).le hn

end Sys2Proof.Machine
end

section
/-! PROOFS. The host's moves item by item, and what a `CMD` write runs (O4, O7, O10, O11, O55; 40_commands.md
R131, R132, R135 to R137, R139). -/

namespace Sys2Proof.Machine

open Sys2Proof

/-! ## The host's moves -/

/-- A step performs the first pending move from the state without it (40_commands.md R131). -/
theorem step_of_hostMove_settled {s t : State} {m : HostMove} {rest : List HostMove} (hs : s.host = m :: rest)
    (hm : hostMove m { s with host := rest } = .settled t) : step s = .next t := by
  rw [step, nextMove_cons s m rest hs, hm]

theorem step_of_hostMove_run {s t : State} {i : Instr} {m : HostMove} {rest : List HostMove}
    (hs : s.host = m :: rest) (hm : hostMove m { s with host := rest } = .run i t) : step s = exec i t := by
  rw [step, nextMove_cons s m rest hs, hm]

/-- With no move pending the machine waits (70_reset_and_hazards.md R371). -/
theorem step_of_host_nil {s : State} (h : s.host = []) : step s = .next s := by
  rw [step, nextMove_nil s h]

/-- No register shows the host's pending moves. -/
theorem readReg_host (s : State) (rest : List HostMove) (r : Reg) :
    readReg { s with host := rest } r = readReg s r := by
  cases r <;> rfl

theorem hostMove_readReg {o : BitVec 12} {r : Reg} (ho : regAt o = some r) (s : State) :
    hostMove (.readReg o) s = .settled { s with busData := readReg s r } := by
  simp only [hostMove, hostReadReg, ho]

theorem stored_write (sp : Space) (m : Memory) (a : Nat) (b : Byte) :
    stored sp (m.write a b) m a 1 (fun _ => b) := by
  intro x
  rw [Memory.read_write]
  exact if_congr (by omega) rfl rfl

/-- Settles O4: move by move. -/
theorem hostMovesReadAndWriteOneItem : Obligations.HostMovesReadAndWriteOneItem := by
  intro s rest
  refine ⟨fun o r ho hs => ?_, fun a hs => ?_, fun a hs => ?_, fun a b hs => ?_, fun a b hs => ?_,
    step_of_host_nil⟩
  · rw [← readReg_host s rest r]
    exact step_of_hostMove_settled hs (hostMove_readReg ho _)
  · exact step_of_hostMove_settled hs rfl
  · exact step_of_hostMove_settled hs rfl
  · exact ⟨_, step_of_hostMove_settled hs rfl, stored_write .src s.src a.toNat b⟩
  · exact ⟨_, step_of_hostMove_settled hs rfl, stored_write .out s.out a.toNat b⟩

/-! ## A write of `CMD` -/

/-- A write at offset 0 is a command (10_state.md R25). -/
theorem hostMove_writeCmd (w : Word) (s : State) : hostMove (.writeReg 0x000 w) s = startCommand w s := rfl

theorem startCommand_of_err {w : Word} {s : State} (h : s.status.err = true) :
    startCommand w s = commandUnderError w { s with cmd := w } := by
  rw [startCommand, if_pos h]

theorem startCommand_of_decodeCmd {w : Word} {s : State} {i : Instr} (h : s.status.err = false)
    (hi : decodeCmd w = .ok i) : startCommand w s = .run i (clearResultFlags { s with cmd := w }) := by
  rw [startCommand, if_neg (ne_true_of_eq_false h), commandAccepted, hi]

/-! Under a sticky error the low byte of the word decides (40_commands.md R132). -/

theorem commandUnderError_clear {w : Word} (h : w.toNat % 256 = 0x01) (s : State) :
    commandUnderError w s = .run .clear s :=
  if_pos ((field_low_eq _ _).trans h)

theorem commandUnderError_sreset {w : Word} (h : w.toNat % 256 = 0x02) (s : State) :
    commandUnderError w s = .run .sreset s := by
  have hop : field w.toNat 0 8 = 0x02 := (field_low_eq _ _).trans h
  rw [commandUnderError, hop]
  rfl

theorem commandUnderError_other {w : Word} (h1 : w.toNat % 256 ≠ 0x01) (h2 : w.toNat % 256 ≠ 0x02)
    (s : State) : commandUnderError w s = .settled s := by
  have hop : field w.toNat 0 8 = w.toNat % 256 := field_low_eq _ _
  rw [commandUnderError, hop, if_neg h1, if_neg h2]

/-- Settles O7: the sticky error by the low byte of the word, and otherwise by what the word decodes to. -/
theorem commandWriteRunsTheDecodedCommand : Obligations.CommandWriteRunsTheDecodedCommand := by
  intro s w rest hw
  have hstart (he : s.status.err = true) : hostMove (.writeReg 0x000 w) { s with host := rest }
      = commandUnderError w { s with host := rest, cmd := w } :=
    (hostMove_writeCmd w _).trans (startCommand_of_err he)
  refine ⟨fun he h1 => ?_, fun he h2 => ?_, fun he h1 h2 => ?_, fun he e hd => ?_, fun he i hd => ?_⟩
  · exact step_of_hostMove_run hw ((hstart he).trans (commandUnderError_clear h1 _))
  · exact step_of_hostMove_run hw ((hstart he).trans (commandUnderError_sreset h2 _))
  · exact step_of_hostMove_settled hw ((hstart he).trans (commandUnderError_other h1 h2 _))
  · exact step_of_decodeCmd_error hw he hd
  · exact step_of_hostMove_run hw ((hostMove_writeCmd w _).trans (startCommand_of_decodeCmd he hd))

/-- Settles O10: NOP is its epilogue alone, and CLEAR the return from the trap. -/
theorem nopAndClearChangeOnlyStatus : Obligations.NopAndClearChangeOnlyStatus :=
  fun _ => ⟨rfl, rfl⟩

/-! ## Printed encodings -/

/-- Settles O11: closed facts, the words by the opcode maps and the byte strings by a run of the cursor. -/
theorem printedEncodingsDecode : Obligations.PrintedEncodingsDecode :=
  ⟨rfl, rfl, rfl, rfl, rfl, rfl, by decide, by decide, by decide, by decide, by decide, by decide, by decide⟩

/-! ## Every instruction answers -/

/-- A next state comes out: neither a fault nor a refusal (60_exceptions.md R345). -/
def Answers (r : Result) : Prop := ∃ t, r = .next t

theorem answers_next (t : State) : Answers (.next t) := ⟨t, rfl⟩

theorem answers_trap (e : Exc) (s : State) : Answers (trap e s) := answers_next _

/-- A token run alone answers, however it ends. -/
theorem TokenEnd.answers_result (r : TokenEnd) : Answers r.result := by
  cases r with
  | emitted s => exact answers_next s
  | ended s => exact answers_next s
  | raised e s => exact answers_trap e s

theorem answers_execBcpeek (n : BitVec 6) (s : State) : Answers (execBcpeek n s) := by
  unfold execBcpeek
  split
  · exact answers_trap _ s
  · exact answers_next _

theorem answers_execBctake (n : BitVec 6) (s : State) : Answers (execBctake n s) := by
  unfold execBctake
  split
  · exact answers_trap _ s
  · exact answers_next _

theorem answers_execBcalign (s : State) : Answers (execBcalign s) := by
  unfold execBcalign
  split
  · exact answers_next _
  · exact answers_trap _ s

theorem answers_execOcopy (s : State) : Answers (execOcopy s) := by
  unfold execOcopy
  split
  · split
    · exact answers_trap _ s
    · exact answers_next _
  · exact answers_trap _ s

theorem answers_decodeResult (v : Fin 4) (r : DecodeEnd) : Answers (decodeResult v r) := by
  cases r with
  | done s => exact answers_next _
  | raised e s => exact answers_trap e s

theorem answers_execDecode (v : Fin 4) (s : State) : Answers (execDecode v s) := by
  unfold execDecode
  split
  · exact answers_decodeResult v _
  · exact answers_trap _ s

/-- The candidates run out, if none is accepted before (45_variant_prober.md R230). -/
theorem answers_probeLoop (n m k : Nat) (last : BitVec 3) (s : State) : Answers (probeLoop n m k last s) := by
  induction m generalizing k last s with
  | zero => exact answers_next _
  | succ m ih =>
    rw [probeLoop]
    split
    · exact answers_trap _ _
    · exact ih _ _ _
    · split
      · exact answers_next _
      · exact ih _ _ _

theorem answers_execProbe (s : State) : Answers (execProbe s) := by
  unfold execProbe
  split
  · exact answers_probeLoop _ _ _ _ s
  · exact answers_trap _ s

theorem answers_execKeygen (target : KeyTarget) (s : State) : Answers (execKeygen target s) := by
  cases target with
  | kt =>
    unfold execKeygen keygenTable
    dsimp only
    split
    · exact answers_next _
    · exact answers_trap _ s
  | kr => exact answers_next _

theorem answers_execCipher (s : State) : Answers (execCipher s) := by
  unfold execCipher
  split
  · split
    · exact answers_next _
    · exact answers_trap _ s
  · exact answers_trap _ s

theorem answers_execLane (s : State) : Answers (execLane s) := by
  unfold execLane
  split
  · split
    · exact answers_trap _ s
    · split
      · exact answers_next _
      · exact answers_trap _ s
  · exact answers_trap _ s

/-- Every instruction, in every state, answers a next state. -/
theorem answers_exec (i : Instr) (s : State) : Answers (exec i s) := by
  cases i with
  | nop | clear | sreset | bcinit _ _ => exact answers_next _
  | bcpeek n => exact answers_execBcpeek n s
  | bctake n => exact answers_execBctake n s
  | bcalign => exact answers_execBcalign s
  | ocopy => exact answers_execOcopy s
  | decode v => exact answers_execDecode v s
  | probe => exact answers_execProbe s
  | keygen target => exact answers_execKeygen target s
  | cipher => exact answers_execCipher s
  | lane => exact answers_execLane s
  | pfxTerm | bytTerm => exact answers_next _
  | pfxLit _ | pfxRun2 _ | pfxRun3 _ | pfxCopy _ _ _ => exact TokenEnd.answers_result _
  | bytLitrun _ _ | bytFillb _ _ _ | bytFillw _ _ _ _ | bytCopys _ _ _ | bytCopyl _ _ _ =>
    exact TokenEnd.answers_result _
  | dpxElem _ _ | dpxApair _ _ => exact TokenEnd.answers_result _
  | lopEnd | lopAdd _ _ _ | lopSub _ _ _ | lopXor _ _ _ => exact answers_next _

/-- Settles O55: a settled move is a next state, and an instruction answers one. -/
theorem everyStepAnswersANextState : Obligations.EveryStepAnswersANextState := by
  refine ⟨fun s => ?_, answers_exec⟩
  obtain ⟨t, _, hstep⟩ | ⟨i, t, _, hstep⟩ := step_cases s
  · exact ⟨t, hstep⟩
  · rw [hstep]
    exact answers_exec i t

end Sys2Proof.Machine
end

section
/-! PROOFS. Reads of the cursor: how two reads make one, that a read from an empty cache returns the stream's bits,
that `bitpos` counts the bits consumed, and that no bit outside the cache's valid region is ever read (O17 to O20;
41_bitcursor.md R151 to R159). -/

namespace Sys2Proof.Machine

open Sys2Proof

/-! ## Two reads and one -/

theorem take_add_cursor (e : Reader) (n m : Nat) (c : BitCursor) :
    (take e (n + m) c).2 = (take e m (take e n c).2).2 := by
  rw [take_cursor, take_cursor, take_cursor, afterTake1_add]

/-- Under MSB-first the later read fills the low bits (41_bitcursor.md R155). -/
theorem take_add_value_msb {e : Reader} (ho : e.order = .msb) (n m : Nat) (c : BitCursor) :
    (take e (n + m) c).1 = (take e n c).1 * 2 ^ m + (take e m (take e n c).2).1 := by
  rw [take_cursor, take_value, take_value, take_value, takenBits_add, ho, bitsValue_msb_append, length_takenBits]

/-- Under LSB-first the later read fills the high bits (41_bitcursor.md R155). -/
theorem take_add_value_lsb {e : Reader} (ho : e.order = .lsb) (n m : Nat) (c : BitCursor) :
    (take e (n + m) c).1 = (take e n c).1 + (take e m (take e n c).2).1 * 2 ^ n := by
  rw [take_cursor, take_value, take_value, take_value, takenBits_add, ho, bitsValue_lsb_append, length_takenBits,
    Nat.mul_comm]

/-- Settles O17: the bits of the whole read are those of the two, one string after the other; the read that fills
the low bits is the remainder, the other the quotient. -/
theorem splitTakeEqualsWholeTake : Obligations.SplitTakeEqualsWholeTake := by
  refine fun e c n m _ => ⟨(take_add_cursor e n m c).symm, fun ho => ?_, fun ho => ?_⟩
  · have hz := take_add_value_msb ho n m c
    have hsplit : (take e m (take e n c).2).1 + 2 ^ m * (take e n c).1 = (take e (n + m) c).1 := by
      rw [hz]; ring
    obtain ⟨hdiv, hmod⟩ := (Nat.div_mod_unique (Nat.two_pow_pos m)).mpr ⟨hsplit, take_lt e m _⟩
    exact ⟨hz, hdiv.symm, hmod.symm⟩
  · have hz := take_add_value_lsb ho n m c
    have hsplit : (take e n c).1 + 2 ^ n * (take e m (take e n c).2).1 = (take e (n + m) c).1 := by
      rw [hz]; ring
    obtain ⟨hdiv, hmod⟩ := (Nat.div_mod_unique (Nat.two_pow_pos n)).mpr ⟨hsplit, take_lt e n c⟩
    exact ⟨hz, hmod.symm, hdiv.symm⟩

/-! ## Reads from an empty cache -/

/-- The stream's bits from a byte's first bit on are that byte's (41_bitcursor.md R159). -/
theorem streamBits_byte (e : Reader) (a : Nat) : streamBits e (8 * a) 8 = fieldBits e.order 8 (e.byte a).toNat := by
  have hbit : ∀ i ∈ List.range 8, (8 * a + i) / 8 = a ∧ (8 * a + i) % 8 = i := fun i hi => by
    have := List.mem_range.mp hi
    omega
  unfold streamBits streamBit fieldBits
  cases e.order with
  | msb | lsb =>
    refine List.map_congr_left fun i hi => ?_
    obtain ⟨hdiv, hmod⟩ := hbit i hi
    rw [hdiv, hmod, BitVec.testBit_toNat]

theorem take_of_empty {e : Reader} {c : BitCursor} {n : Nat} (h0 : c.cbits = 0)
    (hend : c.bpos.toNat + n + 4 ≤ 2 ^ 32) :
    (take e n c).1 = bitsValue e.order (streamBits e (8 * c.bpos.toNat) n) := by
  rw [take_value, takenBits_of_standsAt (standsAt_of_empty e h0) n (by omega)]

/-- Settles O18: the cursor stands at the first bit of its byte, and the stream does not depend on the refill
width. -/
theorem takeReadsTheStreamBits : Obligations.TakeReadsTheStreamBits := by
  intro e c n h0 hend
  refine ⟨take_of_empty h0 hend, fun w => ?_, take_lt e n c, ?_⟩
  · rw [take_of_empty h0 hend, take_of_empty h0 hend]
    rfl
  · rintro rfl
    rw [take_of_empty h0 hend, streamBits_byte, bitsValue_fieldBits]
    exact Nat.mod_eq_of_lt (e.byte c.bpos.toNat).isLt

/-! ## The bit position -/

theorem take1_bpos_le (e : Reader) (c : BitCursor) : (take1 e c).2.bpos.toNat ≤ c.bpos.toNat + 4 := by
  have hle := bytes_le_four e.width
  rw [take1, dropBit_bpos, ensureBit]
  split
  · rw [refill_bpos, BitVec.toNat_add, BitVec.toNat_ofNat]
    omega
  · omega

/-- Every bit consumed moves the bit position by one (41_bitcursor.md R157). -/
theorem bitpos_afterTake1 (e : Reader) (n : Nat) {c : BitCursor} (h : c.bpos.toNat + 4 * n < 2 ^ 32) :
    bitpos (afterTake1 e n c) = bitpos c + n := by
  induction n generalizing c with
  | zero => simp
  | succ n ih =>
    have hle := take1_bpos_le e c
    rw [afterTake1_succ, ih (by omega), bitpos_take1 e c (by omega)]
    push_cast
    ring

/-- Settles O19: bit by bit for a read; the discarded bits are those `CUR_CBITS` counted. -/
theorem bitPositionCountsConsumedBits : Obligations.BitPositionCountsConsumedBits := by
  refine ⟨fun e c n h => ⟨?_, take_mode e n c, peek_eq e n c⟩, fun c => ?_, fun _ _ => rfl⟩
  · rw [take_cursor, bitpos_afterTake1 e n h]
  · simp [bitpos, alignByte]

/-! ## The valid region of the cache -/

theorem cacheBit_of_ge (o : BitOrder) (c : BitCursor) {i : Nat} (hi : 32 ≤ i) : cacheBit o c i = false := by
  cases o with
  | msb => exact BitVec.getMsbD_of_ge _ _ hi
  | lsb => exact BitVec.getLsbD_of_ge _ _ hi

/-- A refill leaves no bit beyond the bytes it fetched (41_bitcursor.md R151, R158). -/
theorem cacheBit_refill_of_ge (e : Reader) (c : BitCursor) {i : Nat} (hi : 8 * e.width.bytes ≤ i) :
    cacheBit e.order (refill e c) i = false := by
  have hle := bytes_le_four e.width
  have hout : decide (i < 8 * e.width.bytes) = false := decide_eq_false (by omega)
  have hword : (refill e c).cache = e.refillWord c.bpos.toNat := rfl
  cases ho : e.order with
  | msb =>
    simp only [cacheBit, hword, Reader.refillWord, ho]
    rw [getMsbD_orBytes (fun k => e.byte (c.bpos.toNat + k)) _ _ hle, hout, Bool.false_and]
  | lsb =>
    simp only [cacheBit, hword, Reader.refillWord, ho]
    rw [getLsbD_orBytes (fun k => e.byte (c.bpos.toNat + k)) _ _ hle, hout, Bool.false_and]

theorem refill_cbits_le (e : Reader) (c : BitCursor) : (refill e c).cbits.toNat ≤ 32 := by
  have := bytes_le_four e.width
  rw [refill_cbits]
  omega

/-- The first line of `take1` leaves a bit to hand out (41_bitcursor.md R152). -/
theorem ensureBit_cbits_pos (e : Reader) (c : BitCursor) : 0 < (ensureBit e c).cbits.toNat := by
  have := bytes_pos e.width
  unfold ensureBit
  split
  case isTrue h0 => rw [refill_cbits]; omega
  case isFalse h0 => exact Nat.pos_of_ne_zero fun hz => h0 (BitVec.eq_of_toNat_eq hz)

theorem dropBit_cbits_toNat (o : BitOrder) {c : BitCursor} (h : 0 < c.cbits.toNat) :
    (dropBit o c).cbits.toNat = c.cbits.toNat - 1 := by
  rw [dropBit_cbits, BitVec.toNat_sub_of_le (show 1 ≤ c.cbits from BitVec.le_def.mpr h)]
  rfl

/-! ### A clean cache -/

theorem cacheClean_alignByte (o : BitOrder) (c : BitCursor) : cacheClean o (alignByte c) :=
  ⟨Nat.zero_le 32, fun i _ _ => by cases o <;> simp [cacheBit, alignByte]⟩

theorem cacheClean_ensureBit {e : Reader} {c : BitCursor} (h : cacheClean e.order c) :
    cacheClean e.order (ensureBit e c) := by
  unfold ensureBit
  split
  · exact ⟨refill_cbits_le e c, fun i hi _ => cacheBit_refill_of_ge e c (refill_cbits e c ▸ hi)⟩
  · exact h

theorem cacheClean_dropBit {o : BitOrder} {c : BitCursor} (h : cacheClean o c) (hpos : 0 < c.cbits.toNat) :
    cacheClean o (dropBit o c) := by
  obtain ⟨hfits, hclean⟩ := h
  have hcbits := dropBit_cbits_toNat o hpos
  refine ⟨by omega, fun i hi hlt => ?_⟩
  rw [cacheBit_dropBit]
  by_cases hlast : i + 1 < 32
  · exact hclean (i + 1) (by omega) hlast
  · exact cacheBit_of_ge o c (by omega)

theorem cacheClean_take1 {e : Reader} {c : BitCursor} (h : cacheClean e.order c) :
    cacheClean e.order (take1 e c).2 :=
  cacheClean_dropBit (cacheClean_ensureBit h) (ensureBit_cbits_pos e c)

theorem cacheClean_afterTake1 {e : Reader} {c : BitCursor} (h : cacheClean e.order c) (n : Nat) :
    cacheClean e.order (afterTake1 e n c) :=
  Function.Iterate.rec (cacheClean e.order) h (fun _ => cacheClean_take1) n

/-! ### Two cursors with the same valid bits -/

/-- A refill does not look at the old cache (41_bitcursor.md R151). -/
theorem refill_congr (e : Reader) {c d : BitCursor} (hbpos : c.bpos = d.bpos) (hmode : c.mode = d.mode) :
    refill e c = refill e d := by
  simp [refill, hbpos, hmode]

theorem sameValidBits_ensureBit {e : Reader} {c d : BitCursor} (h : sameValidBits e.order c d) :
    sameValidBits e.order (ensureBit e c) (ensureBit e d) := by
  have ⟨hbpos, hcbits, hmode, _, _⟩ := h
  unfold ensureBit
  rw [← hcbits]
  split
  · rw [refill_congr e hbpos hmode]
    exact ⟨rfl, rfl, rfl, refill_cbits_le e d, fun _ _ => rfl⟩
  · exact h

theorem sameValidBits_dropBit {o : BitOrder} {c d : BitCursor} (h : sameValidBits o c d)
    (hpos : 0 < c.cbits.toNat) : sameValidBits o (dropBit o c) (dropBit o d) := by
  obtain ⟨hbpos, hcbits, hmode, hfits, hbits⟩ := h
  have hdrop := dropBit_cbits_toNat o hpos
  refine ⟨by simp [hbpos], by simp [hcbits], by simp [hmode], by omega, fun i hi => ?_⟩
  rw [cacheBit_dropBit, cacheBit_dropBit, hbits (i + 1) (by omega)]

/-- One bit: the same one, and the valid bits stay the same (41_bitcursor.md R152, R158). -/
theorem take1_of_sameValidBits {e : Reader} {c d : BitCursor} (h : sameValidBits e.order c d) :
    (take1 e c).1 = (take1 e d).1 ∧ sameValidBits e.order (take1 e c).2 (take1 e d).2 := by
  have hens := sameValidBits_ensureBit h
  have hpos := ensureBit_cbits_pos e c
  have ⟨_, _, _, _, hbits⟩ := hens
  refine ⟨?_, sameValidBits_dropBit hens hpos⟩
  rw [take1, take1, nextBit_eq_cacheBit, nextBit_eq_cacheBit, hbits 0 hpos]

theorem take_of_sameValidBits {e : Reader} {c d : BitCursor} (h : sameValidBits e.order c d) (n : Nat) :
    takenBits e n c = takenBits e n d ∧ sameValidBits e.order (afterTake1 e n c) (afterTake1 e n d) := by
  induction n generalizing c d with
  | zero => exact ⟨rfl, h⟩
  | succ n ih =>
    obtain ⟨hbit, hnext⟩ := take1_of_sameValidBits h
    obtain ⟨hbits, hlast⟩ := ih hnext
    exact ⟨congrArg₂ List.cons hbit hbits, hlast⟩

/-- Settles O20: a bit is read from inside the valid region, which a refill fills anew and a read shortens. -/
theorem strayCacheBitsAreNeverReturned : Obligations.StrayCacheBitsAreNeverReturned := by
  refine fun e c n => ⟨fun d h => ?_, fun h => ?_, cacheClean_alignByte e.order c⟩
  · obtain ⟨hbits, hlast⟩ := take_of_sameValidBits h n
    rw [take_eq, take_eq, hbits]
    exact ⟨rfl, hlast⟩
  · rw [take_cursor]
    exact cacheClean_afterTake1 h n

end Sys2Proof.Machine
end

section
/-! PROOFS. The cursor commands: each completes where its checks pass and raises IllegalCommand where one fails
(O21, O22; 41_bitcursor.md R160 to R163). -/

namespace Sys2Proof.Machine

open Sys2Proof

/-! ## The checks -/

theorem refill?_eq_none_iff (c : BitCursor) : c.refill? = none ↔ c.mode.toNat / 2 = 3 := by
  have hlt : c.mode.toNat / 2 < 4 := by omega
  unfold BitCursor.refill?
  interval_cases c.mode.toNat / 2 <;> simp [RefillWidth.ofField]

theorem cbitsLegal_iff (s : State) : cbitsLegal s = true ↔ s.cur.cbits.toNat ≤ 32 := decide_eq_true_iff

theorem srcLenLegal_iff (s : State) : srcLenLegal s = true ↔ s.srcLen.toNat ≤ 2 ^ 31 - 1 := decide_eq_true_iff

/-- The reader BCPEEK and BCTAKE have where their checks pass (41_bitcursor.md R161, R162). -/
theorem bitReader_of_legal {s : State} {w : RefillWidth} {n : BitVec 6} (hc : s.cur.cbits.toNat ≤ 32)
    (hw : s.cur.refill? = some w) (hlen : s.srcLen.toNat ≤ 2 ^ 31 - 1) (hn : n.toNat ≤ 32) :
    bitReader n s = some { order := s.cur.order, width := w, src := s.src, len := s.srcLen.toNat } := by
  rw [bitReader, if_pos ⟨hn, (cbitsLegal_iff s).mpr hc, (srcLenLegal_iff s).mpr hlen⟩, cursorReader, hw]

/-- One failing check is enough for there to be no reader (41_bitcursor.md R161, R162). -/
theorem bitReader_eq_none {s : State} {n : BitVec 6}
    (h : 32 < n.toNat ∨ 32 < s.cur.cbits.toNat ∨ s.cur.mode.toNat / 2 = 3 ∨ 2 ^ 31 - 1 < s.srcLen.toNat) :
    bitReader n s = none := by
  unfold bitReader
  split
  case isTrue hlegal =>
    rw [cbitsLegal_iff, srcLenLegal_iff] at hlegal
    have hmode : s.cur.mode.toNat / 2 = 3 := by omega
    rw [cursorReader, (refill?_eq_none_iff s.cur).mpr hmode]
  case isFalse => rfl

/-! ## The commands -/

/-- IllegalCommand changes `STATUS` only (60_exceptions.md R340, R345). -/
theorem trap_illegalCommand (s : State) : trap .illegalCommand s = raisesOnly s 6 := rfl

theorem exec_bcpeek_of_reader {n : BitVec 6} {s : State} {e : Reader} (h : bitReader n s = some e) :
    exec (.bcpeek n) s = .next { s with
      curResult := BitVec.ofNat 32 (take e n.toNat s.cur).1, status := doneStatus s } := by
  show execBcpeek n s = _
  rw [execBcpeek, h]
  rfl

theorem exec_bctake_of_reader {n : BitVec 6} {s : State} {e : Reader} (h : bitReader n s = some e) :
    exec (.bctake n) s = .next { s with
      curResult := BitVec.ofNat 32 (take e n.toNat s.cur).1, cur := (take e n.toNat s.cur).2
      status := doneStatus s } := by
  show execBctake n s = _
  rw [execBctake, h]
  rfl

theorem exec_bcpeek_of_no_reader {n : BitVec 6} {s : State} (h : bitReader n s = none) :
    exec (.bcpeek n) s = raisesOnly s 6 := by
  show execBcpeek n s = _
  rw [execBcpeek, h]
  exact trap_illegalCommand s

theorem exec_bctake_of_no_reader {n : BitVec 6} {s : State} (h : bitReader n s = none) :
    exec (.bctake n) s = raisesOnly s 6 := by
  show execBctake n s = _
  rw [execBctake, h]
  exact trap_illegalCommand s

/-- BCALIGN's two checks (41_bitcursor.md R163). -/
theorem bcalignLegal_iff (s : State) :
    (cbitsLegal s = true ∧ s.cur.refill?.isSome = true) ↔ s.cur.cbits.toNat ≤ 32 ∧ s.cur.mode.toNat / 2 ≠ 3 := by
  rw [cbitsLegal_iff, Option.isSome_iff_ne_none, Ne, refill?_eq_none_iff]

/-- Settles O21: BCINIT has no check; the others' checks hold, so each takes its completing branch. -/
theorem cursorCommandsComplete : Obligations.CursorCommandsComplete := by
  refine ⟨fun _ _ _ => rfl, fun s w n hc hw hlen hn => ?_, fun s hc hmode => ?_⟩
  · have hreader := bitReader_of_legal hc hw hlen hn
    exact ⟨exec_bcpeek_of_reader hreader, exec_bctake_of_reader hreader⟩
  · exact if_pos ((bcalignLegal_iff s).mpr ⟨hc, hmode⟩)

/-- Settles O22: without a reader, or with BCALIGN's checks false, the command takes its raising branch. -/
theorem cursorCommandsRejectBadConfiguration : Obligations.CursorCommandsRejectBadConfiguration := by
  refine fun s n => ⟨fun h => ?_, fun h => ?_⟩
  · have hreader := bitReader_eq_none h
    exact ⟨exec_bcpeek_of_no_reader hreader, exec_bctake_of_no_reader hreader⟩
  · have hbad := mt (bcalignLegal_iff s).mp (by omega)
    exact (if_neg hbad).trans (trap_illegalCommand s)

end Sys2Proof.Machine
end

section
/-! PROOFS. OCOPY: its checks, and the bytes between `OC_FROM` and `OC_TO` repeated (O23; 42_overlapcopy.md R170,
R171). -/

namespace Sys2Proof.Machine

open Sys2Proof

/-! ## The copied bytes -/

/-- The copy loop's closed form: outside its destination nothing is touched (42_overlapcopy.md R171). -/
theorem stored_copyUp (m : Memory) {src dst : Nat} (len : Nat) (h : src < dst) :
    stored .out (m.copyUp src dst len) m dst len (copiedByte m src dst) := by
  intro x
  split
  case isTrue hin =>
    have hread := Memory.read_copyUp m src dst len (x - dst) h (by omega)
    rwa [Nat.add_sub_of_le hin.1] at hread
  case isFalse hout => exact Memory.read_copyUp_outside .out m src dst len x (by omega)

/-- Source and destination agree after the copy, also where they overlap: a source byte at or past `dst` is itself
a copied byte, one period `dst - src` earlier (42_overlapcopy.md R171, R172). -/
theorem read_copyUp_dst_eq_src (m : Memory) {src dst len i : Nat} (h : src < dst) (hi : i < len) :
    (m.copyUp src dst len).read .out (dst + i) = (m.copyUp src dst len).read .out (src + i) := by
  rw [Memory.read_copyUp m src dst len i h hi]
  by_cases hlt : i < dst - src
  · rw [Nat.mod_eq_of_lt hlt, Memory.read_copyUp_outside .out m src dst len (src + i) (by omega)]
  · have hsrc : src + i = dst + (i - (dst - src)) := by omega
    rw [hsrc, Memory.read_copyUp m src dst len _ h (by omega), Nat.mod_eq_sub_mod (by omega)]

/-! ## The command -/

theorem outLenLegal_iff (s : State) : outLenLegal s = true ↔ s.outLen.toNat ≤ 2 ^ 31 - 1 := decide_eq_true_iff

/-- BoundsViolation changes `STATUS` only (60_exceptions.md R340, R345). -/
theorem trap_boundsViolation (s : State) : trap .boundsViolation s = raisesOnly s 1 := rfl

theorem exec_ocopy_of_illegal_outLen {s : State} (h : 2 ^ 31 - 1 < s.outLen.toNat) :
    exec .ocopy s = raisesOnly s 6 := by
  have hlen : ¬ outLenLegal s = true := mt (outLenLegal_iff s).mp (by omega)
  exact (if_neg hlen).trans (trap_illegalCommand s)

/-- Past the check of `OUT_LEN`, OCOPY raises where the copy primitive refuses (42_overlapcopy.md R170, R173). -/
theorem exec_ocopy_of_refused {s : State} (hlen : s.outLen.toNat ≤ 2 ^ 31 - 1)
    (h : overlapCopy s s.ocFrom.toNat s.ocTo.toNat s.ocLen.toNat = none) : exec .ocopy s = raisesOnly s 1 := by
  show execOcopy s = _
  rw [execOcopy, if_pos ((outLenLegal_iff s).mpr hlen), h]
  exact trap_boundsViolation s

/-- Past the check of `OUT_LEN`, OCOPY leaves what the copy primitive leaves (42_overlapcopy.md R173). -/
theorem exec_ocopy_of_copied {s : State} {m : Memory} (hlen : s.outLen.toNat ≤ 2 ^ 31 - 1)
    (h : overlapCopy s s.ocFrom.toNat s.ocTo.toNat s.ocLen.toNat = some m) :
    exec .ocopy s = .next { s with out := m, status := validStatus s } := by
  show execOcopy s = _
  rw [execOcopy, if_pos ((outLenLegal_iff s).mpr hlen), h]
  rfl

/-- Settles O23: the copy primitive refuses, or the copy loop runs and its law gives the bytes. -/
theorem ocopyRepeatsTheBytesBetween : Obligations.OcopyRepeatsTheBytesBetween := by
  intro s src dst len
  have hcases := overlapCopy_cases s src dst len
  refine ⟨exec_ocopy_of_illegal_outLen, fun hlegal hbad => ?_, fun hlegal hlt hin => ?_⟩
  · obtain ⟨_, hnone⟩ | ⟨hlt, hin, _⟩ := hcases
    · exact exec_ocopy_of_refused hlegal hnone
    · omega
  · obtain ⟨hbad, _⟩ | ⟨_, _, hsome⟩ := hcases
    · omega
    · exact ⟨_, exec_ocopy_of_copied hlegal hsome, stored_copyUp s.out len hlt,
        fun i => read_copyUp_dst_eq_src s.out hlt⟩

end Sys2Proof.Machine
end

section
/-! PROOFS. The tokens run alone: literals, fills, copies, terminators and the overrun rule (O24 to O28;
43_token_decoder.md R186, R187, R194 to R202; 44_token_byte.md R211 to R218). -/

namespace Sys2Proof.Machine

open Sys2Proof

/-! ## The overrun rule -/

theorem afterHeader_of_overrun {s : State} (h : overrun s = true) (r : TokenEnd) :
    afterHeader s r = .raised .truncatedInput s := if_pos h

theorem afterHeader_of_not_overrun {s : State} (h : overrun s = false) (r : TokenEnd) :
    afterHeader s r = r := if_neg (ne_true_of_eq_false h)

/-- Every token but a terminator, every element and every pair obeys the overrun rule before anything else
(43_token_decoder.md R186, 46_delta_pixel.md R258). -/
theorem exec_of_isRaisingToken {i : Instr} (h : isRaisingToken i = true) (s : State) :
    ∃ r, exec i s = (afterHeader s r).result := by
  cases i with
  | pfxLit _ | pfxRun2 _ | pfxRun3 _ | pfxCopy _ _ _ | bytLitrun _ _ | bytFillb _ _ _ | bytFillw _ _ _ _
  | bytCopys _ _ _ | bytCopyl _ _ _ | dpxElem _ _ | dpxApair _ _ => exact ⟨_, rfl⟩
  | _ => cases h

/-- Settles O28: the overrun rule stands first in every such token. -/
theorem overrunTokensAreTruncated : Obligations.OverrunTokensAreTruncated := by
  intro i s hi h
  obtain ⟨r, hr⟩ := exec_of_isRaisingToken hi s
  rw [hr, afterHeader_of_overrun h]
  rfl

/-- Settles O27: a terminator is `EARLY` set, without the overrun rule. -/
theorem terminatorsSetEarly : Obligations.TerminatorsSetEarly := fun _ => ⟨rfl, rfl⟩

/-! ## What an emitting token comes to -/

/-- A raise of a token run alone, by the code of its exception (60_exceptions.md R340, R345). -/
theorem result_of_raised {r : TokenEnd} {e : Exc} {s : State} {code : BitVec 3}
    (hr : r = .raised e s) (he : e ≠ .formatError) (hcode : e.code = code) : r.result = raisesOnly s code := by
  rw [hr, TokenEnd.result_raised, raise, if_neg he, hcode]
  rfl

theorem stored_writeBytes (m : Memory) (a : Nat) (bs : List Byte) :
    stored .out (m.writeBytes a bs) m a bs.length (fun i => bs.getD i 0) :=
  fun x => Memory.read_writeBytes .out m a bs x

/-- Only the bytes below `n` matter to what `n` stored bytes are. -/
theorem stored_congr {sp : Space} {m m0 : Memory} {a n : Nat} {b b' : Nat → Byte} (h : stored sp m m0 a n b)
    (hb : ∀ i < n, b i = b' i) : stored sp m m0 a n b' := by
  intro x
  rw [h x]
  split
  case isTrue hin => exact hb _ (by omega)
  case isFalse => rfl

/-- A store at `OPOS` that stays inside `OUT` (43_token_decoder.md R194). -/
theorem emitBytes_of_inside {bs : List Byte} {s : State} (h : s.opos.toNat + bs.length ≤ s.outLen.toNat) :
    emitBytes bs s = .emitted { s with
      out := s.out.writeBytes s.opos.toNat bs, opos := s.opos + BitVec.ofNat 32 bs.length } := by
  obtain ⟨_, hr⟩ | ⟨hlt, _⟩ := emitBytes_cases bs s
  · exact hr
  · omega

theorem emitBytes_of_outside {bs : List Byte} {s : State} (h : s.outLen.toNat < s.opos.toNat + bs.length) :
    emitBytes bs s = .raised .boundsViolation s := by
  obtain ⟨hle, _⟩ | ⟨_, hr⟩ := emitBytes_cases bs s
  · omega
  · exact hr

/-- An instruction that comes to a store at `OPOS` emits those bytes. -/
theorem emits_of_emitBytes {i : Instr} {s : State} {bs : List Byte} {n : Nat} {b : Nat → Byte}
    (hi : exec i s = (emitBytes bs s).result) (hn : bs.length = n)
    (hin : s.opos.toNat + n ≤ s.outLen.toNat) (hb : ∀ j < n, bs.getD j 0 = b j) : emits i s n b := by
  subst hn
  refine ⟨_, ?_, stored_congr (stored_writeBytes s.out s.opos.toNat bs) hb⟩
  rw [hi, emitBytes_of_inside hin]
  rfl

/-! ## Literals -/

theorem takeBytes_cursor (e : Reader) (n : Nat) (c : BitCursor) : (takeBytes e n c).2 = afterBytes e n c := by
  induction n generalizing c with
  | zero => rfl
  | succ n ih => exact ih _

/-- Byte `i` of a payload is the `i`-th read of eight bits (44_token_byte.md R214). -/
theorem getD_takeBytes (e : Reader) {n i : Nat} (c : BitCursor) (hi : i < n) :
    (takeBytes e n c).1.getD i 0 = BitVec.ofNat 8 (take e 8 (afterBytes e i c)).1 := by
  induction n generalizing i c with
  | zero => omega
  | succ n ih =>
    cases i with
    | zero => rfl
    | succ i => exact ih _ (by omega)

theorem payloadPresent_iff (s : State) (n : Nat) :
    payloadPresent s n = true ↔ bitpos s.cur + 8 * (n : Int) ≤ 8 * (s.srcLen.toNat : Int) := decide_eq_true_iff

/-! Past the overrun rule a literal run checks its count, its bounds and its payload, in this order
(44_token_byte.md R214). -/

theorem bytLitrun_of_zero {s : State} {n : BitVec 16} (h : overrun s = false) (h0 : n.toNat = 0) :
    bytLitrun n s = .raised .unrecognizedControlCode s := by
  rw [bytLitrun, afterHeader_of_not_overrun h, if_pos (BitVec.eq_of_toNat_eq h0)]

/-- A literal run of at least one byte, past its count check. -/
theorem bytLitrun_of_ne_zero {s : State} {n : BitVec 16} (h : overrun s = false) (h0 : n.toNat ≠ 0) :
    bytLitrun n s = if inOut s s.opos.toNat n.toNat then
        if payloadPresent s n.toNat then emitPayload n.toNat s else .raised .truncatedInput s
      else .raised .boundsViolation s := by
  rw [bytLitrun, afterHeader_of_not_overrun h, if_neg fun hn => h0 (by rw [hn]; rfl)]

theorem bytLitrun_of_outside {s : State} {n : BitVec 16} (h : overrun s = false) (h0 : n.toNat ≠ 0)
    (hout : s.outLen.toNat < s.opos.toNat + n.toNat) : bytLitrun n s = .raised .boundsViolation s := by
  rw [bytLitrun_of_ne_zero h h0, if_neg (mt (inOut_iff s _ _).mp (by omega))]

theorem bytLitrun_of_absent {s : State} {n : BitVec 16} (h : overrun s = false) (h0 : n.toNat ≠ 0)
    (hin : s.opos.toNat + n.toNat ≤ s.outLen.toNat)
    (hpay : bitpos s.cur + 8 * (n.toNat : Int) > 8 * (s.srcLen.toNat : Int)) :
    bytLitrun n s = .raised .truncatedInput s := by
  rw [bytLitrun_of_ne_zero h h0, if_pos ((inOut_iff s _ _).mpr hin),
    if_neg (mt (payloadPresent_iff s _).mp (by omega))]

theorem bytLitrun_of_present {s : State} {n : BitVec 16} (h : overrun s = false) (h0 : n.toNat ≠ 0)
    (hin : s.opos.toNat + n.toNat ≤ s.outLen.toNat)
    (hpay : bitpos s.cur + 8 * (n.toNat : Int) ≤ 8 * (s.srcLen.toNat : Int)) :
    bytLitrun n s = emitPayload n.toNat s := by
  rw [bytLitrun_of_ne_zero h h0, if_pos ((inOut_iff s _ _).mpr hin), if_pos ((payloadPresent_iff s _).mpr hpay)]

/-- The payload of a literal run inside `OUT`, read through a legal cursor (44_token_byte.md R214). -/
theorem emitPayload_of_reader {s : State} {e : Reader} {n : Nat} (he : cursorReader s = some e)
    (hin : s.opos.toNat + n ≤ s.outLen.toNat) :
    emitPayload n s = .emitted { s with
      cur := afterBytes e n s.cur
      out := s.out.writeBytes s.opos.toNat (takeBytes e n s.cur).1, opos := s.opos + BitVec.ofNat 32 n } := by
  have hlen := length_takeBytes e n s.cur
  have hemit := emitBytes_of_inside (s := withCursor s (afterBytes e n s.cur)) (bs := (takeBytes e n s.cur).1)
    (by rw [hlen]; exact hin)
  rw [hlen] at hemit
  rw [emitPayload, he]
  dsimp only
  rw [takeBytes_cursor]
  exact hemit

theorem stored_payload (m : Memory) (a : Nat) (e : Reader) (n : Nat) (c : BitCursor) :
    stored .out (m.writeBytes a (takeBytes e n c).1) m a n
      (fun i => BitVec.ofNat 8 (take e 8 (afterBytes e i c)).1) := by
  have h := stored_writeBytes m a (takeBytes e n c).1
  rw [length_takeBytes] at h
  exact stored_congr h fun i hi => getD_takeBytes e c hi

/-- Settles O24: LIT is one store at `OPOS`; LITRUN by its three checks, then the payload read and stored. -/
theorem literalTokensEmitTheirBytes : Obligations.LiteralTokensEmitTheirBytes := by
  intro s hs
  refine ⟨fun v => ?_, fun n form => ?_⟩
  · have hlit : exec (.pfxLit v) s = (emitBytes [v] s).result :=
      congrArg TokenEnd.result (afterHeader_of_not_overrun hs _)
    refine ⟨fun hout => ?_, fun hin => emits_of_emitBytes hlit rfl hin fun j hj => ?_⟩
    · rw [hlit]
      exact result_of_raised (emitBytes_of_outside hout) nofun rfl
    · obtain rfl : j = 0 := by omega
      rfl
  · refine ⟨fun h0 => result_of_raised (bytLitrun_of_zero hs h0) nofun rfl,
      fun h0 hout => result_of_raised (bytLitrun_of_outside hs h0 hout) nofun rfl,
      fun h0 hin hpay => result_of_raised (bytLitrun_of_absent hs h0 hin hpay) nofun rfl,
      fun w h0 hin hpay hw => ?_⟩
    have hreader : cursorReader s
        = some { order := s.cur.order, width := w, src := s.src, len := s.srcLen.toNat } := by
      rw [cursorReader, hw]
    have hrun := (bytLitrun_of_present hs h0 hin hpay).trans (emitPayload_of_reader hreader hin)
    exact ⟨_, congrArg TokenEnd.result hrun, stored_payload s.out s.opos.toNat _ n.toNat s.cur⟩

/-! ## Fills -/

theorem exec_of_fillToken {i : Instr} {unit : List Byte} {count : Nat} (h : fillToken i = some (unit, count))
    (s : State) : exec i s = (afterHeader s (emitFill unit count s)).result := by
  cases i with
  | pfxRun2 _ | pfxRun3 _ | bytFillb _ _ _ | bytFillw _ _ _ _ => cases h; rfl
  | _ => cases h

/-- Settles O25: the count, then the repeated unit as one store at `OPOS`. -/
theorem fillTokensRepeatTheirUnit : Obligations.FillTokensRepeatTheirUnit := by
  intro i s unit count hs hi
  have hexec := exec_of_fillToken hi s
  rw [afterHeader_of_not_overrun hs] at hexec
  have hlen := length_flatten_replicate count unit
  obtain ⟨h0, hr⟩ | ⟨h0, hr⟩ := emitFill_cases unit count s
  · refine ⟨fun _ => ?_, fun h => absurd h0 h, fun h => absurd h0 h⟩
    rw [hexec]
    exact result_of_raised hr nofun rfl
  · rw [hr] at hexec
    refine ⟨fun h => absurd h h0, fun _ hout => ?_, fun _ hin => ?_⟩
    · rw [hexec]
      exact result_of_raised (emitBytes_of_outside (by rw [hlen]; exact hout)) nofun rfl
    · exact emits_of_emitBytes hexec hlen hin (getD_flatten_replicate count unit)

/-! ## Copies -/

theorem exec_of_copyToken {i : Instr} {offset length : Nat} (h : copyToken i = some (offset, length))
    (s : State) : exec i s = (afterHeader s (emitCopy offset length s)).result := by
  cases i with
  | pfxCopy _ _ _ | bytCopys _ _ _ | bytCopyl _ _ _ => cases h; rfl
  | _ => cases h

/-- Settles O26: by the three ways a copy can end, the last with the law of the copy loop. -/
theorem copyTokensRepeatProducedBytes : Obligations.CopyTokensRepeatProducedBytes := by
  intro i s offset length hs hi
  have hexec := exec_of_copyToken hi s
  rw [afterHeader_of_not_overrun hs] at hexec
  obtain ⟨h0, hr⟩ | ⟨h0, hbad, hr⟩ | ⟨h0, hoff, hback, hin, hr⟩ := emitCopy_cases offset length s
  · refine ⟨fun _ => ?_, fun h => absurd h0 h, fun h => absurd h0 h, fun h => absurd h0 h⟩
    rw [hexec]
    exact result_of_raised hr nofun rfl
  · have hraise : exec i s = raisesOnly s 1 := by
      rw [hexec]
      exact result_of_raised hr nofun rfl
    exact ⟨fun h => absurd h h0, fun _ _ => hraise, fun _ _ _ _ => hraise, fun _ _ _ _ => by omega⟩
  · refine ⟨fun h => absurd h h0, fun _ _ => by omega, fun _ _ _ _ => by omega, fun _ _ _ _ => ?_⟩
    rw [hr] at hexec
    exact ⟨_, hexec, stored_copyUp s.out length (by omega)⟩

end Sys2Proof.Machine
end

section
/-! PROOFS. What a token yields that is no terminator, with the bytes it may write; that each loop body runs what it
fetched, and what codes without a meaning come to (O29, O32; 43_token_decoder.md R181, R203; 46_delta_pixel.md
R251, R255, R260). -/

namespace Sys2Proof.Machine

open Sys2Proof

/-! ## What a token yields -/

/-- The exceptions a decode of a legal slot can end with (60_exceptions.md R347). -/
def Exc.ofDecode : Exc → Bool
  | .boundsViolation | .unrecognizedControlCode | .truncatedInput => true
  | _ => false

/-- What a token that is no terminator comes to: `n` more bytes of output and the memory `m`, as `Q` allows, or an
exception; the cursor may have moved in its mode. IllegalCommand needs the reserved refill width
(notes/assumptions/7.md). -/
inductive Yields (s : State) (Q : Nat → Memory → Prop) : TokenEnd → Prop
  | emitted (c : BitCursor) (n : Nat) (m : Memory) (hc : c.mode = s.cur.mode) (h : Q n m) :
      Yields s Q (.emitted { s with cur := c, out := m, opos := s.opos + BitVec.ofNat 32 n })
  | raised (c : BitCursor) (e : Exc) (hc : c.mode = s.cur.mode)
      (he : e.ofDecode = true ∨ s.cur.refill? = none) : Yields s Q (.raised e { s with cur := c })

section

variable {s : State} {Q : Nat → Memory → Prop} {r : TokenEnd}

theorem yields_raised (s : State) (Q : Nat → Memory → Prop) {e : Exc} (he : e.ofDecode = true) :
    Yields s Q (.raised e s) := .raised s.cur e rfl (.inl he)

theorem yields_emitted (s : State) {Q : Nat → Memory → Prop} {n : Nat} {m : Memory} (h : Q n m) :
    Yields s Q (.emitted { s with out := m, opos := s.opos + BitVec.ofNat 32 n }) := .emitted s.cur n m rfl h

theorem Yields.afterHeader (h : Yields s Q r) : Yields s Q (afterHeader s r) := by
  obtain ⟨_, hr⟩ | ⟨_, hr⟩ := afterHeader_cases s r
  · rw [hr]; exact yields_raised s Q rfl
  · rwa [hr]

theorem Yields.ne_ended (h : Yields s Q r) (u : State) : r ≠ .ended u := by
  rintro rfl
  cases h

theorem Yields.mono {Q' : Nat → Memory → Prop} (h : Yields s Q r) (hQ : ∀ n m, Q n m → Q' n m) :
    Yields s Q' r := by
  cases h with
  | emitted c n m hc h => exact .emitted c n m hc (hQ n m h)
  | raised c e hc he => exact .raised c e hc he

/-- A fetch before the token moves the cursor in its mode. -/
theorem Yields.of_withCursor {c : BitCursor} (hc : c.mode = s.cur.mode) (h : Yields (withCursor s c) Q r) :
    Yields s Q r := by
  cases h with
  | emitted c' n m hc' h => exact .emitted c' n m (hc'.trans hc) h
  | raised c' e hc' he =>
    refine .raised c' e (hc'.trans hc) (he.imp_right fun hr => ?_)
    rwa [BitCursor.refill?, withCursor_cur, hc] at hr

end

/-! ## The tokens -/

/-- The next `n` bytes of `OUT` are stored, inside its length (43_token_decoder.md R194 to R196). -/
def Appends (s : State) (n : Nat) (m : Memory) : Prop :=
  s.opos.toNat + n ≤ s.outLen.toNat ∧ ∃ b, stored .out m s.out s.opos.toNat n b

theorem yields_emitBytes (bs : List Byte) (s : State) : Yields s (Appends s) (emitBytes bs s) := by
  obtain ⟨hin, hr⟩ | ⟨_, hr⟩ := emitBytes_cases bs s
  · rw [hr]; exact yields_emitted s ⟨hin, _, stored_writeBytes s.out _ bs⟩
  · rw [hr]; exact yields_raised s _ rfl

theorem yields_emitFill (unit : List Byte) (count : Nat) (s : State) :
    Yields s (Appends s) (emitFill unit count s) := by
  obtain ⟨_, hr⟩ | ⟨_, hr⟩ := emitFill_cases unit count s
  · rw [hr]; exact yields_raised s _ rfl
  · rw [hr]; exact yields_emitBytes _ s

theorem yields_emitCopy (offset length : Nat) (s : State) :
    Yields s (Appends s) (emitCopy offset length s) := by
  obtain ⟨_, hr⟩ | ⟨_, _, hr⟩ | ⟨_, hoff, hback, hin, hr⟩ := emitCopy_cases offset length s
  · rw [hr]; exact yields_raised s _ rfl
  · rw [hr]; exact yields_raised s _ rfl
  · rw [hr]; exact yields_emitted s ⟨hin, _, stored_copyUp s.out length (by omega)⟩

theorem afterBytes_mode (e : Reader) (n : Nat) (c : BitCursor) : (afterBytes e n c).mode = c.mode := by
  rw [← takeBytes_cursor, takeBytes_mode]

theorem yields_emitPayload {n : Nat} {s : State} (hin : s.opos.toNat + n ≤ s.outLen.toNat) :
    Yields s (Appends s) (emitPayload n s) := by
  cases he : cursorReader s with
  | none =>
    have hmode : s.cur.refill? = none := by
      unfold cursorReader at he
      split at he
      · assumption
      · cases he
    rw [emitPayload, he]
    exact .raised s.cur _ rfl (.inr hmode)
  | some e =>
    rw [emitPayload_of_reader he hin]
    exact .emitted _ n _ (afterBytes_mode e n s.cur) ⟨hin, _, stored_payload s.out _ e n s.cur⟩

theorem yields_bytLitrun (count : BitVec 16) (s : State) : Yields s (Appends s) (bytLitrun count s) := by
  refine Yields.afterHeader ?_
  split_ifs with _ hin
  · exact yields_raised s _ rfl
  · exact yields_emitPayload ((inOut_iff s _ _).mp hin)
  · exact yields_raised s _ rfl
  · exact yields_raised s _ rfl

theorem yields_pfxRun {t : PfxToken} (ht : t ≠ .term) (s : State) : Yields s (Appends s) (pfxRun t s) := by
  cases t with
  | lit v => exact (yields_emitBytes _ s).afterHeader
  | run2 v => exact (yields_emitFill _ _ s).afterHeader
  | run3 v => exact (yields_emitFill _ _ s).afterHeader
  | copy o l form => exact (yields_emitCopy _ _ s).afterHeader
  | term => exact absurd rfl ht

theorem yields_bytRun {t : BytToken} (ht : t ≠ .term) (s : State) : Yields s (Appends s) (bytRun t s) := by
  cases t with
  | term => exact absurd rfl ht
  | litrun n form => exact yields_bytLitrun n s
  | fillb n form v => exact (yields_emitFill _ _ s).afterHeader
  | fillw n form u0 u1 => exact (yields_emitFill _ _ s).afterHeader
  | copys l form o => exact (yields_emitCopy _ _ s).afterHeader
  | copyl l form o => exact (yields_emitCopy _ _ s).afterHeader

theorem yields_undefinedCode (s : State) (Q : Nat → Memory → Prop) : Yields s Q (undefinedCode s) :=
  (yields_raised s Q rfl).afterHeader

/-! ## The delta family -/

/-- `m` reads as `OUT` does at and past its length (20_memory.md R76). -/
def KeepsBeyond (s : State) (m : Memory) : Prop := ∀ a, s.outLen.toNat ≤ a → m.read .out a = s.out.read .out a

/-- One sample, stored inside `OUT` (46_delta_pixel.md R257). -/
def WritesSample (s : State) (n : Nat) (m : Memory) : Prop := n = 1 ∧ KeepsBeyond s m

/-- A run of alpha samples that ends no later than the last pixel, stored inside `OUT` (46_delta_pixel.md R260). -/
def WritesRun (s : State) (n : Nat) (m : Memory) : Prop :=
  alphaDone s + n ≤ pixelCount s ∧ KeepsBeyond s m

theorem keepsBeyond_write {s : State} {a : Nat} (b : Byte) (h : inOut s a 1 = true) :
    KeepsBeyond s (s.out.write a b) := by
  intro x hx
  have hlt := (inOut_iff s a 1).mp h
  exact Memory.read_write_other .out s.out a b x (by omega)

theorem yields_dpxElem (sel : Predictor) (delta : Int) (s : State) :
    Yields s (WritesSample s) (dpxElem sel delta s) := by
  refine Yields.afterHeader ?_
  split_ifs with hin
  · exact yields_emitted s (n := 1) ⟨rfl, keepsBeyond_write _ hin⟩
  · exact yields_raised s _ rfl

/-- A run changes no byte but those of its samples (46_delta_pixel.md R260). -/
theorem read_writeAlpha_other (s : State) (val : Byte) (q run : Nat) (m : Memory) {x : Nat}
    (h : ∀ i < run, x ≠ alphaAddr s (q + i)) : (writeAlpha s val q run m).read .out x = m.read .out x := by
  induction run generalizing q m with
  | zero => rfl
  | succ run ih =>
    have htail : ∀ i < run, x ≠ alphaAddr s (q + 1 + i) := fun i hi => by
      rw [show q + 1 + i = q + (i + 1) by omega]
      exact h (i + 1) (by omega)
    rw [writeAlpha, ih (q + 1) _ htail]
    exact Memory.read_write_other .out m _ val x (h 0 (by omega))

theorem keepsBeyond_writeAlpha {s : State} (val : Byte) {q run : Nat} (h : alphaInOut s q run = true) :
    KeepsBeyond s (writeAlpha s val q run s.out) := by
  intro x hx
  refine read_writeAlpha_other s val q run s.out fun i hi => ?_
  have hlt := (inOut_iff s _ 1).mp (List.all_eq_true.mp h i (List.mem_range.mpr hi))
  omega

theorem yields_dpxApair (runm1 value : Byte) (s : State) :
    Yields s (WritesRun s) (dpxApair runm1 value s) := by
  refine Yields.afterHeader ?_
  split_ifs with h
  · exact yields_emitted s ⟨h.1, keepsBeyond_writeAlpha value h.2⟩
  · exact yields_raised s _ rfl

/-! ## A loop body runs what it fetched -/

theorem exec_pfxToken (t : PfxToken) (s : State) : exec t.toInstr s = (pfxRun t s).result := by cases t <;> rfl

theorem exec_bytToken (t : BytToken) (s : State) : exec t.toInstr s = (bytRun t s).result := by cases t <;> rfl

theorem exec_laneOp (o : LaneOp) (s : State) : exec o.toInstr s = .next { s with v := lopApply o s.v } := by
  cases o <;> rfl

theorem pfxRun_ended_iff (t : PfxToken) (s : State) : (∃ u, pfxRun t s = .ended u) ↔ t = .term := by
  refine ⟨fun ⟨u, hu⟩ => ?_, fun h => ⟨setEarly s, by rw [h]; rfl⟩⟩
  by_contra ht
  exact (yields_pfxRun ht s).ne_ended u hu

theorem bytRun_ended_iff (t : BytToken) (s : State) : (∃ u, bytRun t s = .ended u) ↔ t = .term := by
  refine ⟨fun ⟨u, hu⟩ => ?_, fun h => ⟨setEarly s, by rw [h]; rfl⟩⟩
  by_contra ht
  exact (yields_bytRun ht s).ne_ended u hu

/-! Each body, from what its fetch gave (43_token_decoder.md R181; 46_delta_pixel.md R251, R260). -/

theorem pfxStep_of_fetch {f : Format} {s : State} {t : PfxToken} {c : BitCursor}
    (h : fetchPfx f (readerFor f s) s.cur = (.ok t, c)) : pfxStep f s = pfxRun t (withCursor s c) := by
  rw [pfxStep, h]
  rfl

theorem bytStep_of_fetch {f : Format} {s : State} {t : BytToken} {c : BitCursor}
    (h : fetchByt f (readerFor f s) s.cur = (t, c)) : bytStep f s = bytRun t (withCursor s c) := by
  rw [bytStep, h]
  rfl

theorem elemStep_of_fetch {f : Format} {s : State} {x : DeltaElem} {c : BitCursor}
    (h : fetchElem f (readerFor f s) s.cur = (.ok x, c)) : elemStep f s = dpxElem x.sel x.delta (withCursor s c) := by
  rw [elemStep, h]
  rfl

theorem pairStep_of_fetch {f : Format} {s : State} {p : AlphaPair} {c : BitCursor}
    (h : fetchPair (readerFor f s) s.cur = (p, c)) : pairStep f s = dpxApair p.runm1 p.value (withCursor s c) := by
  rw [pairStep, h]
  rfl

/-! An iteration of the loop, by what its body came to (43_token_decoder.md R181). -/

section

variable {more : State → Bool} {body : State → TokenEnd} {s u : State}

theorem decodeLoop_of_emitted (n : Nat) (hmore : more s = true) (hb : body s = .emitted u) :
    decodeLoop more body (n + 1) s = decodeLoop more body n u := by
  rw [decodeLoop, if_pos hmore, hb]

theorem decodeLoop_of_ended (n : Nat) (hmore : more s = true) (hb : body s = .ended u) :
    decodeLoop more body (n + 1) s = .done u := by
  rw [decodeLoop, if_pos hmore, hb]

theorem decodeLoop_of_raised {e : Exc} (n : Nat) (hmore : more s = true) (hb : body s = .raised e u) :
    decodeLoop more body (n + 1) s = .raised e u := by
  rw [decodeLoop, if_pos hmore, hb]

end

/-- Settles O29: each body by its fetch, the loop by its one iteration, the lane program by its head. -/
theorem loopsRunWhatTheyFetch : Obligations.LoopsRunWhatTheyFetch := by
  refine ⟨fun f s t c h => ?_, fun f s t c h => ?_, fun f s x c h => ?_, fun f s p c h => ?_,
    fun more body n s => ⟨decodeLoop_stop more body (n + 1) s, fun hmore u =>
      ⟨decodeLoop_of_emitted n hmore, decodeLoop_of_ended n hmore, fun _ => decodeLoop_of_raised n hmore⟩⟩,
    fun o os s => ⟨exec_laneOp o s, rfl⟩⟩
  · rw [pfxStep_of_fetch h]
    exact ⟨(exec_pfxToken t _).symm, pfxRun_ended_iff t _⟩
  · rw [bytStep_of_fetch h]
    exact ⟨(exec_bytToken t _).symm, bytRun_ended_iff t _⟩
  · rw [elemStep_of_fetch h]
    exact ⟨rfl, (yields_dpxElem x.sel x.delta _).ne_ended⟩
  · rw [pairStep_of_fetch h]
    exact ⟨rfl, (yields_dpxApair p.runm1 p.value _).ne_ended⟩

/-! ## Codes without a meaning -/

theorem fetchPfx_of_undefined {f : Format} {e : Reader} {c : BitCursor} (h : tagLen f.tagtab (take e 3 c).1 = 0) :
    fetchPfx f e c = (.error .undefinedTag, (take e 3 c).2) := if_pos h

/-- A field whose bits spell the greatest number of its width is all one-bits, in either order. -/
theorem eq_replicate_true_of_bitsValue {o : BitOrder} {bs : List Bool} (h : bitsValue o bs + 1 = 2 ^ bs.length) :
    bs = List.replicate bs.length true := by
  induction bs with
  | nil => rfl
  | cons b bs ih =>
    have hlt := bitsValue_lt o bs
    rw [List.length_cons, pow_succ] at h
    rw [List.length_cons, List.replicate_succ]
    have hhead : b = true ∧ bitsValue o bs + 1 = 2 ^ bs.length := by
      cases b with
      | true =>
        cases o with
        | msb => rw [bitsValue_msb_cons] at h; exact ⟨rfl, by simp at h; omega⟩
        | lsb => rw [bitsValue_lsb_cons] at h; exact ⟨rfl, by simp at h; omega⟩
      | false =>
        cases o with
        | msb => rw [bitsValue_msb_cons] at h; simp at h; omega
        | lsb => rw [bitsValue_lsb_cons] at h; simp at h; omega
    rw [hhead.1, ← ih hhead.2]

/-- One-bits to the end of what is allowed and one more are no code (46_delta_pixel.md R255). -/
theorem unaryPrefix_of_ones {e : Reader} {c : BitCursor} {m : Nat} (k : Nat)
    (h : Offers e c (List.replicate (m + 1) true)) :
    unaryPrefix e m k c = (none, afterTake1 e (m + 1) c) := by
  induction m generalizing k c with
  | zero =>
    obtain ⟨hbit, _⟩ := take_one_of_offers h
    rw [unaryPrefix, if_neg (by rw [hbit]; decide), take_cursor]
  | succ m ih =>
    obtain ⟨hbit, hrest⟩ := take_one_of_offers h
    rw [unaryPrefix, if_neg (by rw [hbit]; decide), ih (k + 1) hrest, take_cursor, ← afterTake1_add, Nat.add_comm]

theorem fetchElem_of_undefined {f : Format} {e : Reader} {c : BitCursor}
    (h : (take e 9 (take e 2 c).2).1 = 511) :
    fetchElem f e c = (.error .unaryPrefix, (take e 9 (take e 2 c).2).2) := by
  have hones : takenBits e 9 (take e 2 c).2 = List.replicate 9 true := by
    rw [take_value] at h
    have hbits := eq_replicate_true_of_bitsValue (o := e.order) (bs := takenBits e 9 (take e 2 c).2)
      (by rw [h, length_takenBits]; decide)
    rwa [length_takenBits] at hbits
  have hpre : unaryPrefix e Config.unaryMax 0 (take e 2 c).2 = (none, (take e 9 (take e 2 c).2).2) := by
    rw [take_cursor e 9]
    exact unaryPrefix_of_ones (m := Config.unaryMax) 0 hones
  rw [fetchElem, hpre]

/-- Settles O32: the fetch comes to no code, and the code without a meaning is the overrun rule before its raise. -/
theorem undefinedCodesRaise : Obligations.UndefinedCodesRaise := by
  intro f s e bad
  refine ⟨fun h => ?_, fun h => ?_⟩
  · rw [pfxStep, fetchPfx_of_undefined h]
    rfl
  · rw [elemStep, fetchElem_of_undefined h]
    rfl

end Sys2Proof.Machine
end

section
/-! PROOFS. Which slots are illegal, and what DECODE and PROBE make of an empty output buffer (O33, O34;
43_token_decoder.md R180 to R182; 45_variant_prober.md R230; 46_delta_pixel.md R250). -/

namespace Sys2Proof.Machine

open Sys2Proof

/-! ## The slot checks -/

theorem refillOfField_eq_none_iff {n : Nat} (h : n < 4) : RefillWidth.ofField n = none ↔ n = 3 := by
  interval_cases n <;> decide

theorem familyOfField_eq_none_iff {n : Nat} (h : n < 4) : Family.ofField n = none ↔ n = 3 := by
  interval_cases n <;> decide

theorem familyOfField_eq_pfx_iff (n : Nat) : Family.ofField n = some .pfx ↔ n = 0 := by
  unfold Family.ofField
  split <;> simp_all

theorem familyOfField_eq_delta_iff (n : Nat) : Family.ofField n = some .delta ↔ n = 2 := by
  unfold Family.ofField
  split <;> simp_all

/-- The checks of a slot that need no other register (43_token_decoder.md R182). -/
theorem formatOfRegs_eq_none_iff (fmt tagtab : Word) : Format.ofRegs fmt tagtab = none ↔
    field fmt.toNat 0 2 = 3 ∨ field fmt.toNat 3 2 = 3
      ∨ (field fmt.toNat 0 2 = 0 ∧ ¬ (1 ≤ field fmt.toNat 5 5 ∧ field fmt.toNat 5 5 ≤ 16
        ∧ 1 ≤ field fmt.toNat 10 4 ∧ field fmt.toNat 10 4 ≤ 8)) := by
  have hfam := familyOfField_eq_none_iff (n := field fmt.toNat 0 2) (Nat.mod_lt _ (by decide))
  have hrefill := refillOfField_eq_none_iff (n := field fmt.toNat 3 2) (Nat.mod_lt _ (by decide))
  have hpfx := familyOfField_eq_pfx_iff (field fmt.toNat 0 2)
  rw [← hfam, ← hrefill, ← hpfx, Format.ofRegs]
  cases Family.ofField (field fmt.toNat 0 2) with
  | none => simp
  | some fam =>
    cases RefillWidth.ofField (field fmt.toNat 3 2) with
    | none => simp
    | some r => simp

theorem geometryLegal_iff (s : State) : geometryLegal s = true ↔ imageLegal s := by
  simp only [geometryLegal, imageLegal, Bool.and_eq_true, Bool.or_eq_true, Bool.not_eq_true', decide_eq_true_eq,
    and_assoc, ← Bool.not_eq_true, imp_iff_not_or]

/-- The checks of a delta slot (46_delta_pixel.md R250), as the disjunction of what fails. -/
theorem not_imageLegal_iff (s : State) : ¬ imageLegal s ↔
    dpChannels s < 1 ∨ 4 < dpChannels s ∨ (dpAlpha s = true ∧ dpChannels s ≠ 4)
      ∨ s.outLen.toNat ≠ dpWidth s * dpHeight s * dpChannels s := by
  simp only [imageLegal, not_and_or, not_le, Classical.not_imp, Ne]

theorem illegalSlot_iff (s : State) (v : Fin 4) : illegalSlot s v ↔
    Format.ofRegs s.fmt[v] s.tagtab[v] = none ∨ (fmtFamily s v = 2 ∧ ¬ imageLegal s) := by
  rw [formatOfRegs_eq_none_iff, not_imageLegal_iff]
  simp only [field_eq, illegalSlot, fmtFamily, pow_zero, Nat.div_one, or_assoc, Nat.reducePow]

theorem slotFormat_eq_none_iff (s : State) (v : Fin 4) : slotFormat s v = none ↔ illegalSlot s v := by
  rw [illegalSlot_iff, ← geometryLegal_iff, ← familyOfField_eq_delta_iff, slotFormat]
  cases hf : Format.ofRegs s.fmt[v] s.tagtab[v] with
  | none => simp
  | some f =>
    have hfam : Family.ofField (fmtFamily s v) = some f.family := by
      have hfield := (formatOfRegs_some hf).1
      rwa [field_low_eq] at hfield
    rw [hfam]
    simp

theorem exists_slotFormat {s : State} {v : Fin 4} (h : ¬ illegalSlot s v) : ∃ f, slotFormat s v = some f :=
  Option.ne_none_iff_exists'.mp (mt (slotFormat_eq_none_iff s v).mp h)

theorem imageLegal_of_slotFormat {s : State} {v : Fin 4} {f : Format} (h : slotFormat s v = some f)
    (hf : f.family = .delta) : imageLegal s := by
  have hfam := family_of_slotFormat h
  rw [hf, familyOfField_eq_delta_iff] at hfam
  have hlegal := mt (slotFormat_eq_none_iff s v).mpr (by rw [h]; nofun)
  rw [illegalSlot_iff, not_or, not_and, not_not] at hlegal
  exact hlegal.2 hfam

theorem exec_decode_of_not_lengthsLegal {s : State} (v : Fin 4) (h : ¬ lengthsLegal s) :
    exec (.decode v) s = raisesOnly s 6 := by
  have hlen : ¬ (srcLenLegal s = true ∧ outLenLegal s = true) := by rwa [srcLenLegal_iff, outLenLegal_iff]
  exact (if_neg hlen).trans (trap_illegalCommand s)

theorem exec_decode_of_illegalSlot {s : State} {v : Fin 4} (h : illegalSlot s v) :
    exec (.decode v) s = raisesOnly s 6 := by
  by_cases hlen : lengthsLegal s
  · rw [execDecode_of_lengthsLegal v hlen, decodeSlot, (slotFormat_eq_none_iff s v).mpr h]
    exact trap_illegalCommand s
  · exact exec_decode_of_not_lengthsLegal v hlen

/-- Settles O33: the checks one by one; DECODE stands behind them. -/
theorem illegalSlotsAreRefused : Obligations.IllegalSlotsAreRefused := fun s v =>
  ⟨slotFormat_eq_none_iff s v, exec_decode_of_illegalSlot, exec_decode_of_not_lengthsLegal v⟩

/-! ## The loop a family names (43_token_decoder.md R181) -/

theorem runFamily_pfx {f : Format} (h : f.family = .pfx) (s : State) :
    runFamily f s = decodeLoop moreOutput (pfxStep f) (decodeFuel s) s := by
  rw [runFamily, h]

theorem runFamily_byt {f : Format} (h : f.family = .byt) (s : State) :
    runFamily f s = decodeLoop moreOutput (bytStep f) (decodeFuel s) s := by
  rw [runFamily, h]

theorem runFamily_delta {f : Format} (h : f.family = .delta) (s : State) :
    runFamily f s = deltaDecode f s := by
  rw [runFamily, h]

/-! ## An empty output buffer -/

theorem zeroFill_zero (m : Memory) : m.zeroFill 0 = m := by simp [Memory.zeroFill]

/-- With no output to make, no loop of a decode starts (43_token_decoder.md R181). -/
theorem decodeSlot_of_empty {s : State} {v : Fin 4} {f : Format} (hf : slotFormat s v = some f)
    (h : s.outLen = 0) : decodeSlot v s = .done (startDecode f s) := by
  have hlen : s.outLen.toNat = 0 := by rw [h]; rfl
  have hfull : moreOutput (startDecode f s) = false := by
    rw [← Bool.not_eq_true, moreOutput_iff, startDecode_outLen, hlen]
    exact Nat.not_lt_zero _
  rw [decodeSlot_of_slotFormat hf]
  cases hfam : f.family with
  | pfx => rw [runFamily_pfx hfam, decodeLoop_stop _ _ _ _ hfull]
  | byt => rw [runFamily_byt hfam, decodeLoop_stop _ _ _ _ hfull]
  | delta =>
    obtain ⟨hchan, _, _, harea⟩ := imageLegal_of_slotFormat hf hfam
    have hpix : dpWidth s * dpHeight s = 0 := by
      rw [hlen] at harea
      exact (Nat.mul_eq_zero.mp harea.symm).resolve_right (by omega)
    have helems : moreElems (startDecode f s) = false := by
      rw [← Bool.not_eq_true, moreElems_iff]
      show ¬ 0 < dpWidth s * dpHeight s * _
      rw [hpix, Nat.zero_mul]
      exact Nat.not_lt_zero _
    have hpairs : ∀ c, morePairs (withCursor (startDecode f s) c) = false := fun c => by
      rw [← Bool.not_eq_true, morePairs_iff]
      show ¬ _ < dpWidth s * dpHeight s
      rw [hpix]
      exact Nat.not_lt_zero _
    rw [runFamily_delta hfam, deltaDecode_of_done (decodeLoop_stop _ _ _ _ helems)]
    split
    · exact decodeLoop_stop _ _ _ _ (hpairs _)
    · rfl

/-- The state of an empty decode: a new cursor, and `OUT` as it was (43_token_decoder.md R181). -/
theorem startDecode_of_empty {s : State} {v : Fin 4} {f : Format} (hf : slotFormat s v = some f)
    (h : s.outLen = 0) : startDecode f s = { s with
      cur := { bpos := 0, cache := 0, cbits := 0, mode := BitVec.ofNat 3 (s.fmt[v].toNat / 4 % 8) }
      opos := 0, status := { s.status with early := false } } := by
  have hzero : s.out.zeroFill s.outLen.toNat = s.out := by
    rw [h]
    exact zeroFill_zero s.out
  rw [startDecode, BitCursor.fresh, mode_of_slotFormat hf, hzero]

/-! ## The preferred candidate -/

theorem probeLegal_iff (s : State) : probeLegal s = true ↔
    probeConfigured s ∧ ∀ v < probeCount s, (slotFormat s (Fin.ofNat 4 v)).isSome = true := by
  simp only [probeLegal, probeConfigured, lengthsLegal, Bool.and_eq_true, decide_eq_true_eq, srcLenLegal_iff,
    outLenLegal_iff, List.all_eq_true, List.mem_range, and_assoc]

/-- PROBE starts its loop where its checks pass, over at least one candidate (45_variant_prober.md R230). -/
theorem execProbe_of_legal {s : State} (hcfg : probeConfigured s)
    (hslots : ∀ v : Fin 4, v.val < probeCount s → ¬ illegalSlot s v) :
    exec .probe s = probeLoop (probeCount s) (probeCount s) 0 0 s := by
  have hlegal : probeLegal s = true := by
    refine (probeLegal_iff s).mpr ⟨hcfg, fun v hv => ?_⟩
    obtain ⟨_, hle, _⟩ := hcfg
    obtain ⟨f, hf⟩ := exists_slotFormat (hslots (Fin.ofNat 4 v) (by rw [Fin.val_ofNat]; omega))
    rw [hf]
    rfl
  exact if_pos hlegal

/-- A candidate whose decode ends well and plausibly is accepted (45_variant_prober.md R230, R234). -/
theorem probeLoop_of_plausible {n m k : Nat} {last : BitVec 3} {s t : State} (hm : 1 ≤ m)
    (hd : decodeSlot (candidate s n k) s = .done t) (hp : plausible t = true) :
    probeLoop n m k last s = .next (acceptSlot (candidate s n k) t) := by
  obtain ⟨m, rfl⟩ := Nat.exists_eq_add_of_le' hm
  rw [probeLoop, hd]
  exact if_pos hp

/-- The first candidate is the preferred slot (45_variant_prober.md R231). -/
theorem candidate_zero {s : State} {n : Nat} (h : s.vstate.toNat < n) :
    candidate s n 0 = Fin.ofNat 4 s.vstate.toNat := by
  rw [candidate, Nat.add_zero, Nat.mod_eq_of_lt h]

theorem plausible_of_fullOut {s : State} (hp : probePlaus s = 2) (h : s.opos = s.outLen) : plausible s = true := by
  rw [plausible, hp]
  exact decide_eq_true h

theorem ofNat_vstate (x : BitVec 2) : BitVec.ofNat 2 (Fin.ofNat 4 x.toNat).val = x := by
  apply BitVec.eq_of_toNat_eq
  rw [BitVec.toNat_ofNat, Fin.val_ofNat]
  omega

/-- Settles O34: no loop starts, so the decode ends as it started, and PROBE accepts it. -/
theorem emptyDecodeAndProbeComplete : Obligations.EmptyDecodeAndProbeComplete := by
  intro s hout hlen cursor flags
  refine ⟨fun v hslot => ?_, fun hcfg hplaus hslots => ?_⟩
  · obtain ⟨f, hf⟩ := exists_slotFormat hslot
    rw [execDecode_of_lengthsLegal v hlen, decodeSlot_of_empty hf hout, startDecode_of_empty hf hout]
    rfl
  · intro v
    have ⟨hone, _, _, hpref, _⟩ := hcfg
    have hcand : candidate s (probeCount s) 0 = v := candidate_zero hpref
    have hv : v.val < probeCount s := by
      show (Fin.ofNat 4 s.vstate.toNat).val < _
      rw [Fin.val_ofNat]
      omega
    have hused : BitVec.ofNat 2 v.val = s.vstate := ofNat_vstate s.vstate
    obtain ⟨f, hf⟩ := exists_slotFormat (hslots v hv)
    have hdone := decodeSlot_of_empty hf hout
    rw [← hcand] at hdone
    rw [execProbe_of_legal hcfg hslots, probeLoop_of_plausible hone hdone (plausible_of_fullOut hplaus hout.symm),
      hcand, startDecode_of_empty hf hout, acceptSlot, hused]
    show _ = Host.Outcome.next { s with
      cur := cursor v, opos := 0, status := { flags v with vused := BitVec.ofNat 2 v.val } }
    rw [hused]
    rfl

end Sys2Proof.Machine
end

section
/-! PROOFS. A BYTE decode over one literal run that fills the buffer (O35; 43_token_decoder.md R181; 44_token_byte.md
R210, R214). -/

namespace Sys2Proof.Machine

open Sys2Proof

/-! ## A cursor at a byte of the stream -/

theorem StandsAt.bitpos_eq {e : Reader} {j : Nat} {c : BitCursor} (h : StandsAt e j c) : bitpos c = j := by
  have hpos := h.position
  rw [bitpos]
  omega

/-- Reading `n` bits moves the place in the stream by `n` (41_bitcursor.md R157). -/
theorem StandsAt.afterTake1 {e : Reader} {j : Nat} {c : BitCursor} (h : StandsAt e j c) (n : Nat)
    (hj : j + n + 31 < 2 ^ 35) : StandsAt e (j + n) (afterTake1 e n c) := by
  induction n generalizing j c with
  | zero => exact h
  | succ n ih =>
    have hnext := ih (take1_of_standsAt h (by omega)).2 (by omega)
    rwa [Nat.add_right_comm] at hnext

/-- Eight bits read at a byte of the stream are that byte, and the cursor then stands at the next one
(41_bitcursor.md R153, R159). -/
theorem take_byte_of_standsAt {e : Reader} {a : Nat} {c : BitCursor} (h : StandsAt e (8 * a) c)
    (ha : a + 5 < 2 ^ 32) : (take e 8 c).1 = (e.byte a).toNat ∧ StandsAt e (8 * (a + 1)) (take e 8 c).2 := by
  refine ⟨?_, ?_⟩
  · rw [take_value, takenBits_of_standsAt h 8 (by omega), streamBits_byte, bitsValue_fieldBits]
    exact Nat.mod_eq_of_lt (e.byte a).isLt
  · rw [take_cursor]
    exact h.afterTake1 8 (by omega)

theorem standsAt_afterBytes {e : Reader} {a : Nat} {c : BitCursor} (h : StandsAt e (8 * a) c) (n : Nat)
    (ha : a + n + 5 < 2 ^ 32) : StandsAt e (8 * (a + n)) (afterBytes e n c) := by
  induction n generalizing a c with
  | zero => exact h
  | succ n ih =>
    have hnext := ih (take_byte_of_standsAt h (by omega)).2 (by omega)
    rwa [show a + 1 + n = a + (n + 1) by omega] at hnext

theorem standsAt_fresh (e : Reader) (o : BitOrder) (w : RefillWidth) : StandsAt e (8 * 0) (BitCursor.fresh o w) :=
  standsAt_of_empty (c := BitCursor.fresh o w) e rfl

/-! ## The reader of a decode is the reader of its cursor -/

theorem order_modeOf (o : BitOrder) (w : RefillWidth) : BitOrder.ofBit ((modeOf o w).toNat % 2 == 1) = o := by
  cases o <;> cases w <;> decide

theorem refill_modeOf (o : BitOrder) (w : RefillWidth) :
    RefillWidth.ofField ((modeOf o w).toNat / 2) = some w := by
  cases o <;> cases w <;> decide

/-- A cursor in the mode of the slot reads a payload as the decode reads its tokens (43_token_decoder.md R181). -/
theorem cursorReader_of_mode {f : Format} {s : State} (h : s.cur.mode = modeOf f.order f.refill) :
    cursorReader s = some (readerFor f s) := by
  have hrefill : s.cur.refill? = some f.refill := by
    rw [BitCursor.refill?, h, refill_modeOf]
  have horder : s.cur.order = f.order := by
    rw [BitCursor.order, h, order_modeOf]
  rw [cursorReader, hrefill, readerFor, horder]

/-! ## The run -/

/-- A control byte of at most 62 that is not the terminator heads a literal run of that many bytes (44_token_byte.md
R210, R214). -/
theorem fetchByt_of_literal {f : Format} {e : Reader} {c : BitCursor} {n : Nat} (hn : n ≤ 62)
    (hb : (take e 8 c).1 = n) (hterm : f.term.toNat ≠ n) :
    fetchByt f e c = (.litrun (BitVec.ofNat 16 n) .inline, (take e 8 c).2) := by
  have hne : BitVec.ofNat 8 n ≠ f.term := fun h => hterm (by rw [← h, BitVec.toNat_ofNat]; omega)
  have hfield : field n 0 6 = n := by rw [field_eq]; omega
  have hesc : ¬ (f.escEn = true ∧ n = 63) := by omega
  rw [fetchByt, hb, if_neg hne, fetchBytBody, if_neg (by rw [field_eq]; omega), if_neg (by rw [field_eq]; omega),
    hfield, fetchCount, if_neg hesc]
  rfl

theorem bytStep_of_literal {f : Format} {s : State} {n : Nat} (h1 : 1 ≤ n) (hn : n ≤ 62)
    (hmode : s.cur.mode = modeOf f.order f.refill) (hstand : StandsAt (readerFor f s) (8 * 0) s.cur)
    (hb : ((readerFor f s).byte 0).toNat = n) (hterm : f.term.toNat ≠ n)
    (hin : s.opos.toNat + n ≤ s.outLen.toNat) (hsrc : n + 1 ≤ s.srcLen.toNat) :
    ∃ c, StandsAt (readerFor f s) (8 * (1 + n)) c
      ∧ ∃ m, stored .out m s.out s.opos.toNat n (fun i => (readerFor f s).byte (1 + i))
      ∧ bytStep f s = .emitted { s with cur := c, out := m, opos := s.opos + BitVec.ofNat 32 n } := by
  obtain ⟨hcontrol, hnext⟩ := take_byte_of_standsAt hstand (by decide)
  rw [hb] at hcontrol
  have hfetch := fetchByt_of_literal hn hcontrol hterm
  have hcount : (BitVec.ofNat 16 n).toNat = n := by
    rw [BitVec.toNat_ofNat]
    omega
  have hpos : bitpos (take (readerFor f s) 8 s.cur).2 = 8 := hnext.bitpos_eq
  have hover : overrun (withCursor s (take (readerFor f s) 8 s.cur).2) = false := by
    rw [← Bool.not_eq_true, overrun_iff, withCursor_cur, withCursor_srcLen]
    rw [bitpos] at hpos
    omega
  have hpay : bitpos (take (readerFor f s) 8 s.cur).2 + 8 * ((BitVec.ofNat 16 n).toNat : Int)
      ≤ 8 * (s.srcLen.toNat : Int) := by
    rw [hpos, hcount]
    omega
  have hreader : cursorReader (withCursor s (take (readerFor f s) 8 s.cur).2) = some (readerFor f s) :=
    cursorReader_of_mode ((take_mode _ 8 s.cur).trans hmode)
  refine ⟨_, standsAt_afterBytes hnext n (by omega), _, stored_congr (stored_payload s.out s.opos.toNat
    (readerFor f s) n (take (readerFor f s) 8 s.cur).2) fun i hi => ?_, ?_⟩
  · rw [(take_byte_of_standsAt (standsAt_afterBytes hnext i (by omega)) (by omega)).1, BitVec.ofNat_toNat,
      BitVec.setWidth_eq]
  · rw [bytStep_of_fetch hfetch, bytRun, bytLitrun_of_present hover (by omega) (by rw [hcount]; exact hin) hpay,
      hcount, emitPayload_of_reader hreader hin]
    rfl

theorem stored_trans {sp : Space} {m m1 m0 : Memory} {a n : Nat} {b b1 : Nat → Byte} (h : stored sp m m1 a n b)
    (h1 : stored sp m1 m0 a n b1) : stored sp m m0 a n b := by
  intro x
  rw [h x, h1 x]
  split <;> rfl

/-- Settles O35: the first iteration is the literal run, and it leaves the buffer full. -/
theorem decodeCopiesALiteralRun : Obligations.DecodeCopiesALiteralRun := by
  intro s v n hlen hslot hfam hout h1 hn hb hterm hsrc
  obtain ⟨f, hf⟩ := exists_slotFormat hslot
  have hbyt : f.family = .byt := by
    have hfield := family_of_slotFormat hf
    rw [hfam] at hfield
    exact (Option.some.inj hfield).symm
  obtain ⟨_, _, _, _, _, _, _, hfterm, _⟩ := readsSlot_of_slotFormat hf
  have hsrcLen := hlen.1
  have hbyte : ∀ a ≤ n, (readerFor f (startDecode f s)).byte a = s.src.read .src a := fun a ha =>
    if_pos (show a < s.srcLen.toNat by omega)
  have hin : (startDecode f s).opos.toNat + n ≤ (startDecode f s).outLen.toNat := by
    show 0 + n ≤ s.outLen.toNat
    omega
  obtain ⟨c, hstand, m, hm, hstep⟩ := bytStep_of_literal (s := startDecode f s) h1 hn rfl (standsAt_fresh _ _ _)
    (by rw [hbyte 0 (by omega), hb]) (by rw [hfterm]; exact hterm) hin hsrc
  have hopos : (startDecode f s).opos + BitVec.ofNat 32 n = s.outLen := by
    rw [← hout, BitVec.ofNat_toNat, BitVec.setWidth_eq]
    exact BitVec.zero_add _
  rw [hopos] at hstep
  have hfirst : moreOutput (startDecode f s) = true := (moreOutput_iff _).mpr (by omega)
  have hloop : decodeSlot v s = .done { startDecode f s with cur := c, out := m, opos := s.outLen } := by
    rw [decodeSlot_of_slotFormat hf, runFamily_byt hbyt]
    refine (decodeLoop_of_emitted _ hfirst hstep).trans (decodeLoop_stop _ _ _ _ ?_)
    exact decide_eq_false (lt_irrefl _)
  refine ⟨c, m, ?_, ?_, ?_⟩
  · rw [execDecode_of_lengthsLegal v hlen, hloop]
    rfl
  · rw [hstand.bitpos_eq]
    push_cast
    ring
  · have hzero : stored .out (startDecode f s).out s.out 0 n (fun _ => 0) := by
      rw [← hout]
      exact stored_zeroFill s.out s.outLen.toNat
    exact stored_congr (stored_trans hm hzero) fun i hi => hbyte (1 + i) (by omega)

end Sys2Proof.Machine
end

section
/-! PROOFS. How every decode of a legal slot ends (O36; 43_token_decoder.md R181, R193, R197; 60_exceptions.md R347):
what each fetch and each iteration leaves, one rule for the passes of every family, and the passes put together. -/

namespace Sys2Proof.Machine

open Sys2Proof

/-! ## A fetch keeps the cursor's mode -/

theorem fetchX16_mode (e : Reader) (c : BitCursor) : (fetchX16 e c).2.mode = c.mode :=
  (take_mode e 8 _).trans (take_mode e 8 c)

theorem fetchCount_mode (f : Format) (e : Reader) (n max bias : Nat) (c : BitCursor) :
    (fetchCount f e n max bias c).2.mode = c.mode := by
  unfold fetchCount
  split
  · exact fetchX16_mode e c
  · rfl

theorem fetchBytBody_mode (f : Format) (e : Reader) (b : Nat) (c : BitCursor) :
    (fetchBytBody f e b c).2.mode = c.mode := by
  unfold fetchBytBody
  split
  · dsimp only
    split
    · exact (fetchX16_mode e _).trans (fetchCount_mode ..)
    · exact (take_mode e 8 _).trans (fetchCount_mode ..)
  · split
    · dsimp only
      split
      · exact (take_mode e 8 _).trans ((take_mode e 8 _).trans (fetchCount_mode ..))
      · exact (take_mode e 8 _).trans (fetchCount_mode ..)
    · exact fetchCount_mode ..

theorem fetchByt_mode (f : Format) (e : Reader) (c : BitCursor) : (fetchByt f e c).2.mode = c.mode := by
  unfold fetchByt
  dsimp only
  split
  · exact take_mode e 8 c
  · exact (fetchBytBody_mode f e _ _).trans (take_mode e 8 c)

theorem fetchCopy_mode (f : Format) (e : Reader) (c : BitCursor) : (fetchCopy f e c).2.mode = c.mode := by
  unfold fetchCopy
  dsimp only
  split
  · exact take_mode e _ c
  · split
    · exact (take_mode e 16 _).trans ((take_mode e _ _).trans (take_mode e _ c))
    · exact (take_mode e _ _).trans (take_mode e _ c)

theorem fetchPfxBody_mode (f : Format) (e : Reader) (k : PfxKind) (c : BitCursor) :
    (fetchPfxBody f e k c).2.mode = c.mode := by
  cases k with
  | lit | run2 | run3 => exact take_mode e 8 c
  | copy => exact fetchCopy_mode f e c

theorem fetchPfx_mode (f : Format) (e : Reader) (c : BitCursor) : (fetchPfx f e c).2.mode = c.mode := by
  unfold fetchPfx
  dsimp only
  split
  · exact take_mode e 3 c
  · exact (fetchPfxBody_mode f e _ _).trans (take_mode e _ c)

theorem unaryPrefix_mode (e : Reader) (m k : Nat) (c : BitCursor) : (unaryPrefix e m k c).2.mode = c.mode := by
  induction m generalizing k c with
  | zero => rw [unaryPrefix]; split <;> exact take_mode e 1 c
  | succ m ih =>
    rw [unaryPrefix]
    split
    · exact take_mode e 1 c
    · exact (ih _ _).trans (take_mode e 1 c)

theorem signMap_mode (f : Format) (e : Reader) (u : Nat) (c : BitCursor) : (signMap f e u c).2.mode = c.mode := by
  unfold signMap
  split_ifs
  · rfl
  · exact take_mode e 1 c
  · rfl

theorem fetchElem_mode (f : Format) (e : Reader) (c : BitCursor) : (fetchElem f e c).2.mode = c.mode := by
  have hpre := (unaryPrefix_mode e Config.unaryMax 0 (take e 2 c).2).trans (take_mode e 2 c)
  unfold fetchElem
  dsimp only
  split
  · exact hpre
  · exact (signMap_mode f e _ _).trans ((take_mode e _ _).trans hpre)

theorem fetchPair_mode (e : Reader) (c : BitCursor) : (fetchPair e c).2.mode = c.mode :=
  (take_mode e 8 _).trans (take_mode e 8 c)

/-! ## One iteration -/

/-- The early end an iteration on `s` comes to where it fetched a terminator (43_token_decoder.md R197). -/
def EndsEarly (s : State) (r : TokenEnd) : Prop :=
  ∃ c : BitCursor, c.mode = s.cur.mode ∧ r = .ended (setEarly (withCursor s c))

theorem pfxStep_cases (f : Format) (s : State) :
    Yields s (Appends s) (pfxStep f s) ∨ EndsEarly s (pfxStep f s) := by
  have hmode := fetchPfx_mode f (readerFor f s) s.cur
  unfold pfxStep pfxFetched
  split
  · exact .inl ((yields_undefinedCode _ _).of_withCursor hmode)
  case h_2 t _ =>
    by_cases ht : t = .term
    · exact .inr ⟨_, hmode, by rw [ht]; rfl⟩
    · exact .inl (Yields.of_withCursor hmode (yields_pfxRun ht _))

theorem bytStep_cases (f : Format) (s : State) :
    Yields s (Appends s) (bytStep f s) ∨ EndsEarly s (bytStep f s) := by
  have hmode := fetchByt_mode f (readerFor f s) s.cur
  unfold bytStep bytFetched
  by_cases ht : (fetchByt f (readerFor f s) s.cur).1 = .term
  · exact .inr ⟨_, hmode, by rw [ht]; rfl⟩
  · exact .inl (Yields.of_withCursor hmode (yields_bytRun ht _))

theorem yields_elemStep (f : Format) (s : State) : Yields s (WritesSample s) (elemStep f s) := by
  have hmode := fetchElem_mode f (readerFor f s) s.cur
  unfold elemStep elemFetched
  split
  · exact (yields_undefinedCode _ _).of_withCursor hmode
  · exact Yields.of_withCursor hmode (yields_dpxElem _ _ _)

theorem yields_pairStep (f : Format) (s : State) : Yields s (WritesRun s) (pairStep f s) :=
  Yields.of_withCursor (fetchPair_mode (readerFor f s) s.cur) (yields_dpxApair _ _ _)

/-! ## A decode in progress -/

/-- `t` is what a decode from `s` may have made so far: the cursor in a legal mode, `OPOS` inside `OUT`, nothing
changed at or past its length, `EARLY` as given, and for a token family (`tok`) zeros from `OPOS` on
(43_token_decoder.md R181, R193). -/
inductive Produced (s : State) (tok : Prop) (early : Bool) : State → Prop
  | intro (c : BitCursor) (p : Word) (m : Memory) (legal : c.refill? ≠ none) (inside : p.toNat ≤ s.outLen.toNat)
      (beyond : KeepsBeyond s m)
      (rest : tok → ∀ a, p.toNat ≤ a → a < s.outLen.toNat → m.read .out a = 0) :
      Produced s tok early { s with cur := c, opos := p, out := m, status := { s.status with early := early } }

section

variable {s t : State} {tok : Prop} {early : Bool}

theorem produced_startDecode (s : State) (tok : Prop) (f : Format) : Produced s tok false (startDecode f s) := by
  refine .intro (BitCursor.fresh f.order f.refill) 0 (s.out.zeroFill s.outLen.toNat) ?_ (Nat.zero_le _)
    (fun a ha => ?_) (fun _ a _ ha => ?_)
  · rw [BitCursor.refill?, BitCursor.fresh, refill_modeOf]
    nofun
  · rw [Memory.read_zeroFill, if_neg (by omega)]
  · rw [Memory.read_zeroFill, if_pos ha]

/-- A decode leaves the length of `OUT` and the geometry of the image as they are. -/
theorem Produced.config (h : Produced s tok early t) : t.outLen = s.outLen ∧ pixelCount t = pixelCount s
    ∧ deltaColumns t = deltaColumns s := by
  cases h
  exact ⟨rfl, rfl, rfl⟩

theorem refill?_of_mode {c c' : BitCursor} (h : c.mode = c'.mode) : c.refill? = c'.refill? := by
  rw [BitCursor.refill?, h, BitCursor.refill?]

theorem Produced.legal (h : Produced s tok early t) : t.cur.refill? ≠ none := by
  cases h
  assumption

theorem Produced.inside (h : Produced s tok early t) : t.opos.toNat ≤ s.outLen.toNat := by
  cases h
  assumption

theorem Produced.withCursor (h : Produced s tok early t) {c : BitCursor} (hc : c.mode = t.cur.mode) :
    Produced s tok early (withCursor t c) := by
  cases h with | intro c' p m legal inside beyond rest =>
  exact .intro c p m (refill?_of_mode hc ▸ legal) inside beyond rest

/-- An early end stands where the decode stood. -/
theorem Produced.setEarly (h : Produced s tok early t) : Produced s tok true (setEarly t) := by
  cases h with | intro c p m legal inside beyond rest =>
  exact .intro c p m legal inside beyond rest

/-- `n` more bytes of output, no further than `limit`: nothing at or past the length of `OUT` changes, and for a
token family nothing past the new `OPOS` either. -/
def Extends (tok : Prop) (limit : Nat) (t : State) (n : Nat) (m : Memory) : Prop :=
  t.opos.toNat + n ≤ limit ∧ KeepsBeyond t m
    ∧ (tok → ∀ a, t.opos.toNat + n ≤ a → m.read .out a = t.out.read .out a)

theorem toNat_add_ofNat {x : Word} {n : Nat} (h : x.toNat + n < 2 ^ 32) :
    (x + BitVec.ofNat 32 n).toNat = x.toNat + n := by
  rw [BitVec.toNat_add, BitVec.toNat_ofNat]
  omega

theorem Produced.extend {c : BitCursor} {n : Nat} {m : Memory} (h : Produced s tok early t)
    (hc : c.mode = t.cur.mode) (hm : Extends tok s.outLen.toNat t n m) :
    Produced s tok early { t with cur := c, out := m, opos := t.opos + BitVec.ofNat 32 n } := by
  obtain ⟨hle, hbeyond, hrest⟩ := hm
  have hrange := s.outLen.isLt
  have hopos := toNat_add_ofNat (x := t.opos) (n := n) (by omega)
  cases h with | intro c' p m' legal inside beyond rest =>
  refine .intro c _ m (refill?_of_mode hc ▸ legal) (by rw [hopos]; exact hle)
    (fun a ha => (hbeyond a ha).trans (beyond a ha)) (fun htok a ha hlt => ?_)
  rw [hopos] at ha
  exact (hrest htok a ha).trans (rest htok a (Nat.le_of_add_right_le ha) hlt)

theorem Extends.mono {limit limit' n : Nat} {m : Memory} (h : Extends tok limit t n m) (hle : limit ≤ limit') :
    Extends tok limit' t n m :=
  ⟨h.1.trans hle, h.2⟩

/-- The bytes a token appends extend the output of its family (43_token_decoder.md R194 to R196). -/
theorem Appends.extends {n : Nat} {m : Memory} (h : Appends t n m) (tok : Prop) :
    Extends tok t.outLen.toNat t n m := by
  obtain ⟨hin, b, hb⟩ := h
  have houtside : ∀ a, t.opos.toNat + n ≤ a → m.read .out a = t.out.read .out a := fun a ha =>
    (hb a).trans (if_neg (by omega))
  exact ⟨hin, fun a ha => houtside a (hin.trans ha), fun _ => houtside⟩

end

/-! ## A pass -/

/-- How a pass that may write up to `limit` ends: there, early before it, which is for a token family only, or by an
exception. -/
inductive PassEnds (s : State) (tok : Prop) (limit : Nat) : DecodeEnd → Prop
  | full (u : State) (h : Produced s tok false u) (hp : u.opos.toNat = limit) : PassEnds s tok limit (.done u)
  | early (u : State) (htok : tok) (h : Produced s tok true u) (hp : u.opos.toNat < limit) :
      PassEnds s tok limit (.done u)
  | raised (e : Exc) (u : State) (he : e.ofDecode = true) (h : Produced s tok false u) :
      PassEnds s tok limit (.raised e u)

/-- A decode in the middle of a pass that began with `OPOS = base`. -/
def InPass (s : State) (tok : Prop) (base limit : Nat) (t : State) : Prop :=
  Produced s tok false t ∧ base ≤ t.opos.toNat ∧ t.opos.toNat ≤ limit

/-- What an iteration of a pass does. -/
def PassStep (tok : Prop) (limit : Nat) (t : State) (r : TokenEnd) : Prop :=
  Advances t r ∧ (Yields t (Extends tok limit t) r ∨ tok ∧ EndsEarly t r)

/-- A pass over `OPOS` from `base` to `limit` ends as `PassEnds` says (43_token_decoder.md R181). -/
theorem passEnds_decodeLoop {s : State} {tok : Prop} {base limit : Nat} {more : State → Bool}
    {body : State → TokenEnd} (hlimit : limit ≤ s.outLen.toNat)
    (hmore : ∀ t, InPass s tok base limit t → (more t = true ↔ t.opos.toNat < limit))
    (hbody : ∀ t, InPass s tok base limit t → t.opos.toNat < limit → PassStep tok limit t (body t))
    {t : State} (h : InPass s tok base limit t) {n : Nat} (hn : limit - t.opos.toNat < n) :
    PassEnds s tok limit (decodeLoop more body n t) := by
  refine decodeLoop_rule more body (InPass s tok base limit) (PassEnds s tok limit)
    (fun u => limit - u.opos.toNat) ?stop ?emit ?fin ?exn n t h hn
  case stop =>
    intro u hu hm
    have hge : ¬ u.opos.toNat < limit := mt (hmore u hu).mpr (by rw [hm]; nofun)
    obtain ⟨hprod, _, hle⟩ := hu
    exact .full u hprod (by omega)
  case emit =>
    intro u u' hu hm hr
    have hlt := (hmore u hu).mp hm
    obtain ⟨hadv, hstep⟩ := hbody u hu hlt
    have hup := hadv u' hr
    obtain ⟨hprod, hbase, _⟩ := hu
    rw [hr] at hstep
    obtain hy | ⟨_, _, _, hend⟩ := hstep
    · cases hy with | emitted c n m hc hm =>
      have hrange := s.outLen.isLt
      have hopos : (u.opos + BitVec.ofNat 32 n).toNat = u.opos.toNat + n := toNat_add_ofNat (by have := hm.1; omega)
      refine ⟨⟨hprod.extend hc (hm.mono hlimit), hbase.trans hup.le, ?_⟩, by omega⟩
      exact hopos.trans_le hm.1
    · cases hend
  case fin =>
    intro u u' hu hm hr
    have hlt := (hmore u hu).mp hm
    obtain ⟨_, hstep⟩ := hbody u hu hlt
    obtain ⟨hprod, _, _⟩ := hu
    obtain hy | ⟨htok, c, hc, hend⟩ := hstep
    · exact absurd hr (hy.ne_ended u')
    · rw [hr] at hend
      cases hend
      exact .early _ htok (hprod.withCursor hc).setEarly hlt
  case exn =>
    intro u e u' hu hm hr
    obtain ⟨_, hstep⟩ := hbody u hu ((hmore u hu).mp hm)
    obtain ⟨hprod, _, _⟩ := hu
    rw [hr] at hstep
    obtain hy | ⟨_, _, _, hend⟩ := hstep
    · cases hy with | raised c _ hc he =>
      exact .raised e _ (he.resolve_right hprod.legal) (hprod.withCursor hc)
    · cases hend

/-! ## The passes of the families -/

/-- The loop of a token family is one pass up to `OUT_LEN` (43_token_decoder.md R181). -/
theorem passEnds_tokenLoop {s : State} {tok : Prop} (htok : tok) {body : State → TokenEnd}
    (hadv : ∀ t, Advances t (body t)) (hbody : ∀ t, Yields t (Appends t) (body t) ∨ EndsEarly t (body t))
    (f : Format) : PassEnds s tok s.outLen.toNat
      (decodeLoop moreOutput body (decodeFuel (startDecode f s)) (startDecode f s)) := by
  have hstart := produced_startDecode s tok f
  refine passEnds_decodeLoop (base := 0) (le_refl _) (fun t ht => ?_) (fun t ht _ => ⟨hadv t, ?_⟩)
    ⟨hstart, Nat.zero_le _, hstart.inside⟩ (Nat.lt_succ_of_le (Nat.sub_le _ _))
  · rw [moreOutput_iff, ht.1.config.1]
  · refine (hbody t).imp (fun h => h.mono fun n m hm => ?_) fun h => ⟨htok, h⟩
    rw [← ht.1.config.1]
    exact hm.extends tok

/-- The delta pass writes the samples of the columns it codes (46_delta_pixel.md R251). -/
theorem passEnds_deltaPass {s : State} {tok : Prop} (htok : ¬ tok) (himage : imageLegal s) (f : Format) :
    PassEnds s tok (pixelCount s * deltaColumns s)
      (decodeLoop moreElems (elemStep f) (decodeFuel (startDecode f s)) (startDecode f s)) := by
  have hle := deltaSamples_le_outLen himage
  have hrange := s.outLen.isLt
  have hfuel : decodeFuel (startDecode f s) = s.outLen.toNat + 1 := rfl
  refine passEnds_decodeLoop (base := 0) hle (fun t ht => ?_) (fun t ht hlt => ⟨?_, .inl ?_⟩)
    ⟨produced_startDecode s tok f, Nat.zero_le _, Nat.zero_le _⟩ (by omega)
  · obtain ⟨_, hpix, hcols⟩ := ht.1.config
    rw [moreElems, decide_eq_true_iff, hpix, hcols]
  · exact advances_elemStep f (by omega)
  · refine (yields_elemStep f t).mono fun n m ⟨hn, hbeyond⟩ => ⟨?_, hbeyond, fun h => absurd h htok⟩
    omega

/-- The alpha pass writes the last channel of every pixel (46_delta_pixel.md R260). -/
theorem passEnds_alphaPass {s : State} {tok : Prop} (htok : ¬ tok) (himage : imageLegal s)
    (halpha : dpAlpha s = true) (f : Format) {t : State} (h : Produced s tok false t)
    (hp : t.opos.toNat = 3 * pixelCount s) {n : Nat} (hn : s.outLen.toNat < n) :
    PassEnds s tok s.outLen.toNat (decodeLoop morePairs (pairStep f) n t) := by
  have hlen := alphaSamples_eq_outLen himage halpha
  have hrange := s.outLen.isLt
  refine passEnds_decodeLoop (base := 3 * pixelCount s) (le_refl _) (fun u hu => ?_)
    (fun u hu hlt => ⟨?_, .inl ?_⟩) ⟨h, hp.ge, h.inside⟩ (by omega)
  · obtain ⟨hprod, hbase, _⟩ := hu
    rw [morePairs, decide_eq_true_iff, alphaDone, hprod.config.2.1]
    omega
  · exact advances_pairStep f (by rw [hu.1.config.2.1]; omega)
  · obtain ⟨hprod, hbase, _⟩ := hu
    refine (yields_pairStep f u).mono fun n m ⟨hrun, hbeyond⟩ => ⟨?_, hbeyond, fun h => absurd h htok⟩
    rw [alphaDone, hprod.config.2.1] at hrun
    omega

theorem passEnds_deltaDecode {s : State} {tok : Prop} (htok : ¬ tok) (himage : imageLegal s) (f : Format) :
    PassEnds s tok s.outLen.toNat (deltaDecode f (startDecode f s)) := by
  have hpass := passEnds_deltaPass htok himage f
  generalize hr : decodeLoop moreElems (elemStep f) (decodeFuel (startDecode f s)) (startDecode f s) = r at hpass
  cases hpass with
  | early u h _ _ => exact absurd h htok
  | raised e u he h =>
    rw [deltaDecode_of_raised hr]
    exact .raised e u he h
  | full u h hp =>
    rw [deltaDecode_of_done hr]
    split
    case isTrue halpha =>
      have halpha : dpAlpha s = true := halpha
      have hp : u.opos.toNat = 3 * pixelCount s := by
        rw [hp, deltaColumns, if_pos halpha, Nat.mul_comm]
      exact passEnds_alphaPass htok himage halpha f (h.withCursor (c := alignByte u.cur) rfl) hp
        (Nat.lt_succ_self s.outLen.toNat)
    case isFalse halpha =>
      have halpha : ¬ dpAlpha s = true := halpha
      obtain ⟨_, _, _, hlen⟩ := himage
      refine .full u h ?_
      rw [hp, hlen, deltaColumns, if_neg halpha, pixelCount]

/-- Everything a decode of a legal slot can end in. -/
theorem passEnds_decodeSlot {s : State} {v : Fin 4} (h : ¬ illegalSlot s v) :
    PassEnds s (fmtFamily s v ≠ 2) s.outLen.toNat (decodeSlot v s) := by
  obtain ⟨f, hf⟩ := exists_slotFormat h
  have hfam := family_of_slotFormat hf
  have hdelta := familyOfField_eq_delta_iff (fmtFamily s v)
  rw [hfam, Option.some.injEq] at hdelta
  rw [decodeSlot_of_slotFormat hf]
  cases hfamily : f.family with
  | pfx =>
    rw [runFamily_pfx hfamily]
    exact passEnds_tokenLoop (mt hdelta.mpr (by rw [hfamily]; nofun)) (advances_pfxStep f) (pfxStep_cases f) f
  | byt =>
    rw [runFamily_byt hfamily]
    exact passEnds_tokenLoop (mt hdelta.mpr (by rw [hfamily]; nofun)) (advances_bytStep f) (bytStep_cases f) f
  | delta =>
    rw [runFamily_delta hfamily]
    exact passEnds_deltaDecode (not_not_intro (hdelta.mp hfamily)) (imageLegal_of_slotFormat hf hfamily) f

theorem raise_ofDecode {e : Exc} (he : e.ofDecode = true) (s : State) :
    (raise e 0 s).status = raisedStatus 1 0 ∨ (raise e 0 s).status = raisedStatus 2 0
      ∨ (raise e 0 s).status = raisedStatus 3 0 := by
  cases e with
  | boundsViolation => exact .inl rfl
  | unrecognizedControlCode => exact .inr (.inl rfl)
  | truncatedInput => exact .inr (.inr rfl)
  | implausibleResult | formatError | illegalCommand => cases he

/-- Settles O36: the three ways a decode's passes end, each with what it has produced. -/
theorem decodeEndsFullEarlyOrRaised : Obligations.DecodeEndsFullEarlyOrRaised := by
  intro s v herr hlen hslot
  have hends := passEnds_decodeSlot hslot
  rw [execDecode_of_lengthsLegal v hlen]
  generalize decodeSlot v s = r at hends
  cases hends with
  | full u h hp =>
    cases h with | intro c p m _ inside beyond rest =>
    refine ⟨c, p, m, _, rfl, inside, beyond, rest, fun _ => ?_, fun h => absurd (herr.symm.trans h) nofun⟩
    have hfull : decide (p.toNat < s.outLen.toNat) = false := decide_eq_false hp.not_lt
    rw [hfull]
  | early u _ h hp =>
    cases h with | intro c p m _ inside beyond rest =>
    refine ⟨c, p, m, _, rfl, inside, beyond, rest, fun _ => ?_, fun h => absurd (herr.symm.trans h) nofun⟩
    have hearly : decide (p.toNat < s.outLen.toNat) = true := decide_eq_true hp
    rw [hearly]
  | raised e u he h =>
    cases h with | intro c p m _ inside beyond rest =>
    exact ⟨c, p, m, _, rfl, inside, beyond, rest, nofun, fun _ => raise_ofDecode he s⟩

end Sys2Proof.Machine
end

section
/-! PROOFS. Two decodes over states that differ in `OUT` alone run side by side, for every relation of memories that
gives equal reads and that a store inside the buffer keeps. Equality of reads makes it noninterference (O37);
equality together with what a zero-fill leaves makes it the frame that PROBE needs (O38). -/

namespace Sys2Proof.Machine

open Sys2Proof

/-! ## Memories -/

/-- Memories which `E` relates read alike, and a store below `n` into both keeps `E`. -/
structure Indistinct (n : Nat) (E : Memory → Memory → Prop) : Prop where
  read : ∀ {m m'}, E m m' → ∀ a, m'.read .out a = m.read .out a
  write : ∀ {m m'}, E m m' → ∀ {a}, a < n → ∀ b, E (m.write a b) (m'.write a b)

/-- Every address reads the same. -/
def ReadsAlike (m m' : Memory) : Prop := ∀ a, m'.read .out a = m.read .out a

/-- The same memory, which zeroed below `n` is what `m0` is zeroed below `n`. -/
def KeepsTail (n : Nat) (m0 m m' : Memory) : Prop := m' = m ∧ m.zeroFill n = m0.zeroFill n

theorem indistinct_readsAlike (n : Nat) : Indistinct n ReadsAlike where
  read h := h
  write h a _ b x := by rw [Memory.read_write, Memory.read_write, h x]

theorem indistinct_keepsTail (n : Nat) (m0 : Memory) : Indistinct n (KeepsTail n m0) where
  read h a := by rw [h.1]
  write h a ha b := ⟨by rw [h.1], (Memory.zeroFill_write _ n a b ha).trans h.2⟩

section

variable {n : Nat} {E : Memory → Memory → Prop} {m m' : Memory}

theorem Indistinct.writeBytes (hE : Indistinct n E) (h : E m m') {a : Nat} {bs : List Byte}
    (hin : a + bs.length ≤ n) : E (m.writeBytes a bs) (m'.writeBytes a bs) := by
  induction bs generalizing a m m' with
  | nil => exact h
  | cons b bs ih =>
    rw [List.length_cons] at hin
    exact ih (hE.write h (by omega) b) (by omega)

/-- The copy loop stores what it reads, which is alike (42_overlapcopy.md R171). -/
theorem Indistinct.copyUp (hE : Indistinct n E) (h : E m m') {src dst len : Nat} (hin : dst + len ≤ n) :
    E (m.copyUp src dst len) (m'.copyUp src dst len) := by
  induction len generalizing src dst m m' with
  | zero => exact h
  | succ len ih =>
    rw [Memory.copyUp, Memory.copyUp, hE.read h src]
    exact ih (hE.write h (by omega) _) (by omega)

end

/-! ## States -/

/-- `s'` is `s` but for `OUT`, of length `n`, whose two contents `E` relates. -/
inductive Alike (n : Nat) (E : Memory → Memory → Prop) (s : State) : State → Prop
  | intro (m : Memory) (hn : s.outLen.toNat = n) (h : E s.out m) : Alike n E s { s with out := m }

/-- Two iterations that end the same way, in alike states. -/
inductive AlikeTokenEnd (n : Nat) (E : Memory → Memory → Prop) : TokenEnd → TokenEnd → Prop
  | emitted {s s' : State} (h : Alike n E s s') : AlikeTokenEnd n E (.emitted s) (.emitted s')
  | ended {s s' : State} (h : Alike n E s s') : AlikeTokenEnd n E (.ended s) (.ended s')
  | raised {s s' : State} (e : Exc) (h : Alike n E s s') : AlikeTokenEnd n E (.raised e s) (.raised e s')

/-- Two decodes that end the same way, in alike states. -/
inductive AlikeDecodeEnd (n : Nat) (E : Memory → Memory → Prop) : DecodeEnd → DecodeEnd → Prop
  | done {s s' : State} (h : Alike n E s s') : AlikeDecodeEnd n E (.done s) (.done s')
  | raised {s s' : State} (e : Exc) (h : Alike n E s s') : AlikeDecodeEnd n E (.raised e s) (.raised e s')

section

variable {n : Nat} {E : Memory → Memory → Prop} {s s' : State} {r r' : TokenEnd}

theorem Alike.withCursor (h : Alike n E s s') (c : BitCursor) : Alike n E (withCursor s c) (withCursor s' c) := by
  cases h with | intro m hn h => exact .intro m hn h

theorem Alike.setEarly (h : Alike n E s s') : Alike n E (setEarly s) (setEarly s') := by
  cases h with | intro m hn h => exact .intro m hn h

/-- What a decode reads besides `OUT`. -/
theorem Alike.reads (h : Alike n E s s') : s'.cur = s.cur ∧ (∀ f, readerFor f s' = readerFor f s)
    ∧ cursorReader s' = cursorReader s ∧ overrun s' = overrun s := by
  cases h
  exact ⟨rfl, fun _ => rfl, rfl, rfl⟩

theorem AlikeTokenEnd.afterHeader (hs : Alike n E s s') (h : AlikeTokenEnd n E r r') :
    AlikeTokenEnd n E (afterHeader s r) (afterHeader s' r') := by
  obtain ⟨_, _, _, hover⟩ := hs.reads
  obtain ⟨ho, hr⟩ | ⟨ho, hr⟩ := afterHeader_cases s r
  · rw [hr, afterHeader_of_overrun (hover.trans ho)]
    exact .raised _ hs
  · rwa [hr, afterHeader_of_not_overrun (hover.trans ho)]

/-! ## Tokens -/

theorem alike_undefinedCode (h : Alike n E s s') : AlikeTokenEnd n E (undefinedCode s) (undefinedCode s') :=
  .afterHeader h (.raised _ h)

theorem alike_emitBytes (hE : Indistinct n E) (bs : List Byte) (h : Alike n E s s') :
    AlikeTokenEnd n E (emitBytes bs s) (emitBytes bs s') := by
  have hs := h
  cases h with | intro m hn h =>
  obtain ⟨hin, hr⟩ | ⟨hout, hr⟩ := emitBytes_cases bs s
  · rw [hr, emitBytes_of_inside (s := { s with out := m }) hin]
    exact .emitted (.intro _ hn (hE.writeBytes h (hn ▸ hin)))
  · rw [hr, emitBytes_of_outside (s := { s with out := m }) hout]
    exact .raised _ hs

theorem alike_emitFill (hE : Indistinct n E) (unit : List Byte) (count : Nat) (h : Alike n E s s') :
    AlikeTokenEnd n E (emitFill unit count s) (emitFill unit count s') := by
  unfold emitFill
  split
  · exact .raised _ h
  · exact alike_emitBytes hE _ h

/-- The checks of the copy primitive do not read `OUT` (42_overlapcopy.md R170), so both copies pass or both fail. -/
theorem Alike.overlapCopy (hE : Indistinct n E) (h : Alike n E s s') (src dst len : Nat) :
    Option.Rel E (overlapCopy s src dst len) (overlapCopy s' src dst len) := by
  have hin : inOut s' dst len = inOut s dst len := by cases h; rfl
  unfold Machine.overlapCopy
  rw [hin]
  split_ifs with hle hlen
  · exact .none
  · cases h with | intro m hn h =>
    exact .some (hE.copyUp h (hn ▸ (inOut_iff s dst len).mp hlen))
  · exact .none

theorem alike_emitCopy (hE : Indistinct n E) (offset length : Nat) (h : Alike n E s s') :
    AlikeTokenEnd n E (emitCopy offset length s) (emitCopy offset length s') := by
  have hopos : s'.opos = s.opos := by cases h; rfl
  have hcopy := h.overlapCopy hE (s.opos.toNat - offset) s.opos.toNat length
  unfold emitCopy
  rw [hopos]
  split_ifs
  · exact .raised _ h
  · exact .raised _ h
  · generalize Machine.overlapCopy s _ _ _ = r, Machine.overlapCopy s' _ _ _ = r' at hcopy
    cases hcopy with
    | none => exact .raised _ h
    | some hm =>
      cases h with | intro _ hn _ =>
      exact .emitted (.intro _ hn hm)

theorem alike_emitPayload (hE : Indistinct n E) (len : Nat) (h : Alike n E s s') :
    AlikeTokenEnd n E (emitPayload len s) (emitPayload len s') := by
  obtain ⟨hcur, _, hreader, _⟩ := h.reads
  unfold emitPayload
  rw [hreader, hcur]
  split
  · exact .raised _ h
  · exact alike_emitBytes hE _ (h.withCursor _)

theorem alike_bytLitrun (hE : Indistinct n E) (count : BitVec 16) (h : Alike n E s s') :
    AlikeTokenEnd n E (bytLitrun count s) (bytLitrun count s') := by
  refine .afterHeader h ?_
  have hin : inOut s' s'.opos.toNat count.toNat = inOut s s.opos.toNat count.toNat := by cases h; rfl
  have hpay : payloadPresent s' count.toNat = payloadPresent s count.toNat := by cases h; rfl
  rw [hin, hpay]
  split_ifs
  · exact .raised _ h
  · exact alike_emitPayload hE _ h
  · exact .raised _ h
  · exact .raised _ h

theorem alike_pfxRun (hE : Indistinct n E) (t : PfxToken) (h : Alike n E s s') :
    AlikeTokenEnd n E (pfxRun t s) (pfxRun t s') := by
  cases t with
  | lit v => exact .afterHeader h (alike_emitBytes hE _ h)
  | run2 v => exact .afterHeader h (alike_emitFill hE _ _ h)
  | run3 v => exact .afterHeader h (alike_emitFill hE _ _ h)
  | copy o l form => exact .afterHeader h (alike_emitCopy hE _ _ h)
  | term => exact .ended h.setEarly

theorem alike_bytRun (hE : Indistinct n E) (t : BytToken) (h : Alike n E s s') :
    AlikeTokenEnd n E (bytRun t s) (bytRun t s') := by
  cases t with
  | term => exact .ended h.setEarly
  | litrun count form => exact alike_bytLitrun hE count h
  | fillb count form v => exact .afterHeader h (alike_emitFill hE _ _ h)
  | fillw count form u0 u1 => exact .afterHeader h (alike_emitFill hE _ _ h)
  | copys l form o => exact .afterHeader h (alike_emitCopy hE _ _ h)
  | copyl l form o => exact .afterHeader h (alike_emitCopy hE _ _ h)

/-! ## The delta family -/

/-- A predictor reads `OUT` at one address or not at all (46_delta_pixel.md R253). -/
theorem Alike.predict (hE : Indistinct n E) (h : Alike n E s s') (sel : Predictor) (r x c : Nat) :
    predict s' sel r x c = predict s sel r x c := by
  cases h with | intro m hn h =>
  have hread := hE.read h
  cases sel with
  | left => exact congrArg (ite _ _) (hread _)
  | up => exact congrArg (ite _ _) (hread _)
  | upLeft => exact congrArg (ite _ _) (hread _)
  | ref => rfl

theorem alike_dpxElem (hE : Indistinct n E) (sel : Predictor) (delta : Int) (h : Alike n E s s') :
    AlikeTokenEnd n E (dpxElem sel delta s) (dpxElem sel delta s') := by
  refine .afterHeader h ?_
  have hs := h
  rw [h.predict hE]
  cases h with | intro m hn h =>
  show AlikeTokenEnd n E _ (if inOut s (elemAddr s) 1 then _ else _)
  split_ifs with hin
  · have hlt := (inOut_iff s (elemAddr s) 1).mp hin
    exact .emitted (.intro _ hn (hE.write h (by omega) _))
  · exact .raised _ hs

theorem alphaAddr_lt_outLen {q run : Nat} (h : alphaInOut s q run = true) :
    ∀ i < run, alphaAddr s (q + i) < s.outLen.toNat := fun i hi =>
  (inOut_iff s _ 1).mp (List.all_eq_true.mp h i (List.mem_range.mpr hi))

/-- The addresses of a run do not depend on `OUT` (46_delta_pixel.md R260). -/
theorem Alike.writeAlpha (hE : Indistinct n E) (hs : Alike n E s s') (val : Byte) {q run : Nat} {m m' : Memory}
    (hin : ∀ i < run, alphaAddr s (q + i) < n) (h : E m m') :
    E (writeAlpha s val q run m) (writeAlpha s' val q run m') := by
  have haddr (q : Nat) : alphaAddr s' q = alphaAddr s q := by cases hs; rfl
  induction run generalizing q m m' with
  | zero => exact h
  | succ run ih =>
    rw [Machine.writeAlpha, Machine.writeAlpha, haddr]
    refine ih (fun i hi => ?_) (hE.write h (hin 0 (by omega)) val)
    rw [show q + 1 + i = q + (i + 1) by omega]
    exact hin (i + 1) (by omega)

theorem alike_dpxApair (hE : Indistinct n E) (runm1 value : Byte) (h : Alike n E s s') :
    AlikeTokenEnd n E (dpxApair runm1 value s) (dpxApair runm1 value s') := by
  refine .afterHeader h ?_
  have hs := h
  cases h with | intro m hn h =>
  show AlikeTokenEnd n E _ (if alphaDone s + (runm1.toNat + 1) ≤ pixelCount s
    ∧ alphaInOut s (alphaDone s) (runm1.toNat + 1) then _ else _)
  split_ifs with hin
  · obtain ⟨_, hin⟩ := hin
    have hlt := alphaAddr_lt_outLen hin
    rw [hn] at hlt
    exact .emitted (.intro _ hn (hs.writeAlpha hE value hlt h))
  · exact .raised _ hs

end

/-! ## One iteration of a decode loop -/

/-- From alike states the body ends alike. -/
def KeepsAlike (n : Nat) (E : Memory → Memory → Prop) (body : State → TokenEnd) : Prop :=
  ∀ {s s'}, Alike n E s s' → AlikeTokenEnd n E (body s) (body s')

/-- The loop asks about nothing but what alike states share. -/
def AsksAlike (n : Nat) (E : Memory → Memory → Prop) (more : State → Bool) : Prop :=
  ∀ {s s'}, Alike n E s s' → more s' = more s

section

variable {n : Nat} {E : Memory → Memory → Prop}

theorem keepsAlike_pfxStep (hE : Indistinct n E) (f : Format) : KeepsAlike n E (pfxStep f) := by
  intro s s' h
  obtain ⟨hcur, hreader, _⟩ := h.reads
  unfold pfxStep pfxFetched
  rw [hcur, hreader]
  split
  · exact alike_undefinedCode (h.withCursor _)
  · exact alike_pfxRun hE _ (h.withCursor _)

theorem keepsAlike_bytStep (hE : Indistinct n E) (f : Format) : KeepsAlike n E (bytStep f) := by
  intro s s' h
  obtain ⟨hcur, hreader, _⟩ := h.reads
  unfold bytStep bytFetched
  rw [hcur, hreader]
  exact alike_bytRun hE _ (h.withCursor _)

theorem keepsAlike_elemStep (hE : Indistinct n E) (f : Format) : KeepsAlike n E (elemStep f) := by
  intro s s' h
  obtain ⟨hcur, hreader, _⟩ := h.reads
  unfold elemStep elemFetched
  rw [hcur, hreader]
  split
  · exact alike_undefinedCode (h.withCursor _)
  · exact alike_dpxElem hE _ _ (h.withCursor _)

theorem keepsAlike_pairStep (hE : Indistinct n E) (f : Format) : KeepsAlike n E (pairStep f) := by
  intro s s' h
  obtain ⟨hcur, hreader, _⟩ := h.reads
  unfold pairStep pairFetched
  rw [hcur, hreader]
  exact alike_dpxApair hE _ _ (h.withCursor _)

/-! ## A whole decode -/

theorem alike_decodeLoop {more : State → Bool} {body : State → TokenEnd} (hmore : AsksAlike n E more)
    (hbody : KeepsAlike n E body) (fuel : Nat) {s s' : State} (h : Alike n E s s') :
    AlikeDecodeEnd n E (decodeLoop more body fuel s) (decodeLoop more body fuel s') := by
  induction fuel generalizing s s' with
  | zero => exact .done h
  | succ fuel ih =>
    rw [decodeLoop, decodeLoop, hmore h]
    split
    case isFalse => exact .done h
    case isTrue =>
      have hends := hbody h
      generalize body s = r, body s' = r' at hends
      cases hends with
      | emitted ht => exact ih ht
      | ended ht => exact .done ht
      | raised e ht => exact .raised e ht

theorem alike_deltaDecode (hE : Indistinct n E) (f : Format) {s s' : State} (h : Alike n E s s') :
    AlikeDecodeEnd n E (deltaDecode f s) (deltaDecode f s') := by
  have hfuel {t t' : State} (ht : Alike n E t t') : decodeFuel t' = decodeFuel t := by cases ht; rfl
  have hends := alike_decodeLoop (more := moreElems) (fun ht => by cases ht; rfl) (keepsAlike_elemStep hE f)
    (decodeFuel s) h
  unfold deltaDecode
  rw [hfuel h]
  generalize decodeLoop moreElems (elemStep f) (decodeFuel s) s = r,
    decodeLoop moreElems (elemStep f) (decodeFuel s) s' = r' at hends ⊢
  cases hends with
  | raised e ht => exact .raised e ht
  | @done t t' ht =>
    have halpha : dpAlpha t' = dpAlpha t := by cases ht; rfl
    obtain ⟨hcur, _⟩ := ht.reads
    dsimp only
    rw [halpha]
    split
    · rw [alphaPass, alphaPass, hfuel ht, hcur]
      exact alike_decodeLoop (fun hu => by cases hu; rfl) (keepsAlike_pairStep hE f) _ (ht.withCursor _)
    · exact .done ht

theorem alike_runFamily (hE : Indistinct n E) (f : Format) {s s' : State} (h : Alike n E s s') :
    AlikeDecodeEnd n E (runFamily f s) (runFamily f s') := by
  have hmore : AsksAlike n E moreOutput := fun ht => by cases ht; rfl
  have hfuel : decodeFuel s' = decodeFuel s := by cases h; rfl
  cases hfam : f.family with
  | pfx =>
    rw [runFamily_pfx hfam, runFamily_pfx hfam, hfuel]
    exact alike_decodeLoop hmore (keepsAlike_pfxStep hE f) _ h
  | byt =>
    rw [runFamily_byt hfam, runFamily_byt hfam, hfuel]
    exact alike_decodeLoop hmore (keepsAlike_bytStep hE f) _ h
  | delta =>
    rw [runFamily_delta hfam, runFamily_delta hfam]
    exact alike_deltaDecode hE f h

end

end Sys2Proof.Machine
end

section
/-! PROOFS. A decode starts from scratch (O37; 45_variant_prober.md R232; 20_memory.md R84), and what that makes of the
state one decode leaves to the next. -/

namespace Sys2Proof.Machine

open Sys2Proof

/-! ## What a zero-fill leaves -/

theorem zeroFill_zeroFill (m : Memory) (n : Nat) : (m.zeroFill n).zeroFill n = m.zeroFill n := by
  have hzeros : (((List.range n).map fun a => (a, 0)) : Memory).filter (fun c => decide (n ≤ c.1)) = [] := by
    simp
  simp only [Memory.zeroFill, List.filter_append, hzeros, List.nil_append, List.filter_filter, Bool.and_self]

/-- Memories that read alike from `n` on read alike everywhere once zeroed below it (20_memory.md R84). -/
theorem readsAlike_zeroFill {n : Nat} {m m' : Memory} (h : ∀ a, n ≤ a → m'.read .out a = m.read .out a) :
    ReadsAlike (m.zeroFill n) (m'.zeroFill n) := by
  intro a
  rw [Memory.read_zeroFill, Memory.read_zeroFill]
  split_ifs with ha
  · rfl
  · exact h a (Nat.le_of_not_lt ha)

/-- Canonical memories that list alike from `n` on are equal once zeroed below it (20_memory.md R84). -/
theorem zeroFill_eq_of_listed {n : Nat} {m m' : Memory} (hn : n ≤ 2 ^ 32) (hw : m.wf = true) (hw' : m'.wf = true)
    (h : ∀ a, n ≤ a → m'.listed a = m.listed a) : m'.zeroFill n = m.zeroFill n := by
  refine Memory.eq_of_listed_eq 0 _ _ (Memory.wf_zeroFill m' n hn hw') (Memory.wf_zeroFill m n hn hw) fun a => ?_
  rw [Memory.listed_zeroFill, Memory.listed_zeroFill]
  split_ifs with ha
  · rfl
  · exact h a (Nat.le_of_not_lt ha)

/-! ## The start of a decode -/

/-- `t` is `s` but for what the start of a decode overwrites: the cursor, `OPOS`, `EARLY`, and the bytes of `OUT` that
it zeroes (43_token_decoder.md R181). -/
inductive Restarts (s : State) : State → Prop
  | intro (early : Bool) (c : BitCursor) (p : Word) (m : Memory)
      (hm : m.zeroFill s.outLen.toNat = s.out.zeroFill s.outLen.toNat) :
      Restarts s { s with status := { s.status with early := early }, cur := c, opos := p, out := m }

theorem Restarts.refl (s : State) : Restarts s s := .intro s.status.early s.cur s.opos s.out rfl

/-- A decode of a legal slot has the same end from both states (45_variant_prober.md R232). -/
theorem Restarts.decodeSlot_eq {s t : State} (h : Restarts s t) {v : Fin 4} (hslot : ¬ illegalSlot s v) :
    decodeSlot v t = decodeSlot v s := by
  obtain ⟨f, hf⟩ := exists_slotFormat hslot
  cases h with | intro early c p m hm =>
  have hstart : startDecode f { s with status := { s.status with early := early }, cur := c, opos := p, out := m }
      = startDecode f s := congrArg (fun m => { startDecode f s with out := m }) hm
  rw [decodeSlot_of_slotFormat hf, ← hstart]
  exact decodeSlot_of_slotFormat hf

/-- Every store of a decode lies below `OUT_LEN`, so the next decode starts as this one did. -/
theorem restarts_decodeSlot {s : State} {v : Fin 4} (hslot : ¬ illegalSlot s v) :
    Restarts s (decodeSlot v s).state := by
  obtain ⟨f, hf⟩ := exists_slotFormat hslot
  have hstart : Alike s.outLen.toNat (KeepsTail s.outLen.toNat s.out) (startDecode f s) (startDecode f s) :=
    .intro _ rfl ⟨rfl, zeroFill_zeroFill s.out _⟩
  have hends := alike_runFamily (indistinct_keepsTail _ _) f hstart
  have hreach := decodeEnds_decodeSlot v s
  rw [← decodeSlot_of_slotFormat hf] at hends
  generalize decodeSlot v s = r at hends hreach
  cases hreach with
  | done t ht =>
    cases ht with | intro early c p m _ =>
    cases hends with | done h =>
    cases h with | intro _ _ h =>
    exact .intro early c p m h.2
  | raised e t _ ht =>
    cases ht with | intro early c p m _ =>
    cases hends with | raised _ h =>
    cases h with | intro _ _ h =>
    exact .intro early c p m h.2

/-- Alike ends of a decode are alike next states of a DECODE. -/
theorem AlikeDecodeEnd.decodeResult {n : Nat} {E : Memory → Memory → Prop} {r r' : DecodeEnd}
    (h : AlikeDecodeEnd n E r r') (v : Fin 4) :
    ∃ t t', decodeResult v r = .next t ∧ decodeResult v r' = .next t' ∧ Alike n E t t' := by
  cases h with
  | done h => cases h with | intro m hn h => exact ⟨_, _, rfl, rfl, .intro m hn h⟩
  | raised e h => cases h with | intro m hn h => exact ⟨_, _, rfl, rfl, .intro m hn h⟩

/-- Settles O37: the two decodes start alike, from equal states where `OUT` is canonical. -/
theorem decodeStartsFromScratch : Obligations.DecodeStartsFromScratch := by
  intro s v c p m b hlen hslot s'
  rw [execDecode_of_lengthsLegal v hlen, execDecode_of_lengthsLegal (s := s') v hlen]
  refine ⟨fun hread => ?_, fun hw hw' hlisted => ?_⟩
  · obtain ⟨f, hf⟩ := exists_slotFormat hslot
    have hstart : Alike s.outLen.toNat ReadsAlike (startDecode f s) (startDecode f s') :=
      .intro (m.zeroFill s.outLen.toNat) rfl (readsAlike_zeroFill hread)
    have hends := alike_runFamily (indistinct_readsAlike _) f hstart
    rw [← decodeSlot_of_slotFormat hf, ← decodeSlot_of_slotFormat (s := s') hf] at hends
    obtain ⟨t, t', ht, ht', halike⟩ := hends.decodeResult v
    refine ⟨t, t', ht, ht', ?_⟩
    cases halike with | intro m' _ hm' =>
    exact ⟨rfl, hm'⟩
  · have hrestart : Restarts s s' := .intro b c p m (zeroFill_eq_of_listed s.outLen.isLt.le hw hw' hlisted)
    rw [hrestart.decodeSlot_eq hslot]

end Sys2Proof.Machine
end

section
/-! PROOFS. PROBE: its checks, its plausibility predicates, and the first plausible candidate (O38 to O40;
45_variant_prober.md R230 to R235). -/

namespace Sys2Proof.Machine

open Sys2Proof

/-! ## The checks and the predicates -/

/-- Settles O40: the check before the loop fails. -/
theorem probeRejectsBadConfiguration : Obligations.ProbeRejectsBadConfiguration := by
  intro s hbad
  have hillegal : ¬ probeLegal s = true := by
    rw [probeLegal_iff]
    rintro ⟨hcfg, hslots⟩
    obtain hcfg' | ⟨v, hv, hslot⟩ := hbad
    · exact hcfg' hcfg
    · have hsome := hslots v.val hv
      rw [Fin.ofNat_val_eq_self, (slotFormat_eq_none_iff s v).mpr hslot] at hsome
      cases hsome
  exact (if_neg hillegal).trans (trap_illegalCommand s)

/-- `CONSUMED` is the bit position in bytes, rounded up (45_variant_prober.md R233). -/
theorem consumed_bounds (s : State) : 8 * consumed s - 8 < bitpos s.cur ∧ bitpos s.cur ≤ 8 * consumed s := by
  unfold consumed
  omega

theorem probePlaus_eq (s : State) : probePlaus s = s.probeCfg.toNat / 16 % 4 := field_eq _ 4 2

theorem probeSlack_eq (s : State) : probeSlack s = s.probeCfg.toNat / 256 % 2 ^ 16 := field_eq _ 8 16

/-- Settles O39: each predicate by its selector. -/
theorem plausibilityIsTheNamedPredicate : Obligations.PlausibilityIsTheNamedPredicate := by
  intro s
  obtain ⟨hlow, hhigh⟩ := consumed_bounds s
  rw [← probePlaus_eq, ← probeSlack_eq]
  refine ⟨consumed s, hlow, hhigh, fun hp => ?_, fun hp => ?_, fun hp => ?_⟩ <;> rw [plausible, hp] <;>
    exact decide_eq_true_iff

/-! ## One candidate -/

/-- Every end of a decode of a legal slot. -/
theorem decodeSlot_cases {s : State} {v : Fin 4} (hslot : ¬ illegalSlot s v) :
    (∃ u, Restarts s u ∧ decodeSlot v s = .done u)
    ∨ ∃ e u, e.ofDecode = true ∧ Restarts s u ∧ decodeSlot v s = .raised e u := by
  have hrestart := restarts_decodeSlot hslot
  have hends := passEnds_decodeSlot hslot
  generalize decodeSlot v s = r at hrestart hends
  cases hends with
  | full u _ _ => exact .inl ⟨u, hrestart, rfl⟩
  | early u _ _ _ => exact .inl ⟨u, hrestart, rfl⟩
  | raised e u he _ => exact .inr ⟨e, u, he, hrestart, rfl⟩

theorem code_ne_zero_of_ofDecode {e : Exc} (he : e.ofDecode = true) : e.code ≠ 0 := by
  cases e with
  | boundsViolation | unrecognizedControlCode | truncatedInput => decide
  | implausibleResult | formatError | illegalCommand => cases he

theorem probeLoop_of_implausible {n m k : Nat} {last : BitVec 3} {s t : State}
    (hd : decodeSlot (candidate s n k) s = .done t) (hp : ¬ plausible t = true) :
    probeLoop n (m + 1) k last s = probeLoop n m (k + 1) Exc.implausibleResult.code t := by
  rw [probeLoop, hd]
  exact if_neg hp

theorem probeLoop_of_raised {n m k : Nat} {last : BitVec 3} {s t : State} {e : Exc} (he : e.ofDecode = true)
    (hd : decodeSlot (candidate s n k) s = .raised e t) :
    probeLoop n (m + 1) k last s = probeLoop n m (k + 1) e.code t := by
  rw [probeLoop, hd]
  cases e with
  | illegalCommand => cases he
  | _ => rfl

/-- Candidate `k`, run alone from `s`, does not decode or is implausible. -/
def CandidateFails (s : State) (k : Nat) : Prop := ∃ u, candidateRun s k u ∧ candidateCause u ≠ 0

/-- The loop of a PROBE of `s` has come to candidate `k`, in state `t`: the candidates before `k` failed, and the last
of them left `t` and the code `last` (45_variant_prober.md R230, R232). -/
structure ProbeAt (s : State) (k : Nat) (last : BitVec 3) (t : State) : Prop where
  restarts : Restarts s t
  failed : ∀ j < k, CandidateFails s j
  report : 1 ≤ k → ∃ u, candidateRun s (k - 1) u
    ∧ raise .formatError last t = { u with status := raisedStatus 5 (candidateCause u) }

theorem probeAt_zero (s : State) : ProbeAt s 0 0 s where
  restarts := .refl s
  failed := nofun
  report := nofun

section

variable {s t : State} {k : Nat} {last : BitVec 3}

/-- The loop goes on after a candidate that fails. -/
theorem ProbeAt.next {u u' : State} {last' : BitVec 3} (h : ProbeAt s k last t) (hrestart : Restarts s u)
    (hrun : candidateRun s k u') (hcause : candidateCause u' = last') (hne : last' ≠ 0)
    (hreport : raise .formatError last' u = { u' with status := raisedStatus 5 last' }) :
    ProbeAt s (k + 1) last' u where
  restarts := hrestart
  failed j hj := by
    obtain hlt | rfl := Nat.lt_succ_iff_lt_or_eq.mp hj
    · exact h.failed j hlt
    · exact ⟨u', hrun, by rwa [hcause]⟩
  report _ := ⟨u', hrun, by rw [hcause]; exact hreport⟩

/-- The candidates are counted from the `VSTATE` of the start. -/
theorem Restarts.candidate_eq (h : Restarts s t) (n k : Nat) : candidate t n k = candidate s n k := by
  cases h
  rfl

/-- A candidate runs alone as the slot's decode, with what DECODE makes of its end. -/
theorem candidateRun_of_decodeSlot {r : DecodeEnd} {u : State} (hlen : lengthsLegal s)
    (hd : decodeSlot (candidate s (probeCount s) k) s = r)
    (hr : decodeResult (candidate s (probeCount s) k) r = .next u) : candidateRun s k u := by
  rw [← hd, ← execDecode_of_lengthsLegal _ hlen] at hr
  exact hr

/-- The candidate the loop has come to is accepted, or the loop goes on to the next one (45_variant_prober.md R230). -/
theorem ProbeAt.step (herr : s.status.err = false) (hlen : lengthsLegal s)
    (hslot : ¬ illegalSlot s (candidate s (probeCount s) k)) (h : ProbeAt s k last t) (m : Nat) :
    (∃ u, candidateRun s k u ∧ candidateCause u = 0
        ∧ probeLoop (probeCount s) (m + 1) k last t = .next { u with vstate := u.status.vused })
    ∨ ∃ last' t', ProbeAt s (k + 1) last' t'
        ∧ probeLoop (probeCount s) (m + 1) k last t = probeLoop (probeCount s) m (k + 1) last' t' := by
  have hcand := h.restarts.candidate_eq (probeCount s) k
  have hsame : decodeSlot (candidate t (probeCount s) k) t = decodeSlot (candidate s (probeCount s) k) s := by
    rw [hcand, h.restarts.decodeSlot_eq hslot]
  obtain ⟨u, hu, hd⟩ | ⟨e, u, he, hu, hd⟩ := decodeSlot_cases hslot
  · have hrun := candidateRun_of_decodeSlot hlen hd rfl
    have herr' : u.status.err = false := by cases hu; exact herr
    have hcause : candidateCause (finishDecode (BitVec.ofNat 2 (candidate s (probeCount s) k).val) u)
        = if plausible u then 0 else 4 := if_neg (ne_true_of_eq_false herr')
    by_cases hp : plausible u = true
    · refine .inl ⟨_, hrun, hcause.trans (if_pos hp), ?_⟩
      rw [probeLoop_of_plausible (Nat.le_add_left 1 m) (hsame.trans hd) hp, hcand]
      rfl
    · exact .inr ⟨_, u, h.next hu hrun (hcause.trans (if_neg hp)) (by decide) rfl,
        probeLoop_of_implausible (hsame.trans hd) hp⟩
  · have hrun := candidateRun_of_decodeSlot hlen hd rfl
    exact .inr ⟨_, u, h.next hu hrun rfl (code_ne_zero_of_ofDecode he) rfl,
      probeLoop_of_raised he (hsame.trans hd)⟩

/-! ## The loop -/

theorem probeLoop_cases (herr : s.status.err = false) (hlen : lengthsLegal s)
    (hslots : ∀ k, ¬ illegalSlot s (candidate s (probeCount s) k)) {m : Nat} (hm : k + m = probeCount s)
    (h : ProbeAt s k last t) :
    (∃ j u, j < probeCount s ∧ candidateRun s j u ∧ candidateCause u = 0 ∧ (∀ i < j, CandidateFails s i)
        ∧ probeLoop (probeCount s) m k last t = .next { u with vstate := u.status.vused })
    ∨ ∃ last' t', ProbeAt s (probeCount s) last' t'
        ∧ probeLoop (probeCount s) m k last t = .next (raise .formatError last' t') := by
  induction m generalizing k last t with
  | zero => exact .inr ⟨last, t, hm ▸ h, rfl⟩
  | succ m ih =>
    obtain ⟨u, hrun, hcause, hloop⟩ | ⟨last', t', h', hloop⟩ := h.step herr hlen (hslots k) m
    · exact .inl ⟨k, u, by omega, hrun, hcause, h.failed, hloop⟩
    · rw [hloop]
      exact ih (by omega) h'

theorem candidate_lt (hcfg : probeConfigured s) (k : Nat) : (candidate s (probeCount s) k).val < probeCount s := by
  obtain ⟨hone, hfour, _⟩ := hcfg
  have hlt := Nat.mod_lt (s.vstate.toNat + k) hone
  rw [candidate, Fin.val_ofNat]
  omega

end

/-- Settles O38: the loop over the candidates, with each run as a DECODE alone would run. -/
theorem probeAcceptsTheFirstPlausible : Obligations.ProbeAcceptsTheFirstPlausible := by
  intro s herr hcfg hslots
  have ⟨hone, _, _, _, hlen⟩ := hcfg
  rw [execProbe_of_legal hcfg hslots]
  obtain ⟨k, u, hk, hrun, hcause, hfailed, hloop⟩ | ⟨last, t, h, hloop⟩ :=
    probeLoop_cases herr hlen (fun k => hslots _ (candidate_lt hcfg k)) (Nat.zero_add _) (probeAt_zero s)
  · exact .inl ⟨k, u, hk, hrun, hcause, hfailed, hloop⟩
  · obtain ⟨u, hrun, hreport⟩ := h.report hone
    exact .inr ⟨h.failed, u, hrun, by rw [hloop, hreport]⟩

end Sys2Proof.Machine
end

section
/-! PROOFS. The delta family one code at a time: how an element is read, where a sample stands, and what one
element and one alpha pair write (O41 to O44; 46_delta_pixel.md R251 to R260). -/

namespace Sys2Proof.Machine

open Sys2Proof

/-! ## How an element is read -/

/-- One-bits are counted up to the zero-bit that closes them, and the cursor stands behind it
(46_delta_pixel.md R255). -/
theorem unaryPrefix_of_bits {e : Reader} {m n : Nat} (k : Nat) {c : BitCursor} (hn : n ≤ m)
    (hones : ∀ j < n, (take e 1 (afterBits e j c)).1 = 1) (hzero : (take e 1 (afterBits e n c)).1 = 0) :
    unaryPrefix e m k c = (some (k + n), afterBits e (n + 1) c) := by
  induction n generalizing m k c with
  | zero =>
    have hfirst : (take e 1 c).1 = 0 := hzero
    cases m with
    | zero | succ m => exact if_pos hfirst
  | succ n ih =>
    have hfirst : (take e 1 c).1 = 1 := hones 0 n.succ_pos
    obtain _ | m := m
    · omega
    have htail := ih (k + 1) (Nat.le_of_succ_le_succ hn) (fun j hj => hones (j + 1) (by omega)) hzero
    rw [unaryPrefix, if_neg (by omega), htail, Nat.add_right_comm, Nat.add_assoc]
    rfl

/-- A sign bit is read only under the sign-bit map and behind a non-zero code (46_delta_pixel.md R256). -/
theorem signMap_eq (f : Format) (e : Reader) (u : Nat) (c : BitCursor) :
    signMap f e u c =
      if f.signBit = true ∧ u ≠ 0 then (signedDelta true u (take e 1 c).1, (take e 1 c).2)
      else (signedDelta false (if f.signBit then 0 else u) 0, c) := by
  unfold signMap
  cases hs : f.signBit with
  | false => rw [if_neg Bool.false_ne_true, if_neg (fun h => Bool.false_ne_true h.1)]; rfl
  | true =>
    by_cases hu : u = 0
    · rw [if_pos rfl, if_pos hu, if_neg (fun h => h.2 hu), if_pos rfl]; rfl
    · rw [if_pos rfl, if_neg hu, if_pos ⟨rfl, hu⟩]; rfl

/-- Settles O41: the unary code is read up to its zero-bit, and the sign map takes the code behind it. -/
theorem elementReadsItsUnaryPrefix : Obligations.ElementReadsItsUnaryPrefix := by
  intro f e c k hk c1 c2 u c3 hones hzero
  have hpre : unaryPrefix e Config.unaryMax 0 c1 = (some k, c2) := by
    rw [unaryPrefix_of_bits (m := Config.unaryMax) 0 hk hones hzero, Nat.zero_add]
  have hfetch : fetchElem f e c
      = (.ok { sel := Predictor.ofField (take e 2 c).1, delta := (signMap f e u c3).1 }, (signMap f e u c3).2) := by
    rw [fetchElem, hpre]
  rw [hfetch, signMap_eq]
  split_ifs <;> rfl

/-! ## Where a sample stands -/

/-- A number written as a quotient and a remainder gives both back. -/
theorem div_mod_of_mul_add (a : Nat) {n i : Nat} (hi : i < n) : (a * n + i) / n = a ∧ (a * n + i) % n = i :=
  (Nat.div_mod_unique (Nat.zero_lt_of_lt hi)).mpr ⟨by rw [Nat.mul_comm, Nat.add_comm], hi⟩

theorem mul_add_inj {n a b i j : Nat} (hi : i < n) (hj : j < n) (h : a * n + i = b * n + j) : a = b ∧ i = j := by
  obtain ⟨hdiv, hmod⟩ := div_mod_of_mul_add a hi
  obtain ⟨hdiv', hmod'⟩ := div_mod_of_mul_add b hj
  exact ⟨by rw [← hdiv, h, hdiv'], by rw [← hmod, h, hmod']⟩

/-- The row of `OUT` that holds scan row `r` (46_delta_pixel.md R252). -/
def storedRow (s : State) (r : Nat) : Nat := if dpFlip s then dpHeight s - 1 - r else r

theorem sampleAddr_eq (s : State) (r x c : Nat) :
    sampleAddr s r x c = (storedRow s r * dpWidth s + x) * dpChannels s + c := rfl

theorem storedRow_lt {s : State} {r : Nat} (h : r < dpHeight s) : storedRow s r < dpHeight s := by
  unfold storedRow
  split <;> omega

theorem storedRow_inj {s : State} {r r' : Nat} (h : r < dpHeight s) (h' : r' < dpHeight s)
    (heq : storedRow s r = storedRow s r') : r = r' := by
  unfold storedRow at heq
  split at heq <;> omega

/-- The samples of a legal image lie inside `OUT` (46_delta_pixel.md R258). -/
theorem sampleAddr_lt_outLen {s : State} {r x c : Nat} (hs : imageLegal s) (hr : r < dpHeight s)
    (hx : x < dpWidth s) (hc : c < dpChannels s) : sampleAddr s r x c < s.outLen.toNat := by
  obtain ⟨_, _, _, hlen⟩ := hs
  have hpixel := Nat.mul_add_lt_mul_of_lt_of_lt (storedRow_lt hr) hx
  rw [sampleAddr_eq, hlen, Nat.mul_comm (dpWidth s), Nat.mul_comm _ (dpChannels s), Nat.mul_comm (storedRow s r)]
  exact Nat.mul_add_lt_mul_of_lt_of_lt hpixel hc

theorem sampleAddr_inj {s : State} {r x c r' x' c' : Nat} (hr : r < dpHeight s) (hx : x < dpWidth s)
    (hc : c < dpChannels s) (hr' : r' < dpHeight s) (hx' : x' < dpWidth s) (hc' : c' < dpChannels s)
    (h : sampleAddr s r x c = sampleAddr s r' x' c') : r = r' ∧ x = x' ∧ c = c' := by
  obtain ⟨hpixel, hchannel⟩ := mul_add_inj hc hc' h
  obtain ⟨hrow, hcolumn⟩ := mul_add_inj hx hx' hpixel
  exact ⟨storedRow_inj hr hr' hrow, hcolumn, hchannel⟩

/-- Settles O44: an address is its row, column and channel in mixed radix. -/
theorem sampleAddressesTileTheBuffer : Obligations.SampleAddressesTileTheBuffer :=
  fun _ _ _ _ _ _ _ hs hr hx hc hr' hx' hc' =>
    ⟨sampleAddr_lt_outLen hs hr hx hc, sampleAddr_inj hr hx hc hr' hx' hc'⟩

/-! ## What a delta element writes -/

/-- The channels the delta pass codes are channels of the image (46_delta_pixel.md R250, R251). -/
theorem deltaColumns_le_dpChannels {s : State} (h : imageLegal s) : deltaColumns s ≤ dpChannels s := by
  obtain ⟨_, _, halpha, _⟩ := h
  unfold deltaColumns
  split_ifs with ha
  · rw [halpha ha]; decide
  · exact le_refl _

/-- Where `OPOS` counts the samples before `(r, x, c)`, that is the scan position (46_delta_pixel.md R251). -/
theorem scanPosition_of_opos {s : State} {r x c : Nat} (hx : x < dpWidth s) (hc : c < deltaColumns s)
    (h : s.opos.toNat = (r * dpWidth s + x) * deltaColumns s + c) :
    scanRow s = r ∧ scanColumn s = x ∧ scanChannel s = c := by
  obtain ⟨hpixel, hchannel⟩ := div_mod_of_mul_add (r * dpWidth s + x) hc
  obtain ⟨hrow, hcolumn⟩ := div_mod_of_mul_add r hx
  rw [scanRow, scanColumn, scanChannel, h, hpixel]
  exact ⟨hrow, hcolumn, hchannel⟩

theorem neighbour_of_outside {s : State} {r x : Int} (h : r < 0 ∨ x < 0) (c : Nat) :
    neighbour s r x c = dpRef s := if_pos h

theorem neighbour_natCast (s : State) (r x c : Nat) :
    neighbour s r x c = s.out.read .out (sampleAddr s r x c) := if_neg (by omega)

/-- The predictor over the scan position is the one over the integers (46_delta_pixel.md R253). -/
theorem predict_eq_predictor (s : State) (sel : Predictor) (r x c : Nat) :
    predict s sel r x c = predictor s sel r x c := by
  have hpred (n : Nat) : ((n + 1 : Nat) : Int) - 1 = n := by omega
  cases sel with
  | left =>
    cases x with
    | zero => exact (neighbour_of_outside (.inr (by decide)) c).symm
    | succ x => rw [predictor, hpred, neighbour_natCast]; rfl
  | up =>
    cases r with
    | zero => exact (neighbour_of_outside (.inl (by decide)) c).symm
    | succ r => rw [predictor, hpred, neighbour_natCast]; rfl
  | upLeft =>
    cases r with
    | zero => exact (neighbour_of_outside (.inl (by decide)) c).symm
    | succ r =>
      cases x with
      | zero => exact (neighbour_of_outside (.inr (by decide)) c).symm
      | succ x => rw [predictor, hpred, hpred, neighbour_natCast]; rfl
  | ref => rfl

theorem toNat_reconstruct (p : Byte) (d : Int) : ((reconstruct p d).toNat : Int) = ((p.toNat : Int) + d) % 256 := by
  rw [reconstruct, BitVec.toNat_ofInt]
  exact Int.toNat_of_nonneg (Int.emod_nonneg _ (by decide))

theorem exec_dpxElem_of_inOut {s : State} (sel : Predictor) (d : Int) (ho : overrun s = false)
    (hin : inOut s (elemAddr s) 1 = true) :
    exec (.dpxElem sel d) s = .next { s with
      out := s.out.write (elemAddr s) (reconstruct (predict s sel (scanRow s) (scanColumn s) (scanChannel s)) d)
      opos := s.opos + 1 } := by
  show (dpxElem sel d s).result = _
  rw [dpxElem, afterHeader_of_not_overrun ho, if_pos hin]
  rfl

/-- Settles O42: `OPOS` names the sample, whose address lies in `OUT`. -/
theorem deltaElementWritesItsSample : Obligations.DeltaElementWritesItsSample := by
  intro s sel d r x c hs ho hr hx hc hpos
  obtain ⟨hrow, hcolumn, hchannel⟩ := scanPosition_of_opos hx hc hpos
  have haddr : elemAddr s = pixelAddr s r x c := by rw [elemAddr, hrow, hcolumn, hchannel]; rfl
  have hlt : elemAddr s < s.outLen.toNat :=
    haddr ▸ sampleAddr_lt_outLen hs hr hx (Nat.lt_of_lt_of_le hc (deltaColumns_le_dpChannels hs))
  refine ⟨_, exec_dpxElem_of_inOut sel d ho ((inOut_iff s _ 1).mpr hlt), ?_, fun a ha => ?_⟩
  · rw [haddr, Memory.read_write_self, toNat_reconstruct, hrow, hcolumn, hchannel, predict_eq_predictor]
  · rw [haddr]
    exact Memory.read_write_other .out s.out _ _ a ha

/-! ## What an alpha pair writes -/

/-- The alpha samples of a legal image lie inside `OUT` (46_delta_pixel.md R260). -/
theorem alphaAddr_lt_of_lt_pixelCount {s : State} {q : Nat} (hs : imageLegal s) (ha : dpAlpha s = true)
    (hq : q < pixelCount s) : alphaAddr s q < s.outLen.toNat := by
  have ⟨_, _, halpha, _⟩ := hs
  have hwidth : 0 < dpWidth s := Nat.pos_of_mul_pos_right (Nat.zero_lt_of_lt hq)
  have hchannel : 3 < dpChannels s := by rw [halpha ha]; decide
  exact sampleAddr_lt_outLen hs (Nat.div_lt_of_lt_mul hq) (Nat.mod_lt q hwidth) hchannel

theorem alphaInOut_of_le {s : State} {q run : Nat} (hs : imageLegal s) (ha : dpAlpha s = true)
    (h : q + run ≤ pixelCount s) : alphaInOut s q run = true := by
  refine List.all_eq_true.mpr fun i hi => (inOut_iff s _ 1).mpr ?_
  have hi := List.mem_range.mp hi
  exact alphaAddr_lt_of_lt_pixelCount hs ha (by omega)

/-- Every sample of a run reads as the run's value, as no later write of the run stores another. -/
theorem read_writeAlpha_self (s : State) (val : Byte) {q run i : Nat} (hi : i < run) (m : Memory) :
    (writeAlpha s val q run m).read .out (alphaAddr s (q + i)) = val := by
  induction run generalizing q m i with
  | zero => omega
  | succ run ih =>
    rw [writeAlpha]
    cases i with
    | succ i =>
      rw [show q + (i + 1) = q + 1 + i by omega]
      exact ih (by omega) _
    | zero =>
      by_cases hlater : ∃ j < run, alphaAddr s q = alphaAddr s (q + 1 + j)
      · obtain ⟨j, hj, heq⟩ := hlater
        have hread := ih (q := q + 1) hj (m.write (alphaAddr s q) val)
        rwa [← heq] at hread
      · have hkept := read_writeAlpha_other s val (q + 1) run (m.write (alphaAddr s q) val)
          fun j hj heq => hlater ⟨j, hj, heq⟩
        exact hkept.trans (Memory.read_write_self .out m _ val)

theorem exec_dpxApair_of_fits {s : State} (runm1 value : Byte) (ho : overrun s = false)
    (hfits : alphaDone s + (runm1.toNat + 1) ≤ pixelCount s)
    (hin : alphaInOut s (alphaDone s) (runm1.toNat + 1) = true) :
    exec (.dpxApair runm1 value) s = .next { s with
      out := writeAlpha s value (alphaDone s) (runm1.toNat + 1) s.out
      opos := s.opos + BitVec.ofNat 32 (runm1.toNat + 1) } := by
  show (dpxApair runm1 value s).result = _
  rw [dpxApair, afterHeader_of_not_overrun ho, if_pos ⟨hfits, hin⟩]
  rfl

theorem exec_dpxApair_of_tooLong {s : State} (runm1 value : Byte) (ho : overrun s = false)
    (hlong : pixelCount s < alphaDone s + (runm1.toNat + 1)) :
    exec (.dpxApair runm1 value) s = raisesOnly s 1 := by
  show (dpxApair runm1 value s).result = _
  rw [dpxApair, afterHeader_of_not_overrun ho, if_neg (fun h => Nat.not_le_of_lt hlong h.1)]
  exact trap_boundsViolation s

/-- Settles O43: `OPOS` names the first pixel of the run, and the samples of a run that fits lie in `OUT`. -/
theorem alphaPairFillsItsRun : Obligations.AlphaPairFillsItsRun := by
  intro s runm1 value n hs ha ho _ hpos
  have hdone : alphaDone s = n := by
    rw [alphaDone, hpos]
    exact Nat.add_sub_cancel_left _ n
  refine ⟨fun hfits => ?_, fun hlong => exec_dpxApair_of_tooLong runm1 value ho (hdone ▸ hlong)⟩
  have hexec := exec_dpxApair_of_fits runm1 value ho (hdone ▸ hfits) (alphaInOut_of_le hs ha (hdone ▸ hfits))
  rw [hdone] at hexec
  refine ⟨_, hexec, fun q hq hlt => ?_, fun a hother => ?_⟩
  · obtain ⟨i, rfl⟩ := Nat.exists_eq_add_of_le hq
    exact read_writeAlpha_self s value (Nat.lt_of_add_lt_add_left hlt) s.out
  · exact read_writeAlpha_other s value n _ s.out fun i hi => hother (n + i) (by omega) (by omega)

end Sys2Proof.Machine
end

section
/-! PROOFS. The key-stream generators: the LCG, the Mersenne recurrence, and the key stream byte by byte (O47, O48;
47_stream_cipher.md R283, R285 to R287). -/

namespace Sys2Proof.Machine

open Sys2Proof

/-! ## The bytes of a word sequence -/

theorem getD_leBytes {n i : Nat} (v : Nat) (h : i < n) :
    (leBytes n v).getD i 0 = BitVec.ofNat 8 (v / 2 ^ (8 * i)) := by
  induction n generalizing v i with
  | zero => omega
  | succ n ih =>
    cases i with
    | zero => simp [leBytes]
    | succ i =>
      have hpow : 2 ^ (8 * (i + 1)) = 256 * 2 ^ (8 * i) := by rw [Nat.mul_succ, Nat.pow_add, Nat.mul_comm]
      rw [leBytes, List.getD_cons_succ, ih _ (by omega), Nat.div_div_eq_div_mul, hpow]

theorem keyByte_eq (w : Word) (b : Nat) : keyByte w b = BitVec.ofNat 8 (w.toNat / 2 ^ (8 * b)) := by
  rw [keyByte, ← BitVec.ofNat_toNat, BitVec.toNat_ushiftRight, Nat.shiftRight_eq_div_pow]

theorem wordBytes_cons (w : Word) (ws : List Word) : wordBytes (w :: ws) = leBytes 4 w.toNat ++ wordBytes ws :=
  List.flatMap_cons

theorem length_wordBytes (ws : List Word) : (wordBytes ws).length = 4 * ws.length := by
  induction ws with
  | nil => rfl
  | cons w ws ih => rw [wordBytes_cons, List.length_append, length_leBytes, ih, List.length_cons]; omega

/-- Byte `i` of a word sequence is byte `i mod 4` of word `i div 4` (47_stream_cipher.md R283). -/
theorem getD_wordBytes (ws : List Word) {i : Nat} (h : i < 4 * ws.length) :
    (wordBytes ws).getD i 0 = keyByte (ws.getD (i / 4) 0) (i % 4) := by
  induction ws generalizing i with
  | nil => simp at h
  | cons w ws ih =>
    rw [wordBytes_cons]
    by_cases hi : i < 4
    · rw [List.getD_append _ _ _ _ (by rwa [length_leBytes]), getD_leBytes _ hi, Nat.div_eq_of_lt hi,
        Nat.mod_eq_of_lt hi, List.getD_cons_zero, keyByte_eq]
    · obtain ⟨j, rfl⟩ := Nat.exists_eq_add_of_le (Nat.le_of_not_lt hi)
      rw [List.length_cons] at h
      rw [List.getD_append_right _ _ _ _ (by rw [length_leBytes]; omega), length_leBytes,
        Nat.add_sub_cancel_left, ih (by omega), Nat.add_mod_left, Nat.add_div_left _ (by decide),
        List.getD_cons_succ]

/-- The first `n` bytes of enough words. -/
theorem length_take_wordBytes {ws : List Word} {n : Nat} (h : ws.length = (n + 3) / 4) :
    ((wordBytes ws).take n).length = n := by
  rw [List.length_take, length_wordBytes, h]
  omega

theorem getD_take_wordBytes {ws : List Word} {n i : Nat} (h : ws.length = (n + 3) / 4) (hi : i < n) :
    ((wordBytes ws).take n).getD i 0 = keyByte (ws.getD (i / 4) 0) (i % 4) := by
  rw [← getD_wordBytes ws (by omega), List.getD_eq_getElem?_getD, List.getElem?_take_of_lt hi,
    ← List.getD_eq_getElem?_getD]

/-! ## The LCG -/

theorem length_lcgWords (a b : Word) (n : Nat) (k : Word) : (lcgWords a b n k).length = n := by
  induction n generalizing k with
  | zero => rfl
  | succ n ih => rw [lcgWords, List.length_cons, ih]

/-- The outputs behind the first are those of the LCG started from it. -/
theorem lcgOutput_succ (a b k : Word) (i : Nat) : lcgOutput a b k (i + 1) = lcgOutput a b (k * a + b) i := by
  induction i with
  | zero => rfl
  | succ i ih => rw [lcgOutput, ih, lcgOutput]

theorem getD_lcgWords (a b : Word) {n i : Nat} (k : Word) (h : i < n) :
    (lcgWords a b n k).getD i 0 = lcgOutput a b k i := by
  induction n generalizing k i with
  | zero => omega
  | succ n ih =>
    cases i with
    | zero => rfl
    | succ i => rw [lcgWords, List.getD_cons_succ, ih _ (by omega), lcgOutput_succ]

/-! ## Initialisation and outputs of the Mersenne generator -/

/-- Entry `i` of the initialisation from its predecessor (47_stream_cipher.md R286). -/
def mtSeedNext (i : Nat) (prev : Word) : Word :=
  Config.mtInitMult * (prev ^^^ prev.sshiftRight 30) + BitVec.ofNat 32 i

theorem mtSeedFrom_succ (n i : Nat) (prev : Word) :
    mtSeedFrom (n + 1) i prev = mtSeedNext i prev :: mtSeedFrom n (i + 1) (mtSeedNext i prev) := rfl

theorem length_mtSeedFrom (n i : Nat) (prev : Word) : (mtSeedFrom n i prev).length = n := by
  induction n generalizing i prev with
  | zero => rfl
  | succ n ih => rw [mtSeedFrom_succ, List.length_cons, ih]

theorem getD_mtSeedFrom {n j : Nat} (i : Nat) (prev : Word) (h : j < n) :
    (mtSeedFrom n i prev).getD j 0 = mtSeedNext (i + j) ((prev :: mtSeedFrom n i prev).getD j 0) := by
  induction n generalizing i prev j with
  | zero => omega
  | succ n ih =>
    rw [mtSeedFrom_succ]
    cases j with
    | zero => rfl
    | succ j => rw [List.getD_cons_succ, List.getD_cons_succ, ih _ _ (by omega), Nat.add_right_comm, Nat.add_assoc]

theorem length_mtInit (seed : Word) : (mtInit seed).mt.length = 624 :=
  congrArg Nat.succ (length_mtSeedFrom 623 1 seed)

theorem getD_mtInit (seed : Word) {i : Nat} (h1 : 1 ≤ i) (h : i < 624) :
    (mtInit seed).mt.getD i 0 = mtSeedNext i ((mtInit seed).mt.getD (i - 1) 0) := by
  obtain ⟨j, rfl⟩ := Nat.exists_eq_add_of_le' h1
  have hj := getD_mtSeedFrom (n := 623) 1 seed (j := j) (by omega)
  rwa [Nat.add_comm 1 j] at hj

theorem mtReady_of_full {g : MtState} (h : g.mti = 624) : mtReady g = { mt := mtRegenerate g.mt, mti := 0 } :=
  if_pos h

theorem mtReady_of_ne {g : MtState} (h : g.mti ≠ 624) : mtReady g = g := if_neg h

theorem mtWords_succ (n : Nat) (g : MtState) :
    mtWords (n + 1) g = mtTemper ((mtReady g).mt.getD (mtReady g).mti 0)
      :: mtWords n { mtReady g with mti := (mtReady g).mti + 1 } := rfl

theorem length_mtWords (n : Nat) (g : MtState) : (mtWords n g).length = n := by
  induction n generalizing g with
  | zero => rfl
  | succ n ih => rw [mtWords_succ, List.length_cons, ih]

/-- An output does not depend on how many are drawn after it. -/
theorem getD_mtWords {n i : Nat} (g : MtState) (h : i < n) :
    (mtWords n g).getD i 0 = (mtWords (i + 1) g).getD i 0 := by
  induction n generalizing g i with
  | zero => omega
  | succ n ih =>
    rw [mtWords_succ, mtWords_succ]
    cases i with
    | zero => rfl
    | succ i => rw [List.getD_cons_succ, List.getD_cons_succ, ih _ (by omega)]

/-! ## Regeneration in place -/

/-- The array after the entries below `k` have been regenerated (47_stream_cipher.md R286). -/
def mtRegenerated (mt : List Word) (k : Nat) : List Word := (List.range k).foldl mtTwist mt

theorem mtRegenerated_all (mt : List Word) : mtRegenerated mt 624 = mtRegenerate mt := rfl

theorem mtRegenerated_succ (mt : List Word) (k : Nat) :
    mtRegenerated mt (k + 1) = mtTwist (mtRegenerated mt k) k := by
  rw [mtRegenerated, List.range_succ, List.foldl_append]
  rfl

theorem mtTwist_eq (mt : List Word) (k : Nat) :
    mtTwist mt k = mt.set k
      (twisted (mt.getD k 0) (mt.getD ((k + 1) % 624) 0) (mt.getD ((k + 397) % 624) 0)) := rfl

theorem length_mtRegenerated (mt : List Word) (k : Nat) : (mtRegenerated mt k).length = mt.length := by
  induction k with
  | zero => rfl
  | succ k ih => rw [mtRegenerated_succ, mtTwist_eq, List.length_set, ih]

theorem length_mtRegenerate (mt : List Word) : (mtRegenerate mt).length = mt.length := by
  rw [← mtRegenerated_all, length_mtRegenerated]

/-- A step of the regeneration writes its own entry only. -/
theorem getD_mtRegenerated_succ_of_ne (mt : List Word) {k j : Nat} (h : k ≠ j) :
    (mtRegenerated mt (k + 1)).getD j 0 = (mtRegenerated mt k).getD j 0 := by
  rw [mtRegenerated_succ, mtTwist_eq, List.getD_eq_getElem?_getD, List.getElem?_set_ne h,
    ← List.getD_eq_getElem?_getD]

/-- An entry is still the old one before its own step. -/
theorem getD_mtRegenerated_of_le (mt : List Word) {k j : Nat} (h : k ≤ j) :
    (mtRegenerated mt k).getD j 0 = mt.getD j 0 := by
  induction k with
  | zero => rfl
  | succ k ih => rw [getD_mtRegenerated_succ_of_ne mt (by omega), ih (by omega)]

/-- An entry is final from its own step on. -/
theorem getD_mtRegenerated_of_lt (mt : List Word) {k j : Nat} (h : j < k) (hk : k ≤ 624) :
    (mtRegenerated mt k).getD j 0 = (mtRegenerate mt).getD j 0 := by
  induction hk using Nat.decreasingInduction with
  | self => rfl
  | of_succ k hk ih => rw [← ih (by omega), getD_mtRegenerated_succ_of_ne mt (by omega)]

/-- The entry `d` places after `k`, cyclically: old where the array has not wrapped, else regenerated. -/
theorem getD_mtRegenerated_mod (mt : List Word) {k d : Nat} (hk : k < 624) (hd : d < 624) :
    (mtRegenerated mt k).getD ((k + d) % 624) 0
      = if k + d < 624 then mt.getD (k + d) 0 else (mtRegenerate mt).getD (k + d - 624) 0 := by
  split_ifs with hwrap
  · rw [Nat.mod_eq_of_lt hwrap, getD_mtRegenerated_of_le mt (by omega)]
  · rw [Nat.mod_eq_sub_mod (by omega), Nat.mod_eq_of_lt (by omega), getD_mtRegenerated_of_lt mt (by omega) (by omega)]

/-- The regeneration is the recurrence over the old and the already regenerated entries (47_stream_cipher.md
R286). -/
theorem getD_mtRegenerate {mt : List Word} (hlen : mt.length = 624) {k : Nat} (hk : k < 624) :
    (mtRegenerate mt).getD k 0 = twisted (mt.getD k 0)
      (if k + 1 < 624 then mt.getD (k + 1) 0 else (mtRegenerate mt).getD 0 0)
      (if k + 397 < 624 then mt.getD (k + 397) 0 else (mtRegenerate mt).getD (k - 227) 0) := by
  have hfirst : k + 1 - 624 = 0 := Nat.sub_eq_zero_of_le hk
  have hmid : k + 397 - 624 = k - 227 := Nat.add_sub_add_right k 397 227
  have hin : k < (mtRegenerated mt k).length := by rw [length_mtRegenerated, hlen]; exact hk
  have hstep : (mtRegenerate mt).getD k 0 = twisted (mt.getD k 0)
      ((mtRegenerated mt k).getD ((k + 1) % 624) 0) ((mtRegenerated mt k).getD ((k + 397) % 624) 0) := by
    rw [← getD_mtRegenerated_of_lt mt k.lt_succ_self hk, mtRegenerated_succ, mtTwist_eq,
      List.getD_eq_getElem?_getD, List.getElem?_set_self hin, Option.getD_some,
      getD_mtRegenerated_of_le mt (le_refl k)]
  rw [hstep, getD_mtRegenerated_mod mt hk (by decide), getD_mtRegenerated_mod mt hk (by decide), hfirst, hmid]

/-! ## The arithmetic shift -/

/-- The arithmetic shift is the logical one with the sign above it (47_stream_cipher.md R286). -/
theorem sshiftRight_eq_ushiftRight_or {w : Nat} (x : BitVec w) {n : Nat} (h : n ≤ w) :
    x.sshiftRight n = x >>> n ||| (if x.msb then BitVec.allOnes w <<< (w - n) else 0) := by
  ext i hi
  by_cases hin : n + i < w
  · have hlow : i < w - n := by omega
    cases hm : x.msb <;> simp [BitVec.getElem_sshiftRight, hin, hlow]
  · have hhigh : ¬ i < w - n := by omega
    have habove : x.getLsbD (n + i) = false := BitVec.getLsbD_of_ge x _ (by omega)
    cases hm : x.msb <;> simp [BitVec.getElem_sshiftRight, hin, hm, hhigh, habove]

/-- Settles O48: the shift bit by bit, the initialisation entry by entry, and the regeneration by the array that
each of its steps finds. -/
theorem mersenneGeneratorIsTheRecurrence : Obligations.MersenneGeneratorIsTheRecurrence := by
  refine ⟨fun x n _ h => sshiftRight_eq_ushiftRight_or x (by omega),
    fun seed => ⟨rfl, length_mtInit seed, rfl, fun i h1 h => getD_mtInit seed h1 h⟩,
    fun mt hlen => ⟨(length_mtRegenerate mt).trans hlen, fun k hk => getD_mtRegenerate hlen hk⟩, fun y => rfl,
    fun g n => ⟨fun hfull => ?_, fun hne => ?_⟩⟩
  · rw [mtWords_succ, mtWords_succ, mtReady_of_full hfull,
      mtReady_of_ne (g := { mt := mtRegenerate g.mt, mti := 0 }) (Nat.zero_ne_add_one 623)]
  · rw [mtWords_succ, mtReady_of_ne hne]

/-! ## The key stream -/

theorem keyBytes_of_lcg {s : State} (h : ciphSource s = 0) (n : Nat) :
    keyBytes s n = (wordBytes (lcgWords s.lcgA s.lcgB ((n + 3) / 4) s.seed)).take n := by
  simp only [keyBytes, h]

theorem keyBytes_of_mersenne {s : State} (h : ciphSource s = 1) (n : Nat) :
    keyBytes s n = (wordBytes (mtWords ((n + 3) / 4) (mtInit s.seed))).take n := by
  simp only [keyBytes, h]

theorem keyBytes_of_table {s : State} (h0 : ciphSource s ≠ 0) (h1 : ciphSource s ≠ 1) (n : Nat) :
    keyBytes s n = (List.range n).map fun i => s.kt[Fin.ofNat 256 (i % s.ktlen.toNat)] := by
  unfold keyBytes
  split
  case h_1 h => exact absurd h h0
  case h_2 h => exact absurd h h1
  case h_3 => rfl

theorem length_keyBytes (s : State) (n : Nat) : (keyBytes s n).length = n := by
  by_cases h0 : ciphSource s = 0
  · rw [keyBytes_of_lcg h0, length_take_wordBytes (length_lcgWords _ _ _ _)]
  · by_cases h1 : ciphSource s = 1
    · rw [keyBytes_of_mersenne h1, length_take_wordBytes (length_mtWords _ _)]
    · rw [keyBytes_of_table h0 h1, List.length_map, List.length_range]

/-- Settles O47: source by source, each word cut into its bytes. -/
theorem keyStreamIsTheGeneratorsBytes : Obligations.KeyStreamIsTheGeneratorsBytes := by
  refine fun s n => ⟨length_keyBytes s n, fun i hi => ⟨fun h => ?_, fun h => ?_, fun h => ?_⟩⟩
  · rw [keyBytes_of_lcg h, getD_take_wordBytes (length_lcgWords _ _ _ _) hi, getD_lcgWords _ _ _ (by omega)]
  · rw [keyBytes_of_mersenne h, getD_take_wordBytes (length_mtWords _ _) hi, getD_mtWords _ (by omega)]
  · have hi' : i < (List.range n).length := by rwa [List.length_range]
    rw [keyBytes_of_table (by omega) (by omega), List.getD_eq_getElem?_getD, List.getElem?_map,
      List.getElem?_eq_getElem hi', List.getElem_range]
    rfl

end Sys2Proof.Machine
end

section
/-! PROOFS. CIPHER and KEYGEN: their rejections, what they write, and the round trips of CIPHER (O45, O46, O49,
O50; 47_stream_cipher.md R280 to R284, R289, R300). -/

namespace Sys2Proof.Machine

open Sys2Proof

/-! ## The checks -/

theorem ktlenLegal_iff (s : State) : ktlenLegal s = true ↔ 1 ≤ s.ktlen.toNat ∧ s.ktlen.toNat ≤ 256 := by
  rw [ktlenLegal, Bool.and_eq_true, decide_eq_true_iff, decide_eq_true_iff]

theorem cipherLegal_iff (s : State) : cipherLegal s = true ↔ cipherConfigured s := by
  simp only [cipherLegal, cipherConfigured, Bool.and_eq_true, Bool.or_eq_true, decide_eq_true_iff, outLenLegal_iff,
    ktlenLegal_iff, and_assoc, ne_eq, ← imp_iff_not_or]

theorem exec_cipher_of_misconfigured {s : State} (h : ¬ cipherConfigured s) : exec .cipher s = raisesOnly s 6 :=
  (if_neg (mt (cipherLegal_iff s).mp h)).trans (trap_illegalCommand s)

theorem exec_cipher_of_outside {s : State} (h : cipherConfigured s) (hw : ¬ windowInside s) :
    exec .cipher s = raisesOnly s 1 := by
  show execCipher s = _
  rw [execCipher, if_pos ((cipherLegal_iff s).mpr h), if_neg (mt (inOut_iff s _ _).mp hw)]
  exact trap_boundsViolation s

theorem exec_cipher {s : State} (h : cipherConfigured s) (hw : windowInside s) :
    exec .cipher s = .next { s with out := cipherOut s, status := validStatus s } := by
  show execCipher s = _
  rw [execCipher, if_pos ((cipherLegal_iff s).mpr h), if_pos ((inOut_iff s _ _).mpr hw)]
  rfl

/-- Settles O46: the checks in the order of R280, and the one check of KEYGEN. -/
theorem cipherAndKeygenRejections : Obligations.CipherAndKeygenRejections := by
  refine fun s => ⟨exec_cipher_of_misconfigured, exec_cipher_of_outside, fun h => ?_⟩
  have hillegal : ¬ ktlenLegal s = true := mt (ktlenLegal_iff s).mp (by omega)
  exact (if_neg hillegal).trans (trap_illegalCommand s)

/-! ## What CIPHER leaves in a lane -/

theorem combine_xor (lw d k : Nat) : combine 0 lw d k = d ^^^ k := rfl

theorem combine_add (lw d k : Nat) : combine 1 lw d k = (d + k) % 2 ^ (8 * lw) := rfl

theorem combine_sub (n lw d k : Nat) : combine (n + 2) lw d k = (d + (2 ^ (8 * lw) - k)) % 2 ^ (8 * lw) := rfl

/-- The model's combination is the exact one reduced (47_stream_cipher.md R280). -/
theorem combine_eq_cipherLane (comb lw d : Nat) {k : Nat} (hk : k < 2 ^ (8 * lw)) :
    ((combine comb lw d k % 2 ^ (8 * lw) : Nat) : Int) = cipherLane comb d k % 2 ^ (8 * lw) := by
  match comb with
  | 0 => exact Int.natCast_mod _ _
  | 1 =>
    rw [combine_add, Nat.mod_mod]
    exact Int.natCast_mod _ _
  | n + 2 =>
    have hback : ((d + (2 ^ (8 * lw) - k) : Nat) : Int) = (d : Int) - k + (2 ^ (8 * lw) : Nat) := by omega
    rw [combine_sub, Nat.mod_mod, Int.natCast_mod, hback, Int.add_emod_right]
    rfl

theorem leValue_take_lt (bs : List Byte) (n : Nat) : leValue (bs.take n) < 2 ^ (8 * n) :=
  (leValue_lt _).trans_le (Nat.pow_le_pow_right (by decide) (by rw [List.length_take]; omega))

/-- Settles O45: the lane loop, with the model's combination read as the exact one. -/
theorem cipherTransformsWholeLanes : Obligations.CipherTransformsWholeLanes := by
  intro s hc hw lw n
  refine ⟨_, exec_cipher hc hw, fun j hj => ?_, fun a ha => cipherLanes_outside _ _ _ _ _ _ a ha⟩
  rw [← combine_eq_cipherLane _ _ _ (leValue_take_lt _ lw)]
  exact congrArg _ (cipherLanes_lane _ _ _ _ _ _ j hj)

/-! ## Round trips -/

/-- The `COMB` that undoes another (47_stream_cipher.md R289). -/
def inverseComb : Nat → Nat
  | 0 => 0
  | 1 => 2
  | _ => 1

theorem inverseComb_xor : inverseComb 0 = 0 := rfl

theorem inverseComb_add : inverseComb 1 = 2 := rfl

theorem inverseComb_sub (n : Nat) : inverseComb (n + 2) = 1 := rfl

/-- The inverse is never the reserved `COMB` (47_stream_cipher.md R280). -/
theorem inverseComb_ne_three (comb : Nat) : inverseComb comb ≠ 3 := by
  match comb with
  | 0 => decide
  | 1 => decide
  | n + 2 => rw [inverseComb_sub]; decide

/-- A lane combined with a key lane and then, inversely, with the same key lane is the lane (47_stream_cipher.md
R289). -/
theorem combine_inverseComb (comb : Nat) {lw d k : Nat} (hd : d < 2 ^ (8 * lw)) (hk : k < 2 ^ (8 * lw)) :
    combine (inverseComb comb) lw (combine comb lw d k % 2 ^ (8 * lw)) k % 2 ^ (8 * lw) = d := by
  match comb with
  | 0 =>
    rw [inverseComb_xor, combine_xor, combine_xor, Nat.mod_eq_of_lt (Nat.xor_lt_two_pow hd hk), Nat.xor_assoc,
      Nat.xor_self, Nat.xor_zero, Nat.mod_eq_of_lt hd]
  | 1 =>
    have hback : d + k + (2 ^ (8 * lw) - k) = d + 2 ^ (8 * lw) := by omega
    rw [inverseComb_add, combine_sub 0, combine_add, Nat.mod_mod, Nat.mod_mod, Nat.mod_add_mod, hback,
      Nat.add_mod_right, Nat.mod_eq_of_lt hd]
  | n + 2 =>
    have hback : d + (2 ^ (8 * lw) - k) + k = d + 2 ^ (8 * lw) := by omega
    rw [inverseComb_sub, combine_add, combine_sub, Nat.mod_mod, Nat.mod_mod, Nat.mod_add_mod, hback,
      Nat.add_mod_right, Nat.mod_eq_of_lt hd]

theorem leValue_inj {bs cs : List Byte} (hlen : bs.length = cs.length) (h : leValue bs = leValue cs) : bs = cs := by
  induction bs generalizing cs with
  | nil => exact (List.eq_nil_of_length_eq_zero hlen.symm).symm
  | cons b bs ih =>
    obtain _ | ⟨c, cs⟩ := cs
    · cases hlen
    · have hb := b.isLt
      have hc := c.isLt
      rw [leValue, leValue] at h
      rw [BitVec.eq_of_toNat_eq (show b.toNat = c.toNat by omega), ih (Nat.succ.inj hlen) (by omega)]

/-- Memories whose lanes read alike read alike in every byte of the lane. -/
theorem read_eq_of_readLE_eq {sp : Space} {m m' : Memory} {a n i : Nat} (hi : i < n)
    (h : m.readLE sp a n = m'.readLE sp a n) : m.read sp (a + i) = m'.read sp (a + i) := by
  have hbytes : m.readBytes sp a n = m'.readBytes sp a n :=
    leValue_inj (by rw [Memory.length_readBytes, Memory.length_readBytes]) h
  rw [← Memory.getD_readBytes sp m a n i hi, hbytes, Memory.getD_readBytes sp m' a n i hi]

/-- The lane loop run again with the same key bytes and the inverse combination restores every byte
(47_stream_cipher.md R289). -/
theorem read_cipherLanes_inverseComb (comb lw n a : Nat) (ks : List Byte) (m : Memory) (x : Nat) :
    (cipherLanes (inverseComb comb) lw n a ks (cipherLanes comb lw n a ks m)).read .out x = m.read .out x := by
  by_cases hx : x < a ∨ a + n * lw ≤ x
  · rw [cipherLanes_outside _ _ _ _ _ _ x hx, cipherLanes_outside _ _ _ _ _ _ x hx]
  · obtain ⟨i, rfl⟩ := Nat.exists_eq_add_of_le (show a ≤ x by omega)
    have hi : i < n * lw := by omega
    have hlw : 0 < lw := Nat.pos_of_mul_pos_left (Nat.zero_lt_of_lt hi)
    have hj : i / lw < n := Nat.div_lt_of_lt_mul (by rwa [Nat.mul_comm])
    have hsplit : a + i = a + i / lw * lw + i % lw := by rw [Nat.add_assoc, Nat.div_add_mod']
    rw [hsplit]
    refine read_eq_of_readLE_eq (Nat.mod_lt i hlw) ?_
    rw [cipherLanes_lane _ _ _ _ _ _ _ hj, cipherLanes_lane _ _ _ _ _ _ _ hj]
    exact combine_inverseComb comb (Memory.readLE_lt _ _ _ _) (leValue_take_lt _ lw)

/-- The state CIPHER leaves, with `CIPH_CFG` rewritten to `c`. -/
def afterCipher (s : State) (c : BitVec 6) : State :=
  { s with out := cipherOut s, status := validStatus s, ciphCfg := c }

/-- The key stream is chosen by `KSRC` alone and does not read `OUT` (47_stream_cipher.md R288). -/
theorem keyBytes_afterCipher {s : State} {c : BitVec 6} (h : ciphSource (afterCipher s c) = ciphSource s)
    (n : Nat) : keyBytes (afterCipher s c) n = keyBytes s n := by
  unfold keyBytes
  rw [h]
  rfl

/-- A second CIPHER with the same source and lane width and the inverse combination restores `OUT`
(47_stream_cipher.md R289). -/
theorem exec_cipher_afterCipher {s : State} (hc : cipherConfigured s) (hw : windowInside s) {c : BitVec 6}
    (hlow : c.toNat % 16 = s.ciphCfg.toNat % 16) (hcomb : c.toNat / 16 = inverseComb (ciphComb s)) :
    ∃ u, exec .cipher (afterCipher s c) = .next u ∧ ∀ a, u.out.read .out a = s.out.read .out a := by
  have hsource : ciphSource (afterCipher s c) = ciphSource s := by
    show field c.toNat 0 2 = field s.ciphCfg.toNat 0 2
    rw [field_eq, field_eq]
    omega
  have hlane : ciphLaneField (afterCipher s c) = ciphLaneField s := by
    show field c.toNat 2 2 = field s.ciphCfg.toNat 2 2
    rw [field_eq, field_eq]
    omega
  have hinverse : ciphComb (afterCipher s c) = inverseComb (ciphComb s) := by
    have hwidth := c.isLt
    show field c.toNat 4 2 = _
    rw [field_eq, ← hcomb]
    omega
  have hbytes : ciphLaneBytes (afterCipher s c) = ciphLaneBytes s := by rw [ciphLaneBytes, ciphLaneBytes, hlane]
  have hconfigured : cipherConfigured (afterCipher s c) := by
    unfold cipherConfigured
    rw [hsource, hlane, hinverse]
    obtain ⟨hout, hsrc, hlanew, _, hktlen⟩ := hc
    exact ⟨hout, hsrc, hlanew, inverseComb_ne_three _, hktlen⟩
  refine ⟨_, exec_cipher hconfigured hw, fun a => ?_⟩
  show (cipherOut (afterCipher s c)).read .out a = _
  rw [cipherOut, hinverse, hbytes, keyBytes_afterCipher hsource]
  exact read_cipherLanes_inverseComb _ _ _ _ _ _ a

/-- `COMB` rewritten to ADD or SUB, the source and the lane width kept. -/
theorem withComb_toNat (c : BitVec 6) :
    (c &&& 0x0F ||| 0x10).toNat % 16 = c.toNat % 16 ∧ (c &&& 0x0F ||| 0x10).toNat / 16 = 1
      ∧ (c &&& 0x0F ||| 0x20).toNat % 16 = c.toNat % 16 ∧ (c &&& 0x0F ||| 0x20).toNat / 16 = 2 := by
  revert c
  decide

theorem ciphComb_eq (s : State) : ciphComb s = s.ciphCfg.toNat / 16 := by
  have hwidth := s.ciphCfg.isLt
  rw [ciphComb, field_eq]
  omega

/-- One two-byte lane of zeros, with ADD and an LCG whose every output is 1. -/
def addOne : State :=
  { State.reset with outLen := 2, out := [(0, 0), (1, 0)], lcgB := 1, ciphCfg := 0x10, ciphLen := 2 }

/-- Settles O49: the second CIPHER runs the inverse combination over the same key bytes; adding 1 twice to a lane
of zeros leaves 2. -/
theorem cipherRoundTrips : Obligations.CipherRoundTrips := by
  refine ⟨fun s hc hw => ⟨afterCipher s s.ciphCfg, exec_cipher hc hw, fun h => ?_, fun h => ?_, fun h => ?_⟩, ?_⟩
  · exact exec_cipher_afterCipher hc hw rfl (by rw [← ciphComb_eq, h, inverseComb_xor])
  · obtain ⟨_, _, hlow, hcomb⟩ := withComb_toNat s.ciphCfg
    exact exec_cipher_afterCipher hc hw hlow (hcomb.trans (by rw [h, inverseComb_add]))
  · obtain ⟨hlow, hcomb, _, _⟩ := withComb_toNat s.ciphCfg
    exact exec_cipher_afterCipher hc hw hlow (hcomb.trans (by rw [h, inverseComb_sub]))
  · have hconfigured : cipherConfigured addOne := by unfold cipherConfigured; decide
    have hwindow : windowInside addOne := by unfold windowInside; decide
    exact ⟨addOne, afterCipher addOne addOne.ciphCfg, _, hconfigured, hwindow, rfl, exec_cipher hconfigured hwindow,
      exec_cipher (s := afterCipher addOne addOne.ciphCfg) hconfigured hwindow, 0, by decide⟩

/-! ## KEYGEN -/

/-- Consecutive bytes of the key table are the list's, and the others stay (47_stream_cipher.md R300). -/
theorem getElem_fillKt (bs : List Byte) (i : Nat) (kt : Vector Byte 256) (j : Fin 256) :
    (fillKt bs i kt)[j] = if i ≤ j.val ∧ j.val < i + bs.length then bs.getD (j.val - i) 0 else kt[j] := by
  induction bs generalizing i kt with
  | nil => rw [fillKt, if_neg (by simp only [List.length_nil]; omega)]
  | cons b bs ih =>
    have hset : (kt.setIfInBounds i b)[j] = if i = j.val then b else kt[j] := Vector.getElem_setIfInBounds _
    rw [fillKt, ih, List.length_cons, hset]
    by_cases hij : i = j.val
    · rw [if_neg (by omega), if_pos hij, if_pos (by omega), hij, Nat.sub_self, List.getD_cons_zero]
    · rw [if_neg hij]
      refine if_ctx_congr (by omega) (fun hin => ?_) (fun _ => rfl)
      rw [show j.val - i = j.val - (i + 1) + 1 by omega, List.getD_cons_succ]

/-- A key register is filled by its pair of words, low word first (47_stream_cipher.md R300). -/
theorem getElem_fillKr (ws : List Word) (i : Nat) (kr : Vector DWord 7) (j : Fin 7) :
    (fillKr ws i kr)[j] = if i ≤ j.val ∧ 2 * (j.val - i) + 1 < ws.length
      then joinHalves (ws.getD (2 * (j.val - i) + 1) 0) (ws.getD (2 * (j.val - i)) 0) else kr[j] := by
  induction ws, i, kr using fillKr.induct with
  | case1 lo hi ws i kr ih =>
    have hset : (kr.setIfInBounds i (joinHalves hi lo))[j] = if i = j.val then joinHalves hi lo else kr[j] :=
      Vector.getElem_setIfInBounds _
    rw [fillKr, ih, List.length_cons, List.length_cons, hset]
    by_cases hij : i = j.val
    · rw [if_neg (by omega), if_pos hij, if_pos (by omega), hij, Nat.sub_self]
      rfl
    · rw [if_neg hij]
      refine if_ctx_congr (by omega) (fun hin => ?_) (fun _ => rfl)
      rw [show 2 * (j.val - i) = 2 * (j.val - (i + 1)) + 2 by omega]
      rfl
  | case2 ws i kr hshort =>
    have hlen : ws.length < 2 := by
      match ws with
      | [] => exact Nat.two_pos
      | [_] => exact Nat.one_lt_two
      | lo :: hi :: ws => exact absurd rfl (hshort lo hi ws)
    rw [fillKr, if_neg (by omega)]
    exact hshort

theorem exec_keygen_kt {s : State} (h1 : 1 ≤ s.ktlen.toNat) (h : s.ktlen.toNat ≤ 256) :
    exec (.keygen .kt) s = .next { s with
      kt := fillKt ((wordBytes (lcgWords s.lcgA s.lcgB ((s.ktlen.toNat + 3) / 4) s.seed)).take s.ktlen.toNat) 0 s.kt
      status := doneStatus s } :=
  if_pos ((ktlenLegal_iff s).mpr ⟨h1, h⟩)

/-- Settles O50: the fills entry by entry, from the LCG's words. -/
theorem keygenExpandsTheSeed : Obligations.KeygenExpandsTheSeed := by
  intro s
  refine ⟨fun h1 h => ⟨_, exec_keygen_kt h1 h, fun i => ?_⟩, _, rfl, fun j => ?_⟩
  · have hlen := length_lcgWords s.lcgA s.lcgB ((s.ktlen.toNat + 3) / 4) s.seed
    rw [getElem_fillKt, length_take_wordBytes hlen, Nat.zero_add, Nat.sub_zero]
    by_cases hi : i.val < s.ktlen.toNat
    · rw [if_pos ⟨Nat.zero_le _, hi⟩, if_pos hi, getD_take_wordBytes hlen hi, getD_lcgWords _ _ _ (by omega)]
    · rw [if_neg (fun hin => hi hin.2), if_neg hi]
  · have hj := j.isLt
    rw [getElem_fillKr, length_lcgWords, if_pos (by omega), lowHalf_joinHalves, highHalf_joinHalves, Nat.sub_zero,
      getD_lcgWords _ _ _ (by omega), getD_lcgWords _ _ _ (by omega)]
    exact ⟨rfl, rfl⟩

end Sys2Proof.Machine
end

section
/-! PROOFS. The lanes of a register and the micro-operations on them: what ADD, SUB and XOR leave in every lane, and
that the inverse operation undoes a keyed one (O51; 48_lane_transform.md R311, R314 to R318). -/

namespace Sys2Proof.Machine

open Sys2Proof

/-! ## Lanes -/

theorem bits_laneWidth_pos (w : LaneWidth) : 0 < w.bits := by cases w <;> decide

/-- The lanes cover the register exactly (48_lane_transform.md R311). -/
theorem bits_mul_lanes (w : LaneWidth) : w.bits * (64 / w.bits) = 64 := by cases w <;> rfl

theorem laneOf_lt (w : LaneWidth) (x : DWord) (l : Nat) : laneOf w x l < 2 ^ w.bits := Nat.mod_lt _ (Nat.two_pow_pos _)

theorem packLanes_lt (w : LaneWidth) (ls : List Nat) : packLanes w ls < 2 ^ (w.bits * ls.length) := by
  induction ls with
  | nil => exact Nat.one_pos
  | cons l ls ih =>
    rw [List.length_cons, Nat.mul_succ, Nat.add_comm, pow_add, packLanes]
    have hlow : l % 2 ^ w.bits < 2 ^ w.bits := Nat.mod_lt _ (Nat.two_pow_pos _)
    have hhigh := Nat.mul_le_mul_left (2 ^ w.bits) (Nat.succ_le_of_lt ih)
    rw [Nat.mul_succ] at hhigh
    omega

/-- A packed register holds each lane, wrapped, at its place (48_lane_transform.md R311). -/
theorem field_packLanes (w : LaneWidth) (ls : List Nat) (l : Nat) :
    field (packLanes w ls) (w.bits * l) w.bits = ls.getD l 0 % 2 ^ w.bits := by
  induction ls generalizing l with
  | nil => simp [packLanes, field_eq]
  | cons d ls ih =>
    have hpos := Nat.two_pow_pos w.bits
    cases l with
    | zero => rw [packLanes, Nat.mul_zero, field_low_eq, Nat.add_mul_mod_self_left, Nat.mod_mod, List.getD_cons_zero]
    | succ l =>
      have hhigh : packLanes w (d :: ls) / 2 ^ w.bits = packLanes w ls := by
        rw [packLanes, Nat.add_mul_div_left _ _ hpos, Nat.div_eq_of_lt (Nat.mod_lt _ hpos), Nat.zero_add]
      rw [field_eq, Nat.mul_succ, Nat.add_comm, pow_add, ← Nat.div_div_eq_div_mul, hhigh, ← field_eq, ih,
        List.getD_cons_succ]

/-- Every lane-wise operation acts on each lane by itself, wrapping inside it (48_lane_transform.md R315, R316). -/
theorem laneOf_laneMap (w : LaneWidth) (f : Nat → Nat → Nat) (x y : DWord) {l : Nat} (hl : l < 64 / w.bits) :
    laneOf w (laneMap w f x y) l = f (laneOf w x l) (laneOf w y l) % 2 ^ w.bits := by
  have hfits := packLanes_lt w ((List.range (64 / w.bits)).map fun l => f (laneOf w x l) (laneOf w y l))
  rw [List.length_map, List.length_range, bits_mul_lanes] at hfits
  rw [laneOf, laneMap, BitVec.toNat_ofNat, Nat.mod_eq_of_lt hfits, field_packLanes]
  simp [hl]

theorem laneOf_addLanes (w : LaneWidth) (x y : DWord) {l : Nat} (hl : l < 64 / w.bits) :
    laneOf w (addLanes w x y) l = (laneOf w x l + laneOf w y l) % 2 ^ w.bits := laneOf_laneMap w _ x y hl

theorem laneOf_subLanes (w : LaneWidth) (x y : DWord) {l : Nat} (hl : l < 64 / w.bits) :
    laneOf w (subLanes w x y) l = (laneOf w x l + (2 ^ w.bits - laneOf w y l)) % 2 ^ w.bits :=
  laneOf_laneMap w _ x y hl

/-- The model's subtraction is the exact one reduced (48_lane_transform.md R316). -/
theorem laneOf_subLanes_int (w : LaneWidth) (x y : DWord) {l : Nat} (hl : l < 64 / w.bits) :
    ((laneOf w (subLanes w x y) l : Nat) : Int) = ((laneOf w x l : Int) - (laneOf w y l : Int)) % 2 ^ w.bits := by
  have hy := laneOf_lt w y l
  have hback : ((laneOf w x l + (2 ^ w.bits - laneOf w y l) : Nat) : Int)
      = (laneOf w x l : Int) - laneOf w y l + (2 ^ w.bits : Nat) := by omega
  rw [laneOf_subLanes w x y hl, Int.natCast_mod, hback, Int.add_emod_right, Nat.cast_pow]
  rfl

/-- A bit of a register is a bit of one of its lanes (48_lane_transform.md R311). -/
theorem testBit_laneOf (w : LaneWidth) (x : DWord) (i : Nat) :
    (laneOf w x (i / w.bits)).testBit (i % w.bits) = x.getLsbD i := by
  rw [laneOf, field, Nat.testBit_mod_two_pow, decide_eq_true (Nat.mod_lt i (bits_laneWidth_pos w)), Bool.true_and,
    Nat.testBit_shiftRight, Nat.div_add_mod, BitVec.testBit_toNat]

/-- Registers with the same lanes are the same (48_lane_transform.md R311). -/
theorem eq_of_laneOf_eq (w : LaneWidth) {x y : DWord} (h : ∀ l < 64 / w.bits, laneOf w x l = laneOf w y l) :
    x = y := by
  refine BitVec.eq_of_getLsbD_eq fun i hi => ?_
  have hl : i / w.bits < 64 / w.bits := Nat.div_lt_of_lt_mul (by rwa [bits_mul_lanes])
  rw [← testBit_laneOf w x, ← testBit_laneOf w y, h _ hl]

/-- SUB undoes ADD of the same register (48_lane_transform.md R318). -/
theorem subLanes_addLanes (w : LaneWidth) (x k : DWord) : subLanes w (addLanes w x k) k = x := by
  refine eq_of_laneOf_eq w fun l hl => ?_
  have hx := laneOf_lt w x l
  have hk := laneOf_lt w k l
  have hback : laneOf w x l + laneOf w k l + (2 ^ w.bits - laneOf w k l) = laneOf w x l + 2 ^ w.bits := by omega
  rw [laneOf_subLanes w _ _ hl, laneOf_addLanes w _ _ hl, Nat.mod_add_mod, hback, Nat.add_mod_right,
    Nat.mod_eq_of_lt hx]

/-- ADD undoes SUB of the same register (48_lane_transform.md R318). -/
theorem addLanes_subLanes (w : LaneWidth) (x k : DWord) : addLanes w (subLanes w x k) k = x := by
  refine eq_of_laneOf_eq w fun l hl => ?_
  have hx := laneOf_lt w x l
  have hk := laneOf_lt w k l
  have hback : laneOf w x l + (2 ^ w.bits - laneOf w k l) + laneOf w k l = laneOf w x l + 2 ^ w.bits := by omega
  rw [laneOf_addLanes w _ _ hl, laneOf_subLanes w _ _ hl, Nat.mod_add_mod, hback, Nat.add_mod_right,
    Nat.mod_eq_of_lt hx]

/-! ## Micro-operations -/

/-- Settles O51: the words are those of the encoder, and the lanes those of the packed result. -/
theorem microOperationsActPerLane : Obligations.MicroOperationsActPerLane := by
  refine ⟨⟨decodeLop_zero, exec_laneOp .stop⟩, fun w d r => ⟨decodeLop_encodeLop (.add w d r),
    decodeLop_encodeLop (.sub w d r), decodeLop_encodeLop (.xor w d r),
    fun s => ⟨?_, ?_, exec_laneOp (.xor w d r) s⟩⟩⟩
  · exact ⟨_, exec_laneOp (.add w d r) s, fun l hl => laneOf_addLanes w _ _ hl⟩
  · exact ⟨_, exec_laneOp (.sub w d r) s, fun l hl => laneOf_subLanes_int w _ _ hl⟩

/-- A keyed operation is ADD, SUB or XOR of a key register to `V0` (48_lane_transform.md R318). -/
theorem keyed_cases {o : LaneOp} (h : keyed o = true) :
    ∃ (w : LaneWidth) (r : Fin 8), r ≠ 0 ∧ (o = .add w 0 r ∨ o = .sub w 0 r ∨ o = .xor w 0 r) := by
  cases o with
  | stop => cases h
  | add w d r | sub w d r | xor w d r =>
    rw [keyed, Bool.and_eq_true, decide_eq_true_iff, decide_eq_true_iff] at h
    obtain ⟨rfl, hr⟩ := h
    exact ⟨w, r, hr, by simp⟩

/-- A write of `V0` leaves each key register as it was. -/
theorem getElem_set_zero_of_ne {r : Fin 8} (hr : r ≠ 0) (v : Vector DWord 8) (x : DWord) : (v.set 0 x)[r] = v[r] :=
  getElem_set_ne_fin v (i := 0) x hr

/-- A keyed operation writes `V0` only (48_lane_transform.md R318). -/
theorem lopApply_keyed_set_zero {o : LaneOp} (h : keyed o = true) (v : Vector DWord 8) (x : DWord) :
    (lopApply o v).set 0 x = v.set 0 x := by
  obtain ⟨w, r, _, rfl | rfl | rfl⟩ := keyed_cases h <;> exact Vector.set_set _ (by decide)

/-- `g` after `f`, both on `V0` and the same key register, restores every register: `f` left the key as it was. -/
theorem set_zero_undo (g f : DWord → DWord → DWord) (hgf : ∀ x k, g (f x k) k = x) {r : Fin 8} (hr : r ≠ 0)
    (v : Vector DWord 8) :
    (v.set 0 (f v[0] v[r])).set 0 (g (v.set 0 (f v[0] v[r]))[0] (v.set 0 (f v[0] v[r]))[r]) = v := by
  rw [getElem_set_zero_of_ne hr, Vector.getElem_set_self, hgf, Vector.set_set, Vector.set_getElem_self]

/-- The inverse operation undoes a keyed one (48_lane_transform.md R318). -/
theorem lopApply_inverseOp {o : LaneOp} (h : keyed o = true) (v : Vector DWord 8) :
    lopApply (inverseOp o) (lopApply o v) = v := by
  obtain ⟨w, r, hr, rfl | rfl | rfl⟩ := keyed_cases h
  · exact set_zero_undo (subLanes w) (addLanes w) (subLanes_addLanes w) hr v
  · exact set_zero_undo (addLanes w) (subLanes w) (addLanes_subLanes w) hr v
  · have hxor : ∀ x k : DWord, x ^^^ k ^^^ k = x := fun x k => by
      rw [BitVec.xor_assoc, BitVec.xor_self, BitVec.xor_zero]
    exact set_zero_undo (· ^^^ ·) (· ^^^ ·) hxor hr v

end Sys2Proof.Machine
end

section
/-! PROOFS. LANE: its checks, the blocks of its window one after another, and the inverse program (O53, O54;
48_lane_transform.md R312, R313, R318, R319). -/

namespace Sys2Proof.Machine

open Sys2Proof

/-! ## The checks -/

theorem exec_lane_of_illegal_outLen {s : State} (h : 2 ^ 31 - 1 < s.outLen.toNat) : exec .lane s = raisesOnly s 6 :=
  (if_neg (mt (outLenLegal_iff s).mp (by omega))).trans (trap_illegalCommand s)

theorem exec_lane_of_outside {s : State} {os : List LaneOp} (hlen : s.outLen.toNat ≤ 2 ^ 31 - 1)
    (hos : lopProgram (lopSlots s) = .ok os) (hw : ¬ windowInside s) : exec .lane s = raisesOnly s 1 := by
  show execLane s = _
  rw [execLane, if_pos ((outLenLegal_iff s).mpr hlen), hos]
  exact (if_neg (mt (inOut_iff s _ _).mp hw)).trans (trap_boundsViolation s)

theorem exec_lane {s : State} {os : List LaneOp} (hlen : s.outLen.toNat ≤ 2 ^ 31 - 1)
    (hos : lopProgram (lopSlots s) = .ok os) (hw : windowInside s) :
    exec .lane s = .next { s with v := (laneRun os s).1, out := (laneRun os s).2, status := validStatus s } := by
  show execLane s = _
  rw [execLane, if_pos ((outLenLegal_iff s).mpr hlen), hos]
  exact if_pos ((inOut_iff s _ _).mpr hw)

/-! ## The blocks -/

/-- The last block runs on what the blocks before it left (48_lane_transform.md R319). -/
theorem laneBlocks_succ (os : List LaneOp) (n a : Nat) (p : Vector DWord 8 × Memory) :
    laneBlocks os (n + 1) a p = laneBlock os (a + 8 * n) (laneBlocks os n a p) := by
  induction n generalizing a p with
  | zero => rfl
  | succ n ih =>
    rw [laneBlocks, ih, laneBlocks, show a + 8 + 8 * n = a + 8 * (n + 1) by omega]

theorem loadKeys_succ (s : State) (j : Fin 7) : (loadKeys s)[j.val + 1] = s.kr[j] := by fin_cases j <;> rfl

/-- A block's registers: the program from the registers the block before left, on the block's bytes as they were
(48_lane_transform.md R313, R319). -/
theorem fst_laneBlocks_succ (os : List LaneOp) (b a : Nat) (p : Vector DWord 8 × Memory) :
    (laneBlocks os (b + 1) a p).1
      = lopRun os ((laneBlocks os b a p).1.set 0 (BitVec.ofNat 64 (p.2.readLE .out (a + 8 * b) 8))) := by
  have hunread : (laneBlocks os b a p).2.readLE .out (a + 8 * b) 8 = p.2.readLE .out (a + 8 * b) 8 :=
    Memory.readLE_congr _ _ _ _ _ fun x hlow _ => laneBlocks_outside os b a p x (.inr hlow)
  rw [laneBlocks_succ, laneBlock, hunread]

/-- Each block of `OUT` is the `V0` its run left (48_lane_transform.md R313). -/
theorem readLE_laneBlocks (os : List LaneOp) {n b : Nat} (a : Nat) (p : Vector DWord 8 × Memory) (hb : b < n) :
    (laneBlocks os n a p).2.readLE .out (a + 8 * b) 8 = (laneBlocks os (b + 1) a p).1[0].toNat := by
  induction n with
  | zero => exact absurd hb (Nat.not_lt_zero b)
  | succ n ih =>
    rw [laneBlocks_succ os n]
    obtain hlt | rfl := Nat.lt_succ_iff_lt_or_eq.mp hb
    · rw [← ih hlt]
      exact Memory.readLE_congr _ _ _ _ _ fun x _ hx => Memory.read_writeLE_outside _ _ _ _ _ _ (by omega)
    · rw [laneBlocks_succ, laneBlock, Memory.readLE_writeLE]
      exact Nat.mod_eq_of_lt (BitVec.isLt _)

/-- Settles O53: `vs b` is what the registers hold after the first `b` blocks. -/
theorem laneRunsTheProgramOverBlocks : Obligations.LaneRunsTheProgramOverBlocks := by
  intro s os hos
  refine ⟨exec_lane_of_illegal_outLen, fun hlen hw => exec_lane_of_outside hlen hos hw, fun hlen hw => ?_⟩
  refine ⟨fun b => (laneBlocks os b s.ciphOff.toNat (loadKeys s, s.out)).1, (laneRun os s).2,
    exec_lane hlen hos hw, rfl, loadKeys_succ s, fun b hb => ?_, fun x hx => laneBlocks_outside _ _ _ _ x hx⟩
  exact ⟨fst_laneBlocks_succ os b _ _, readLE_laneBlocks os _ _ hb⟩

/-! ## The inverse program -/

theorem lopRun_cons (o : LaneOp) (os : List LaneOp) (v : Vector DWord 8) :
    lopRun (o :: os) v = lopRun os (lopApply o v) := rfl

theorem lopRun_concat (os : List LaneOp) (o : LaneOp) (v : Vector DWord 8) :
    lopRun (os ++ [o]) v = lopApply o (lopRun os v) := by
  rw [lopRun, List.foldl_append]
  rfl

/-- The operations of R318, last first. -/
def inverseProgram (os : List LaneOp) : List LaneOp := (os.map inverseOp).reverse

theorem inverseProgram_cons (o : LaneOp) (os : List LaneOp) :
    inverseProgram (o :: os) = inverseProgram os ++ [inverseOp o] := by
  rw [inverseProgram, List.map_cons, List.reverse_cons]
  rfl

theorem keyed_inverseOp (o : LaneOp) : keyed (inverseOp o) = keyed o := by cases o <;> rfl

theorem all_keyed_inverseProgram (os : List LaneOp) : (inverseProgram os).all keyed = os.all keyed := by
  simp [inverseProgram, Function.comp_def, keyed_inverseOp]

/-- A keyed program writes `V0` only (48_lane_transform.md R318). -/
theorem lopRun_keyed_set_zero {os : List LaneOp} (h : os.all keyed = true) (v : Vector DWord 8) (x : DWord) :
    (lopRun os v).set 0 x = v.set 0 x := by
  induction os generalizing v with
  | nil => rfl
  | cons o os ih =>
    rw [List.all_cons, Bool.and_eq_true] at h
    obtain ⟨ho, hos⟩ := h
    rw [lopRun_cons, ih hos, lopApply_keyed_set_zero ho]

/-- The inverse program undoes a keyed one, on all registers (48_lane_transform.md R318). -/
theorem lopRun_inverseProgram {os : List LaneOp} (h : os.all keyed = true) (v : Vector DWord 8) :
    lopRun (inverseProgram os) (lopRun os v) = v := by
  induction os generalizing v with
  | nil => rfl
  | cons o os ih =>
    rw [List.all_cons, Bool.and_eq_true] at h
    obtain ⟨ho, hos⟩ := h
    rw [lopRun_cons, inverseProgram_cons, lopRun_concat, ih hos, lopApply_inverseOp ho]

/-- The inverse program, on `V0` as a keyed program left it and on the same keys, restores `V0` (48_lane_transform.md
R318). -/
theorem lopRun_inverseProgram_set_zero {os : List LaneOp} (h : os.all keyed = true) (v : Vector DWord 8) (x : DWord) :
    lopRun (inverseProgram os) (v.set 0 (lopRun os (v.set 0 x))[0]) = v.set 0 x := by
  have hleft : v.set 0 (lopRun os (v.set 0 x))[0] = lopRun os (v.set 0 x) := by
    rw [← Vector.set_set (xs := v), ← lopRun_keyed_set_zero h, Vector.set_getElem_self]
  rw [hleft, lopRun_inverseProgram h]

/-- Under a keyed program the key registers of every block are those loaded at the start (48_lane_transform.md
R319). -/
theorem laneBlocks_keyed_set_zero {os : List LaneOp} (h : os.all keyed = true) (b a : Nat)
    (p : Vector DWord 8 × Memory) (x : DWord) : (laneBlocks os b a p).1.set 0 x = p.1.set 0 x := by
  induction b with
  | zero => rfl
  | succ b ih => rw [fst_laneBlocks_succ, lopRun_keyed_set_zero h, Vector.set_set, ih]

/-- A keyed program leaves in each block what it makes of the block's bytes and the keys, whatever the blocks before
were (48_lane_transform.md R318). -/
theorem readLE_laneBlocks_keyed {os : List LaneOp} (h : os.all keyed = true) {n b : Nat} (a : Nat)
    (p : Vector DWord 8 × Memory) (hb : b < n) :
    (laneBlocks os n a p).2.readLE .out (a + 8 * b) 8
      = (lopRun os (p.1.set 0 (BitVec.ofNat 64 (p.2.readLE .out (a + 8 * b) 8))))[0].toNat := by
  rw [readLE_laneBlocks os a p hb, fst_laneBlocks_succ, laneBlocks_keyed_set_zero h]

/-- The block loop run again with the same keys and the inverse program restores every byte (48_lane_transform.md
R318). -/
theorem read_laneBlocks_inverseProgram {os : List LaneOp} (h : os.all keyed = true) (n a : Nat) (m : Memory)
    {v v' : Vector DWord 8} (hkeys : ∀ x, v'.set 0 x = v.set 0 x) (i : Nat) :
    (laneBlocks (inverseProgram os) n a (v', (laneBlocks os n a (v, m)).2)).2.read .out i = m.read .out i := by
  by_cases hi : i < a ∨ a + 8 * n ≤ i
  · rw [laneBlocks_outside _ _ _ _ i hi, laneBlocks_outside _ _ _ _ i hi]
  · have hb : (i - a) / 8 < n := by omega
    rw [show i = a + 8 * ((i - a) / 8) + (i - a) % 8 by omega]
    refine read_eq_of_readLE_eq (Nat.mod_lt _ (by decide)) ?_
    have hinv : (inverseProgram os).all keyed = true := (all_keyed_inverseProgram os).trans h
    rw [readLE_laneBlocks_keyed hinv a _ hb, readLE_laneBlocks_keyed h a _ hb, BitVec.ofNat_toNat, BitVec.setWidth_eq,
      hkeys, lopRun_inverseProgram_set_zero h, Vector.getElem_set_self, BitVec.toNat_ofNat]
    exact Nat.mod_eq_of_lt (Memory.readLE_lt _ _ _ _)

/-- The state LANE leaves, with the program rewritten to `p`. -/
def afterLane (s : State) (os : List LaneOp) (p : Vector Word 4) : State :=
  { s with v := (laneRun os s).1, out := (laneRun os s).2, status := validStatus s, lprog := p }

/-- Keys loaded again are the same keys: LANE writes no `KRj` (48_lane_transform.md R310). -/
theorem loadKeys_afterLane_set_zero (s : State) (os : List LaneOp) (p : Vector Word 4) (x : DWord) :
    (loadKeys (afterLane s os p)).set 0 x = (loadKeys s).set 0 x := rfl

/-- Settles O54: the second LANE runs the inverse program over the blocks of the first, with the keys loaded again. -/
theorem inverseProgramRestoresOut : Obligations.InverseProgramRestoresOut := by
  intro s os p hlen hw hos hkeyed hinv
  refine ⟨_, _, exec_lane hlen hos hw, exec_lane (s := afterLane s os p) (os := inverseProgram os) hlen hinv hw,
    fun a => ?_⟩
  exact read_laneBlocks_inverseProgram hkeyed _ _ s.out (loadKeys_afterLane_set_zero s os p) a

end Sys2Proof.Machine
end

section
/-! PROOFS. The interrupt output and the entry of an exception (O6, O9; 60_exceptions.md R340, R345, R350). -/

namespace Sys2Proof.Machine

open Sys2Proof

theorem irq_iff (s : State) : irq s = true ↔ s.ie = true ∧ s.status.done = true := Bool.and_eq_true_iff

theorem irq_of_done {s : State} (h : s.status.done = true) : irq s = s.ie := by rw [irq, h, Bool.and_true]

theorem irq_of_not_done {s : State} (h : s.status.done = false) : irq s = false := by rw [irq, h, Bool.and_false]

theorem irq_of_not_ie {s : State} (h : s.ie = false) : irq s = false := by rw [irq, h, Bool.false_and]

theorem irq_raise (e : Exc) (sub : BitVec 3) (s : State) : irq (raise e sub s) = s.ie :=
  irq_of_done (s := raise e sub s) rfl

/-- Settles O6: each event by what it leaves in `CTRL.IE` and `STATUS.DONE`. -/
theorem interruptFollowsDone : Obligations.InterruptFollowsDone := by
  intro s
  refine ⟨irq_iff s, ⟨finish s, rfl, irq_of_done rfl⟩, fun e sub => irq_raise e sub s,
    fun w rest => irq_of_not_done rfl, ⟨clearStatus s, rfl, irq_of_not_done rfl⟩,
    ⟨resetRegisters s, rfl, irq_of_not_done rfl⟩, fun x rest hs hx => ?_⟩
  exact ⟨_, step_writeReg (r := .ctrl) rfl nofun hs, irq_of_not_ie hx⟩

/-- Settles O9: the entry of an exception writes `STATUS` alone, and the codes are those of the table. -/
theorem raiseWritesOnlyStatus : Obligations.RaiseWritesOnlyStatus :=
  ⟨fun e sub s => ⟨rfl, irq_raise e sub s⟩, rfl, rfl, rfl, rfl, rfl, rfl⟩

end Sys2Proof.Machine
end

section
/-! PROOFS. What reads the same below a length: memories that agree there under every store and every loop of stores
that reads there, and cursors over them, which hand out the same bits (20_memory.md R71, R76; 41_bitcursor.md R151). -/

namespace Sys2Proof.Machine

open Sys2Proof

/-! ## Memories -/

/-- The two memories read alike below `n`. -/
def SameBelow (sp : Space) (n : Nat) (m m' : Memory) : Prop := ∀ a < n, m'.read sp a = m.read sp a

section

variable {n : Nat} {m m' : Memory}

theorem SameBelow.write (h : SameBelow .out n m m') (a : Nat) (b : Byte) :
    SameBelow .out n (m.write a b) (m'.write a b) := by
  intro x hx
  rw [Memory.read_write, Memory.read_write, h x hx]

theorem SameBelow.writeBytes (h : SameBelow .out n m m') (a : Nat) (bs : List Byte) :
    SameBelow .out n (m.writeBytes a bs) (m'.writeBytes a bs) := by
  intro x hx
  rw [Memory.read_writeBytes, Memory.read_writeBytes, h x hx]

theorem SameBelow.zeroFill (h : SameBelow .out n m m') (k : Nat) :
    SameBelow .out n (m.zeroFill k) (m'.zeroFill k) := by
  intro x hx
  rw [Memory.read_zeroFill, Memory.read_zeroFill, h x hx]

theorem SameBelow.readLE_eq (h : SameBelow .out n m m') {a k : Nat} (hin : a + k ≤ n) :
    m'.readLE .out a k = m.readLE .out a k :=
  Memory.readLE_congr .out m' m a k fun x _ hx => h x (by omega)

/-- The copy loop reads below its destination, and what it reads is alike (42_overlapcopy.md R171). -/
theorem SameBelow.copyUp (h : SameBelow .out n m m') {src dst len : Nat} (hlt : src < dst) (hin : dst + len ≤ n) :
    SameBelow .out n (m.copyUp src dst len) (m'.copyUp src dst len) := by
  induction len generalizing src dst m m' with
  | zero => exact h
  | succ len ih =>
    rw [Memory.copyUp, Memory.copyUp, h src (by omega)]
    exact ih (h.write _ _) (by omega) (by omega)

/-- The lanes of CIPHER are read inside their window (47_stream_cipher.md R280). -/
theorem SameBelow.cipherLanes (h : SameBelow .out n m m') (comb lw : Nat) {k a : Nat} (ks : List Byte)
    (hin : a + k * lw ≤ n) : SameBelow .out n (cipherLanes comb lw k a ks m) (cipherLanes comb lw k a ks m') := by
  induction k generalizing a ks m m' with
  | zero => exact h
  | succ k ih =>
    rw [Nat.succ_mul] at hin
    rw [Machine.cipherLanes, Machine.cipherLanes, h.readLE_eq (by omega)]
    exact ih (h.writeBytes _ _) _ (by omega)

/-- The blocks of LANE are read inside their window, so the registers come out the same (48_lane_transform.md R313). -/
theorem SameBelow.laneBlocks (h : SameBelow .out n m m') (os : List LaneOp) (v : Vector DWord 8) {k a : Nat}
    (hin : a + 8 * k ≤ n) : (laneBlocks os k a (v, m')).1 = (laneBlocks os k a (v, m)).1
      ∧ SameBelow .out n (laneBlocks os k a (v, m)).2 (laneBlocks os k a (v, m')).2 := by
  induction k generalizing a v m m' with
  | zero => exact ⟨rfl, h⟩
  | succ k ih =>
    rw [Machine.laneBlocks, Machine.laneBlocks, laneBlock, laneBlock, h.readLE_eq (by omega)]
    exact ih (h.writeBytes _ _) _ (by omega)

end

/-! ## Cursors -/

section

variable {e : Reader} {src : Memory}

/-- Past the end a cursor reads zeros, so the bytes it can see are alike (20_memory.md R71). -/
theorem refillWord_congr (h : SameBelow .src e.len e.src src) (p : Nat) :
    Reader.refillWord { e with src := src } p = e.refillWord p := by
  have hbyte (a : Nat) : Reader.byte { e with src := src } a = e.byte a := by
    unfold Reader.byte
    split_ifs with ha
    · exact h a ha
    · rfl
  simp only [Reader.refillWord, hbyte]

theorem take1_congr (h : SameBelow .src e.len e.src src) (c : BitCursor) :
    take1 { e with src := src } c = take1 e c := by
  simp only [take1, ensureBit, refill, refillWord_congr h]

theorem take_congr (h : SameBelow .src e.len e.src src) : take { e with src := src } = take e := by
  have hloop (k i r : Nat) (c : BitCursor) : takeLoop { e with src := src } k i r c = takeLoop e k i r c := by
    induction k generalizing i r c with
    | zero => rfl
    | succ k ih => rw [takeLoop, takeLoop, take1_congr h, ih]
  funext n c
  exact hloop n 0 0 c

end

/-! ## Fetches, which read through `take` alone -/

section

variable {e e' : Reader} (h : take e' = take e)

include h

theorem takeBytes_congr (n : Nat) (c : BitCursor) : takeBytes e' n c = takeBytes e n c := by
  induction n generalizing c with
  | zero => rfl
  | succ n ih => simp only [takeBytes, h, ih]

theorem fetchPfxBody_congr (f : Format) (k : PfxKind) (c : BitCursor) :
    fetchPfxBody f e' k c = fetchPfxBody f e k c := by
  cases k with
  | copy => simp only [fetchPfxBody, fetchCopy, h]
  | _ => simp only [fetchPfxBody, h]

theorem fetchPfx_congr (f : Format) (c : BitCursor) : fetchPfx f e' c = fetchPfx f e c := by
  have htag : peek e' 3 c = peek e 3 c := by rw [peek, peek, h]
  simp only [fetchPfx, htag, fetchPfxBody_congr h, h]

theorem fetchByt_congr (f : Format) (c : BitCursor) : fetchByt f e' c = fetchByt f e c := by
  simp only [fetchByt, fetchBytBody, fetchCount, fetchX16, h]

theorem unaryPrefix_congr (m k : Nat) (c : BitCursor) : unaryPrefix e' m k c = unaryPrefix e m k c := by
  induction m generalizing k c with
  | zero => simp only [unaryPrefix, h]
  | succ m ih => simp only [unaryPrefix, h, ih]

theorem fetchElem_congr (f : Format) (c : BitCursor) : fetchElem f e' c = fetchElem f e c := by
  simp only [fetchElem, signMap, unaryPrefix_congr h, h]

theorem fetchPair_congr (c : BitCursor) : fetchPair e' c = fetchPair e c := by
  simp only [fetchPair, h]

end

end Sys2Proof.Machine
end

section
/-! PROOFS. Two decodes over states that differ past the lengths alone end in states that differ there alone (O57;
20_memory.md R76; 60_exceptions.md R353). The two memories do differ, so every read has to be shown to lie below its
length: a copy reads below its destination, a predictor inside the image. -/

namespace Sys2Proof.Machine

open Sys2Proof

/-! ## The scan position of a legal image -/

/-- While elements are left, the scan position lies in the image (46_delta_pixel.md R251). -/
theorem scanPosition_inside {s : State} (himage : imageLegal s) (hmore : moreElems s = true) :
    scanRow s < dpHeight s ∧ scanColumn s < dpWidth s ∧ scanChannel s < dpChannels s := by
  have hlt := (moreElems_iff s).mp hmore
  have hcols : 0 < deltaColumns s := Nat.pos_of_mul_pos_left (Nat.zero_lt_of_lt hlt)
  have hpixel : s.opos.toNat / deltaColumns s < dpWidth s * dpHeight s := (Nat.div_lt_iff_lt_mul hcols).mpr hlt
  have hwidth : 0 < dpWidth s := Nat.pos_of_mul_pos_right (Nat.zero_lt_of_lt hpixel)
  refine ⟨(Nat.div_lt_iff_lt_mul hwidth).mpr (Nat.mul_comm .. ▸ hpixel), Nat.mod_lt _ hwidth, ?_⟩
  exact Nat.lt_of_lt_of_le (Nat.mod_lt _ hcols) (deltaColumns_le_dpChannels himage)

/-! ## States -/

theorem sameInside_iff {s s' : State} : sameInside s s' ↔ ∃ src out, s' = { s with src := src, out := out }
    ∧ SameBelow .src s.srcLen.toNat s.src src ∧ SameBelow .out s.outLen.toNat s.out out := by
  refine ⟨fun ⟨hs, hsrc, hout⟩ => ⟨s'.src, s'.out, hs, hsrc, hout⟩, ?_⟩
  rintro ⟨src, out, rfl, hsrc, hout⟩
  exact ⟨rfl, hsrc, hout⟩

/-- Two iterations that end the same way, in states that are the same inside the lengths. -/
inductive TokenEnd.SameInside : TokenEnd → TokenEnd → Prop
  | emitted {s s' : State} (h : sameInside s s') : SameInside (.emitted s) (.emitted s')
  | ended {s s' : State} (h : sameInside s s') : SameInside (.ended s) (.ended s')
  | raised {s s' : State} (e : Exc) (h : sameInside s s') : SameInside (.raised e s) (.raised e s')

/-- Two decodes that end the same way, in states that are the same inside the lengths. -/
inductive DecodeEnd.SameInside : DecodeEnd → DecodeEnd → Prop
  | done {s s' : State} (h : sameInside s s') : SameInside (.done s) (.done s')
  | raised {s s' : State} (e : Exc) (h : sameInside s s') : SameInside (.raised e s) (.raised e s')

section

variable {s s' : State} (h : sameInside s s')

include h

/-- What does not look at the memories is the same. -/
theorem sameInside.congr {α : Type} (g : State → α)
    (hg : ∀ src out, g { s with src := src, out := out } = g s := by intros; rfl) : g s' = g s := by
  obtain ⟨src, out, rfl, _⟩ := sameInside_iff.mp h
  exact hg src out

/-- An update that does not look at the memories, and leaves them and the lengths as they are, is made in both. -/
theorem sameInside.update (g : State → State)
    (hg : ∀ src out, g { s with src := src, out := out } = { g s with src := src, out := out } := by intros; rfl)
    (hkeeps : (g s).src = s.src ∧ (g s).srcLen = s.srcLen ∧ (g s).out = s.out ∧ (g s).outLen = s.outLen := by
      exact ⟨rfl, rfl, rfl, rfl⟩) : sameInside (g s) (g s') := by
  obtain ⟨src, out, rfl, hsrc, hout⟩ := sameInside_iff.mp h
  obtain ⟨hsrcEq, hsrcLen, houtEq, houtLen⟩ := hkeeps
  refine sameInside_iff.mpr ⟨src, out, hg src out, ?_, ?_⟩
  · rwa [hsrcEq, hsrcLen]
  · rwa [houtEq, houtLen]

theorem sameInside.withCursor (c : BitCursor) : sameInside (withCursor s c) (withCursor s' c) :=
  h.update (Machine.withCursor · c)

theorem sameInside.setEarly : sameInside (setEarly s) (setEarly s') := h.update Machine.setEarly

theorem sameInside.startDecode (f : Format) : sameInside (startDecode f s) (startDecode f s') := by
  obtain ⟨src, out, rfl, hsrc, hout⟩ := sameInside_iff.mp h
  exact ⟨rfl, hsrc, hout.zeroFill _⟩

/-- What a token asks about besides the bytes. -/
theorem sameInside.registers : s'.cur = s.cur ∧ s'.opos = s.opos ∧ inOut s' = inOut s ∧ overrun s' = overrun s
    ∧ payloadPresent s' = payloadPresent s :=
  ⟨h.congr State.cur, h.congr State.opos, h.congr inOut, h.congr overrun, h.congr payloadPresent⟩

theorem sameInside.out_sameBelow : SameBelow .out s.outLen.toNat s.out s'.out := h.2.2

/-- What a decode reads from `SRC` (43_token_decoder.md R181). -/
theorem sameInside.take_readerFor (f : Format) : take (readerFor f s') = take (readerFor f s) := by
  obtain ⟨src, out, rfl, hsrc, _⟩ := sameInside_iff.mp h
  exact take_congr (e := readerFor f s) hsrc

/-- What the cursor commands and a payload read from `SRC` (41_bitcursor.md R150). -/
theorem sameInside.take_cursorReader :
    Option.Rel (fun e e' => take e' = take e) (cursorReader s) (cursorReader s') := by
  obtain ⟨src, out, rfl, hsrc, _⟩ := sameInside_iff.mp h
  unfold cursorReader
  cases s.cur.refill? with
  | none => exact .none
  | some w =>
    exact .some (take_congr (e := { order := s.cur.order, width := w, src := s.src, len := s.srcLen.toNat }) hsrc)

/-- Output is emitted into both. -/
theorem sameInside.emit {m m' : Memory} (hm : SameBelow .out s.outLen.toNat m m') (p : Word) :
    TokenEnd.SameInside (.emitted { s with out := m, opos := p }) (.emitted { s' with out := m', opos := p }) := by
  obtain ⟨src, out, rfl, hsrc, _⟩ := sameInside_iff.mp h
  exact .emitted ⟨rfl, hsrc, hm⟩

/-! ## Tokens -/

theorem sameInside.afterHeader {r r' : TokenEnd} (hr : r.SameInside r') :
    (afterHeader s r).SameInside (afterHeader s' r') := by
  obtain ⟨_, _, _, hover, _⟩ := h.registers
  unfold Machine.afterHeader
  rw [hover]
  split_ifs
  · exact .raised _ h
  · exact hr

theorem sameInside.undefinedCode : (undefinedCode s).SameInside (undefinedCode s') :=
  h.afterHeader (.raised _ h)

theorem sameInside.emitBytes (bs : List Byte) : (emitBytes bs s).SameInside (emitBytes bs s') := by
  obtain ⟨_, hopos, hin, _⟩ := h.registers
  unfold Machine.emitBytes
  rw [hin, hopos]
  split_ifs
  · exact h.emit (h.out_sameBelow.writeBytes _ bs) _
  · exact .raised _ h

theorem sameInside.emitFill (unit : List Byte) (count : Nat) :
    (emitFill unit count s).SameInside (emitFill unit count s') := by
  unfold Machine.emitFill
  split_ifs
  · exact .raised _ h
  · exact h.emitBytes _

/-- The copy primitive writes above what it reads and below `OUT_LEN` (42_overlapcopy.md R170). -/
theorem sameInside.overlapCopy (src dst len : Nat) :
    Option.Rel (SameBelow .out s.outLen.toNat) (overlapCopy s src dst len) (overlapCopy s' src dst len) := by
  obtain ⟨_, _, hin, _⟩ := h.registers
  unfold Machine.overlapCopy
  rw [hin]
  split_ifs with hle hlen
  · exact .none
  · exact .some (h.out_sameBelow.copyUp (by omega) ((inOut_iff s dst len).mp hlen))
  · exact .none

theorem sameInside.emitCopy (offset length : Nat) :
    (emitCopy offset length s).SameInside (emitCopy offset length s') := by
  obtain ⟨_, hopos, _⟩ := h.registers
  have hcopy := h.overlapCopy (s.opos.toNat - offset) s.opos.toNat length
  unfold Machine.emitCopy
  rw [hopos]
  split_ifs
  · exact .raised _ h
  · exact .raised _ h
  · generalize Machine.overlapCopy s _ _ _ = r, Machine.overlapCopy s' _ _ _ = r' at hcopy
    cases hcopy with
    | none => exact .raised _ h
    | some hm => exact h.emit hm _

theorem sameInside.emitPayload (n : Nat) : (emitPayload n s).SameInside (emitPayload n s') := by
  obtain ⟨hcur, _⟩ := h.registers
  have hreads := h.take_cursorReader
  unfold Machine.emitPayload
  rw [hcur]
  generalize cursorReader s = o, cursorReader s' = o' at hreads
  cases hreads with
  | none => exact .raised _ h
  | some htake =>
    dsimp only
    rw [takeBytes_congr htake]
    exact (h.withCursor _).emitBytes _

theorem sameInside.bytLitrun (count : BitVec 16) : (bytLitrun count s).SameInside (bytLitrun count s') := by
  obtain ⟨_, hopos, hin, _, hpresent⟩ := h.registers
  refine h.afterHeader ?_
  rw [hin, hopos, hpresent]
  split_ifs
  · exact .raised _ h
  · exact h.emitPayload _
  · exact .raised _ h
  · exact .raised _ h

theorem sameInside.pfxRun (t : PfxToken) : (pfxRun t s).SameInside (pfxRun t s') := by
  cases t with
  | lit v => exact h.afterHeader (h.emitBytes _)
  | run2 v => exact h.afterHeader (h.emitFill _ _)
  | run3 v => exact h.afterHeader (h.emitFill _ _)
  | copy o l form => exact h.afterHeader (h.emitCopy _ _)
  | term => exact .ended h.setEarly

theorem sameInside.bytRun (t : BytToken) : (bytRun t s).SameInside (bytRun t s') := by
  cases t with
  | term => exact .ended h.setEarly
  | litrun count form => exact h.bytLitrun count
  | fillb count form v => exact h.afterHeader (h.emitFill _ _)
  | fillw count form u0 u1 => exact h.afterHeader (h.emitFill _ _)
  | copys l form o => exact h.afterHeader (h.emitCopy _ _)
  | copyl l form o => exact h.afterHeader (h.emitCopy _ _)

/-! ## The delta family -/

/-- A predictor of a sample of the image reads in the image, or not at all (46_delta_pixel.md R253). -/
theorem sameInside.predict (himage : imageLegal s) (sel : Predictor) {r x c : Nat} (hr : r < dpHeight s)
    (hx : x < dpWidth s) (hc : c < dpChannels s) : predict s' sel r x c = predict s sel r x c := by
  obtain ⟨src, out, rfl, _, hout⟩ := sameInside_iff.mp h
  have hread {r' x' : Nat} (hr' : r' ≤ r) (hx' : x' ≤ x) :
      out.read .out (sampleAddr s r' x' c) = s.out.read .out (sampleAddr s r' x' c) :=
    hout _ (sampleAddr_lt_outLen himage (by omega) (by omega) hc)
  cases sel with
  | left => exact congrArg (ite _ _) (hread le_rfl (Nat.sub_le x 1))
  | up => exact congrArg (ite _ _) (hread (Nat.sub_le r 1) le_rfl)
  | upLeft => exact congrArg (ite _ _) (hread (Nat.sub_le r 1) (Nat.sub_le x 1))
  | ref => rfl

theorem sameInside.dpxElem (himage : imageLegal s) (hmore : moreElems s = true) (sel : Predictor) (delta : Int) :
    (dpxElem sel delta s).SameInside (dpxElem sel delta s') := by
  obtain ⟨hrow, hcolumn, hchannel⟩ := scanPosition_inside himage hmore
  have hpredict := h.predict himage sel hrow hcolumn hchannel
  have hout := h.out_sameBelow
  refine h.afterHeader ?_
  obtain ⟨src, out, rfl, hsrc, _⟩ := sameInside_iff.mp h
  show TokenEnd.SameInside _ (if inOut s (elemAddr s) 1 then _ else _)
  split_ifs
  · exact h.emit (hpredict ▸ hout.write _ _) _
  · exact .raised _ h

/-- The addresses of a run do not depend on the bytes (46_delta_pixel.md R260). -/
theorem sameInside.writeAlpha (val : Byte) (q run : Nat) {m m' : Memory}
    (hm : SameBelow .out s.outLen.toNat m m') :
    SameBelow .out s.outLen.toNat (writeAlpha s val q run m) (writeAlpha s' val q run m') := by
  have haddr : alphaAddr s' = alphaAddr s := h.congr alphaAddr
  induction run generalizing q m m' with
  | zero => exact hm
  | succ run ih =>
    rw [Machine.writeAlpha, Machine.writeAlpha, haddr]
    exact ih _ (hm.write _ val)

theorem sameInside.dpxApair (runm1 value : Byte) : (dpxApair runm1 value s).SameInside (dpxApair runm1 value s') := by
  have hrun := h.writeAlpha value (alphaDone s) (runm1.toNat + 1) h.out_sameBelow
  refine h.afterHeader ?_
  obtain ⟨src, out, rfl, hsrc, _⟩ := sameInside_iff.mp h
  show TokenEnd.SameInside _ (if alphaDone s + (runm1.toNat + 1) ≤ pixelCount s
    ∧ alphaInOut s (alphaDone s) (runm1.toNat + 1) then _ else _)
  split_ifs
  · exact h.emit hrun _
  · exact .raised _ h

end

end Sys2Proof.Machine
end

section
/-! PROOFS. The loops of a decode, DECODE and PROBE over states that differ past the lengths alone (O57;
43_token_decoder.md R181; 45_variant_prober.md R230; 60_exceptions.md R353). -/

namespace Sys2Proof.Machine

open Sys2Proof

/-! ## One iteration -/

section

variable {s s' : State} (h : sameInside s s') (f : Format)

include h

theorem sameInside.pfxStep : (pfxStep f s).SameInside (pfxStep f s') := by
  obtain ⟨hcur, _⟩ := h.registers
  unfold Machine.pfxStep pfxFetched
  rw [hcur, fetchPfx_congr (h.take_readerFor f)]
  split
  · exact (h.withCursor _).undefinedCode
  · exact (h.withCursor _).pfxRun _

theorem sameInside.bytStep : (bytStep f s).SameInside (bytStep f s') := by
  obtain ⟨hcur, _⟩ := h.registers
  unfold Machine.bytStep bytFetched
  rw [hcur, fetchByt_congr (h.take_readerFor f)]
  exact (h.withCursor _).bytRun _

theorem sameInside.elemStep (himage : imageLegal s) (hmore : moreElems s = true) :
    (elemStep f s).SameInside (elemStep f s') := by
  obtain ⟨hcur, _⟩ := h.registers
  unfold Machine.elemStep elemFetched
  rw [hcur, fetchElem_congr (h.take_readerFor f)]
  split
  · exact (h.withCursor _).undefinedCode
  · exact (h.withCursor (fetchElem f (readerFor f s) s.cur).2).dpxElem himage hmore _ _

theorem sameInside.pairStep : (pairStep f s).SameInside (pairStep f s') := by
  obtain ⟨hcur, _⟩ := h.registers
  unfold Machine.pairStep pairFetched
  rw [hcur, fetchPair_congr (h.take_readerFor f)]
  exact (h.withCursor _).dpxApair _ _

end

/-! ## A loop -/

/-- A loop which, in states that meet `P`, depends on nothing past the lengths. -/
structure LoopsInside (P : State → Prop) (more : State → Bool) (body : State → TokenEnd) : Prop where
  keeps : ∀ {s t}, P s → body s = .emitted t → P t
  asks : ∀ {s s'}, sameInside s s' → more s' = more s
  ends : ∀ {s s'}, P s → more s = true → sameInside s s' → (body s).SameInside (body s')

theorem LoopsInside.decodeLoop {P : State → Prop} {more : State → Bool} {body : State → TokenEnd}
    (hloop : LoopsInside P more body) (fuel : Nat) {s s' : State} (hP : P s) (h : sameInside s s') :
    (decodeLoop more body fuel s).SameInside (decodeLoop more body fuel s') := by
  induction fuel generalizing s s' with
  | zero => exact .done h
  | succ fuel ih =>
    rw [Machine.decodeLoop, Machine.decodeLoop, hloop.asks h]
    split
    case isFalse => exact .done h
    case isTrue hmore =>
      have hends := hloop.ends hP hmore h
      have hkeeps {t : State} : body s = .emitted t → P t := hloop.keeps hP
      generalize body s = r, body s' = r' at hends hkeeps
      cases hends with
      | emitted ht => exact ih (hkeeps rfl) ht
      | ended ht => exact .done ht
      | raised e ht => exact .raised e ht

/-- A loop whose body depends on nothing past the lengths in any state. -/
theorem loopsInside_of_body {more : State → Bool} {body : State → TokenEnd}
    (hasks : ∀ {s s'}, sameInside s s' → more s' = more s)
    (hbody : ∀ {s s'}, sameInside s s' → (body s).SameInside (body s')) :
    LoopsInside (fun _ => True) more body where
  keeps _ _ := trivial
  asks := hasks
  ends _ _ := hbody

theorem DecodeReaches.imageLegal {s t : State} (h : DecodeReaches s t) (himage : imageLegal s) : imageLegal t := by
  cases h
  exact himage

/-- The delta pass reads its neighbours in a legal image, which it leaves legal (46_delta_pixel.md R250). -/
theorem loopsInside_elemStep (f : Format) : LoopsInside imageLegal moreElems (elemStep f) where
  keeps himage hr := ((iterationActs_elemStep f).reaches_of_emitted hr).imageLegal himage
  asks h := h.congr moreElems
  ends himage hmore h := h.elemStep f himage hmore

/-! ## A whole decode -/

theorem sameInside.alphaPass {s s' : State} (h : sameInside s s') (f : Format) :
    (alphaPass f s).SameInside (alphaPass f s') := by
  obtain ⟨hcur, _⟩ := h.registers
  have hfuel : decodeFuel s' = decodeFuel s := h.congr decodeFuel
  rw [Machine.alphaPass, Machine.alphaPass, hfuel, hcur]
  have hloop := loopsInside_of_body (fun ht => ht.congr morePairs) fun ht => ht.pairStep f
  exact hloop.decodeLoop _ trivial (h.withCursor _)

theorem sameInside.deltaDecode {s s' : State} (h : sameInside s s') (himage : imageLegal s) (f : Format) :
    (deltaDecode f s).SameInside (deltaDecode f s') := by
  have hfuel : decodeFuel s' = decodeFuel s := h.congr decodeFuel
  have hends := (loopsInside_elemStep f).decodeLoop (decodeFuel s) himage h
  unfold Machine.deltaDecode
  rw [hfuel]
  generalize Machine.decodeLoop moreElems (Machine.elemStep f) (decodeFuel s) s = r,
    Machine.decodeLoop moreElems (Machine.elemStep f) (decodeFuel s) s' = r' at hends ⊢
  cases hends with
  | raised e ht => exact .raised e ht
  | @done t t' ht =>
    have halpha : dpAlpha t' = dpAlpha t := ht.congr dpAlpha
    dsimp only
    rw [halpha]
    split_ifs
    · exact ht.alphaPass f
    · exact .done ht

theorem sameInside.runFamily {s s' : State} (h : sameInside s s') (f : Format)
    (himage : f.family = .delta → imageLegal s) : (runFamily f s).SameInside (runFamily f s') := by
  have hfuel : decodeFuel s' = decodeFuel s := h.congr decodeFuel
  cases hfam : f.family with
  | pfx =>
    rw [runFamily_pfx hfam, runFamily_pfx hfam, hfuel]
    exact (loopsInside_of_body (fun ht => ht.congr moreOutput) fun ht => ht.pfxStep f).decodeLoop _ trivial h
  | byt =>
    rw [runFamily_byt hfam, runFamily_byt hfam, hfuel]
    exact (loopsInside_of_body (fun ht => ht.congr moreOutput) fun ht => ht.bytStep f).decodeLoop _ trivial h
  | delta =>
    rw [runFamily_delta hfam, runFamily_delta hfam]
    exact h.deltaDecode (himage hfam) f

theorem sameInside.decodeSlot {s s' : State} (h : sameInside s s') (v : Fin 4) :
    (decodeSlot v s).SameInside (decodeSlot v s') := by
  have hslot : slotFormat s' v = slotFormat s v := h.congr (slotFormat · v)
  unfold Machine.decodeSlot
  rw [hslot]
  cases hf : slotFormat s v with
  | none => exact .raised _ h
  | some f => exact (h.startDecode f).runFamily f (imageLegal_of_slotFormat hf)

/-! ## What is written past `OUT_LEN` -/

/-- `t` has the `OUT_LEN` of `s`, and in `OUT` past it the same bytes. -/
def KeepsOutside (s t : State) : Prop := t.outLen = s.outLen ∧ KeepsBeyond s t.out

theorem KeepsOutside.refl (s : State) : KeepsOutside s s := ⟨rfl, fun _ _ => rfl⟩

theorem KeepsOutside.trans {s t u : State} (h : KeepsOutside s t) (h' : KeepsOutside t u) : KeepsOutside s u := by
  obtain ⟨hlen, hout⟩ := h
  obtain ⟨hlen', hout'⟩ := h'
  exact ⟨hlen'.trans hlen, fun a ha => (hout' a (hlen ▸ ha)).trans (hout a ha)⟩

/-- Memories that are equal once zeroed below `OUT_LEN` are equal past it (20_memory.md R84). -/
theorem Restarts.keepsOutside {s t : State} (h : Restarts s t) : KeepsOutside s t := by
  cases h with | intro early c p m hm =>
  refine ⟨rfl, fun a ha => ?_⟩
  have hread : (m.zeroFill s.outLen.toNat).read .out a = (s.out.zeroFill s.outLen.toNat).read .out a := by rw [hm]
  rwa [Memory.read_zeroFill, Memory.read_zeroFill, if_neg (Nat.not_lt.mpr ha), if_neg (Nat.not_lt.mpr ha)] at hread

theorem keepsOutside_decodeSlot (v : Fin 4) (s : State) : KeepsOutside s (decodeSlot v s).state := by
  by_cases hslot : illegalSlot s v
  · rw [decodeSlot, (slotFormat_eq_none_iff s v).mpr hslot]
    exact .refl s
  · exact (restarts_decodeSlot hslot).keepsOutside

/-! ## DECODE and PROBE -/

/-- Two commands from `s` answer states that are the same inside the lengths `s` has, and the first writes no byte of
`OUT` past them. -/
def StaysInside (s : State) (r r' : Result) : Prop :=
  ∃ t t', r = .next t ∧ r' = .next t'
    ∧ t' = { t with src := t'.src, out := t'.out }
    ∧ (∀ a < s.outLen.toNat, t'.out.read .out a = t.out.read .out a)
    ∧ (∀ a, s.outLen.toNat ≤ a → t.out.read .out a = s.out.read .out a)

theorem staysInside_next {s t t' : State} (h : sameInside t t') (hk : KeepsOutside s t) :
    StaysInside s (.next t) (.next t') := by
  obtain ⟨hframe, _, hout⟩ := h
  obtain ⟨hlen, hbeyond⟩ := hk
  exact ⟨t, t', rfl, rfl, hframe, hlen ▸ hout, hbeyond⟩

theorem sameInside.raise {s s' : State} (h : sameInside s s') (e : Exc) (sub : BitVec 3) :
    sameInside (raise e sub s) (raise e sub s') :=
  h.update (Machine.raise e sub)

theorem sameInside.finishDecode {s s' : State} (h : sameInside s s') (v : BitVec 2) :
    sameInside (finishDecode v s) (finishDecode v s') :=
  h.update (Machine.finishDecode v)

theorem sameInside.acceptSlot {s s' : State} (h : sameInside s s') (v : Fin 4) :
    sameInside (acceptSlot v s) (acceptSlot v s') :=
  h.update (Machine.acceptSlot v)

theorem staysInside_trap {s t t' : State} (e : Exc) (h : sameInside t t') (hk : KeepsOutside s t) :
    StaysInside s (trap e t) (trap e t') :=
  staysInside_next (h.raise e 0) hk

theorem staysInside_execDecode (v : Fin 4) {s s' : State} (h : sameInside s s') :
    StaysInside s (execDecode v s) (execDecode v s') := by
  unfold execDecode
  rw [h.congr srcLenLegal, h.congr outLenLegal]
  split_ifs
  · have hends := h.decodeSlot v
    have hk := keepsOutside_decodeSlot v s
    generalize decodeSlot v s = r, decodeSlot v s' = r' at hends hk
    cases hends with
    | done ht => exact staysInside_next (ht.finishDecode _) hk
    | raised e ht => exact staysInside_trap e ht hk
  · exact staysInside_trap _ h (.refl s)

/-- The candidates' decodes run side by side, from what the last one left (45_variant_prober.md R230, R232). -/
theorem staysInside_probeLoop (n m k : Nat) (last : BitVec 3) {s t t' : State} (h : sameInside t t')
    (hk : KeepsOutside s t) : StaysInside s (probeLoop n m k last t) (probeLoop n m k last t') := by
  induction m generalizing k last t t' with
  | zero => exact staysInside_next (h.raise _ last) hk
  | succ m ih =>
    have hcand : candidate t' n k = candidate t n k := h.congr (candidate · n k)
    have hends := h.decodeSlot (candidate t n k)
    have hku := hk.trans (keepsOutside_decodeSlot (candidate t n k) t)
    rw [probeLoop, probeLoop, hcand]
    generalize decodeSlot (candidate t n k) t = r, decodeSlot (candidate t n k) t' = r' at hends hku
    cases hends with
    | done hu =>
      dsimp only
      rw [hu.congr plausible]
      split_ifs
      · exact staysInside_next (hu.acceptSlot _) hku
      · exact ih _ _ hu hku
    | raised e hu =>
      cases e with
      | illegalCommand => exact staysInside_trap _ hu hku
      | _ => exact ih _ _ hu hku

theorem staysInside_execProbe {s s' : State} (h : sameInside s s') :
    StaysInside s (execProbe s) (execProbe s') := by
  unfold execProbe
  rw [h.congr probeLegal, h.congr probeCount]
  split_ifs
  · exact staysInside_probeLoop _ _ _ _ h (.refl s)
  · exact staysInside_trap _ h (.refl s)

end Sys2Proof.Machine
end

section
/-! PROOFS. Every command over two states that differ past the lengths alone (O57; 20_memory.md R76; 60_exceptions.md
R353). -/

namespace Sys2Proof.Machine

open Sys2Proof

theorem keepsBeyond_overlapCopy {s : State} {src dst len : Nat} {m : Memory}
    (h : overlapCopy s src dst len = some m) : KeepsBeyond s m := by
  obtain ⟨_, hnone⟩ | ⟨_, hin, hsome⟩ := overlapCopy_cases s src dst len
  · rw [hnone] at h
    cases h
  · rw [hsome] at h
    cases h
    exact fun a ha => Memory.read_copyUp_outside _ _ _ _ _ _ (.inr (hin.trans ha))

section

variable {s s' : State} (h : sameInside s s')

include h

/-! ## Commands that write registers alone -/

/-- The reader of BCPEEK and BCTAKE stands behind checks of registers (41_bitcursor.md R161, R162). -/
theorem sameInside.take_bitReader (n : BitVec 6) :
    Option.Rel (fun e e' => take e' = take e) (bitReader n s) (bitReader n s') := by
  unfold bitReader
  rw [h.congr cbitsLegal, h.congr srcLenLegal]
  split_ifs
  · exact h.take_cursorReader
  · exact .none

theorem staysInside_execBcpeek (n : BitVec 6) : StaysInside s (execBcpeek n s) (execBcpeek n s') := by
  have hreads := h.take_bitReader n
  unfold execBcpeek
  generalize bitReader n s = o, bitReader n s' = o' at hreads
  cases hreads with
  | none => exact staysInside_trap _ h (.refl s)
  | @some e _ htake =>
    dsimp only
    rw [peek, peek, htake]
    exact staysInside_next
      (h.update fun t => finish { t with curResult := BitVec.ofNat 32 (take e n.toNat t.cur).1 }) (.refl s)

theorem staysInside_execBctake (n : BitVec 6) : StaysInside s (execBctake n s) (execBctake n s') := by
  have hreads := h.take_bitReader n
  unfold execBctake
  generalize bitReader n s = o, bitReader n s' = o' at hreads
  cases hreads with
  | none => exact staysInside_trap _ h (.refl s)
  | @some e _ htake =>
    dsimp only
    rw [htake]
    exact staysInside_next (h.update fun t => finish { t with
      curResult := BitVec.ofNat 32 (take e n.toNat t.cur).1, cur := (take e n.toNat t.cur).2 }) (.refl s)

theorem staysInside_execBcalign : StaysInside s (execBcalign s) (execBcalign s') := by
  unfold execBcalign
  rw [h.congr cbitsLegal, h.congr State.cur]
  split_ifs
  · exact staysInside_next (h.update fun t => finish { t with cur := alignByte s.cur }) (.refl s)
  · exact staysInside_trap _ h (.refl s)

theorem staysInside_execKeygen (target : KeyTarget) : StaysInside s (execKeygen target s) (execKeygen target s') := by
  cases target with
  | kt =>
    unfold execKeygen keygenTable
    rw [h.congr ktlenLegal]
    split_ifs
    · exact staysInside_next (h.update fun t => finish { t with
        kt := fillKt
          ((wordBytes (lcgWords t.lcgA t.lcgB ((t.ktlen.toNat + 3) / 4) t.seed)).take t.ktlen.toNat) 0 t.kt })
        (.refl s)
    · exact staysInside_trap _ h (.refl s)
  | kr =>
    exact staysInside_next
      (h.update fun t => finish { t with kr := fillKr (lcgWords t.lcgA t.lcgB 14 t.seed) 0 t.kr }) (.refl s)

/-- SRESET clears the lengths and leaves the memories (40_commands.md R138). -/
theorem staysInside_execSreset : StaysInside s (execSreset s) (execSreset s') := by
  obtain ⟨src, out, rfl, _, hout⟩ := sameInside_iff.mp h
  exact ⟨_, _, rfl, rfl, rfl, hout, fun _ _ => rfl⟩

/-! ## Commands that write `OUT` -/

/-- A command that a check of the registers refuses is refused in both. -/
theorem staysInside_of_raisesOnly {r r' : Result} {code : BitVec 3} (hr : r = raisesOnly s code)
    (hr' : r' = raisesOnly s' code) : StaysInside s r r' := by
  rw [hr, hr']
  exact staysInside_next (h.update fun t => { t with status := raisedStatus code 0 }) (.refl s)

/-- A command that completes with `OUT` written below `OUT_LEN`. -/
theorem staysInside_of_written {r r' : Result} {v v' : Vector DWord 8} {m m' : Memory}
    (hr : r = .next { s with v := v, out := m, status := validStatus s })
    (hr' : r' = .next { s' with v := v', out := m', status := validStatus s' }) (hv : v' = v)
    (hm : SameBelow .out s.outLen.toNat m m') (hk : KeepsBeyond s m) : StaysInside s r r' := by
  rw [hr, hr', hv]
  obtain ⟨src, out, rfl, hsrc, _⟩ := sameInside_iff.mp h
  exact staysInside_next ⟨rfl, hsrc, hm⟩ ⟨rfl, hk⟩

theorem staysInside_ocopy : StaysInside s (exec .ocopy s) (exec .ocopy s') := by
  have hcopy := h.overlapCopy s.ocFrom.toNat s.ocTo.toNat s.ocLen.toNat
  obtain ⟨src, out, rfl, _⟩ := sameInside_iff.mp h
  by_cases hlen : s.outLen.toNat ≤ 2 ^ 31 - 1
  case neg =>
    rw [not_le] at hlen
    exact staysInside_of_raisesOnly h (exec_ocopy_of_illegal_outLen hlen) (exec_ocopy_of_illegal_outLen hlen)
  case pos =>
    generalize hs : overlapCopy s _ _ _ = r, hs' : overlapCopy { s with src := src, out := out } _ _ _ = r' at hcopy
    cases hcopy with
    | none => exact staysInside_of_raisesOnly h (exec_ocopy_of_refused hlen hs) (exec_ocopy_of_refused hlen hs')
    | some hm =>
      exact staysInside_of_written h (exec_ocopy_of_copied hlen hs) (exec_ocopy_of_copied hlen hs') rfl hm
        (keepsBeyond_overlapCopy hs)

theorem staysInside_cipher : StaysInside s (exec .cipher s) (exec .cipher s') := by
  have hout := h.out_sameBelow
  obtain ⟨src, out, rfl, _⟩ := sameInside_iff.mp h
  by_cases hc : cipherConfigured s
  case neg =>
    exact staysInside_of_raisesOnly h (exec_cipher_of_misconfigured hc) (exec_cipher_of_misconfigured hc)
  case pos =>
    by_cases hw : windowInside s
    case neg => exact staysInside_of_raisesOnly h (exec_cipher_of_outside hc hw) (exec_cipher_of_outside hc hw)
    case pos =>
      have hin : s.ciphOff.toNat + s.ciphLen.toNat / ciphLaneBytes s * ciphLaneBytes s ≤ s.outLen.toNat :=
        (Nat.add_le_add_left (Nat.div_mul_le_self _ _) _).trans hw
      exact staysInside_of_written h (exec_cipher hc hw) (exec_cipher hc hw) rfl (hout.cipherLanes _ _ _ hin)
        fun a ha => cipherLanes_outside _ _ _ _ _ _ _ (.inr (hin.trans ha))

theorem staysInside_lane : StaysInside s (exec .lane s) (exec .lane s') := by
  have hout := h.out_sameBelow
  obtain ⟨src, out, rfl, _⟩ := sameInside_iff.mp h
  by_cases hlen : s.outLen.toNat ≤ 2 ^ 31 - 1
  case neg =>
    rw [not_le] at hlen
    exact staysInside_of_raisesOnly h (exec_lane_of_illegal_outLen hlen) (exec_lane_of_illegal_outLen hlen)
  case pos =>
    cases hos : lopProgram (lopSlots s) with
    | error e =>
      exact staysInside_of_raisesOnly h (exec_lane_of_lopProgram_error hos) (exec_lane_of_lopProgram_error hos)
    | ok os =>
      by_cases hw : windowInside s
      case neg =>
        exact staysInside_of_raisesOnly h (exec_lane_of_outside hlen hos hw) (exec_lane_of_outside hlen hos hw)
      case pos =>
        have hin : s.ciphOff.toNat + 8 * (s.ciphLen.toNat / 8) ≤ s.outLen.toNat :=
          (Nat.add_le_add_left (Nat.mul_div_le _ _) _).trans hw
        obtain ⟨hv, hm⟩ := hout.laneBlocks os (loadKeys s) hin
        exact staysInside_of_written h (exec_lane hlen hos hw) (exec_lane hlen hos hw) hv hm
          fun a ha => laneBlocks_outside _ _ _ _ _ (.inr (hin.trans ha))

/-- Every command, by what it reads and writes. -/
theorem staysInside_exec {i : Instr} (hi : isCommand i = true) : StaysInside s (exec i s) (exec i s') := by
  cases i with
  | nop => exact staysInside_next (h.update finish) (.refl s)
  | clear => exact staysInside_next (h.update clearStatus) (.refl s)
  | sreset => exact staysInside_execSreset h
  | bcinit o r => exact staysInside_next (h.update fun t => finish { t with cur := BitCursor.fresh o r }) (.refl s)
  | bcpeek n => exact staysInside_execBcpeek h n
  | bctake n => exact staysInside_execBctake h n
  | bcalign => exact staysInside_execBcalign h
  | ocopy => exact staysInside_ocopy h
  | decode v => exact staysInside_execDecode v h
  | probe => exact staysInside_execProbe h
  | keygen target => exact staysInside_execKeygen h target
  | cipher => exact staysInside_cipher h
  | lane => exact staysInside_lane h
  | _ => cases hi

end

/-- Settles O57: command by command. -/
theorem commandsStayInsideTheLengths : Obligations.CommandsStayInsideTheLengths :=
  fun _ _ _ hi h => staysInside_exec h hi

end Sys2Proof.Machine
end
